-- ==== Sys2Proof/Word.lean ====
section
/-! DEFINITION. The word types of HUFFCORE: the 32-bit port data word (R70, R75) and the byte of the packed streams (R77). -/

namespace Sys2Proof

/-- The port's data word; bit 0 is the least significant bit (R17, R75). -/
abbrev Word := BitVec 32

/-- A byte of the output buffer, of a packed chunk or of the alphabet. -/
abbrev Byte := BitVec 8

end Sys2Proof
end

