-- ==== Sys2Proof/Syntax.lean ====
section
/-! DEFINITION. The command set of HUFFCORE as abstract syntax: one constructor per row of the opcode map (R104). -/

namespace Sys2Proof

/-- The twelve commands. A symbol and a padding count are numbers (R103); the packed byte of DEC.BYTE is read bit by
bit and is a byte. -/
inductive Instr where
  | nop
  | clrerr
  | sreset
  | fclr
  | outClear
  | build
  | extract
  | encStart
  | encSym (s : Nat)
  | encFlush
  | decStart (p : Nat)
  | decByte (b : Byte)
  deriving DecidableEq, Repr

end Sys2Proof
end

