-- ==== Sys2Proof/WellFormed.lean ====
section
/-! DEFINITION. Which command terms have an encoding: "a format-I immediate must lie in 0 … 255" (R103, R110). -/

namespace Sys2Proof

/-- The operand of a command fits the 8-bit immediate field (R100, R103). -/
def Instr.wellFormed : Instr → Bool
  | .nop        => true
  | .clrerr     => true
  | .sreset     => true
  | .fclr       => true
  | .outClear   => true
  | .build      => true
  | .extract    => true
  | .encStart   => true
  | .encSym s   => decide (s < 256)
  | .encFlush   => true
  | .decStart p => decide (p < 256)
  | .decByte _  => true

end Sys2Proof
end

