-- ==== Sys2Proof/Decode.lean ====
section
/-! DEFINITION. The command decoder (R100 to R106), total on every 32-bit word, and after it the encoder. -/

namespace Sys2Proof

/-- The two formats of R101. -/
inductive Format where
  | n
  | i
  deriving DecidableEq, Repr

/-- Why a word is ILLEGAL, in the order R102 checks. -/
inductive IllegalReason where
  /-- The opcode is in no row of R104 (R106). -/
  | reservedOpcode
  /-- Bits [23:8] are not zero (R101, D36). -/
  | reservedBits
  /-- A format-N command with IMM8 ≠ 0 (R101). -/
  | operandInFormatN
  deriving DecidableEq, Repr

/-- What the decoder answers: a command with its operand, or ILLEGAL with the reason. -/
inductive Verdict where
  | command (i : Instr)
  | illegal (why : IllegalReason)
  deriving DecidableEq, Repr

/-- OPC = word[31:24]. -/
def opcField (w : Word) : BitVec 8 := w.extractLsb' 24 8

/-- RSV = word[23:8]. -/
def rsvField (w : Word) : BitVec 16 := w.extractLsb' 8 16

/-- IMM8 = word[7:0]. -/
def immField (w : Word) : BitVec 8 := w.extractLsb' 0 8

/-- The opcode map of R104: a listed opcode's format, and its command with the immediate operand. -/
def opcodeMap (opc imm : BitVec 8) : Option (Format × Instr) :=
  match opc.toNat with
  | 0x00 => some (.n, .nop)
  | 0x01 => some (.n, .clrerr)
  | 0x02 => some (.n, .sreset)
  | 0x03 => some (.n, .fclr)
  | 0x04 => some (.n, .outClear)
  | 0x10 => some (.n, .build)
  | 0x11 => some (.n, .extract)
  | 0x20 => some (.n, .encStart)
  | 0x21 => some (.i, .encSym imm.toNat)
  | 0x22 => some (.n, .encFlush)
  | 0x30 => some (.i, .decStart imm.toNat)
  | 0x31 => some (.i, .decByte imm)
  | _    => none

/-- R102. -/
def decode (w : Word) : Verdict :=
  match opcodeMap (opcField w) (immField w) with
  | none => .illegal .reservedOpcode
  | some (fmt, i) =>
    if rsvField w ≠ 0 then .illegal .reservedBits
    else if fmt = .n ∧ immField w ≠ 0 then .illegal .operandInFormatN
    else .command i

/-- The OPC value of a command (R104). -/
def Instr.opcode : Instr → BitVec 8
  | .nop        => 0x00
  | .clrerr     => 0x01
  | .sreset     => 0x02
  | .fclr       => 0x03
  | .outClear   => 0x04
  | .build      => 0x10
  | .extract    => 0x11
  | .encStart   => 0x20
  | .encSym _   => 0x21
  | .encFlush   => 0x22
  | .decStart _ => 0x30
  | .decByte _  => 0x31

/-- The IMM8 value of a command (R101, R103). -/
def Instr.immediate : Instr → BitVec 8
  | .nop        => 0
  | .clrerr     => 0
  | .sreset     => 0
  | .fclr       => 0
  | .outClear   => 0
  | .build      => 0
  | .extract    => 0
  | .encStart   => 0
  | .encSym s   => BitVec.ofNat 8 s
  | .encFlush   => 0
  | .decStart p => BitVec.ofNat 8 p
  | .decByte b  => b

/-- The command word of a well-formed command: OPC, sixteen zero bits, IMM8 (R100, R101). -/
def encode (i : Instr) : Word :=
  i.opcode ++ (0 : BitVec 16) ++ i.immediate

/-- The mnemonic of a command (R104, R111). -/
def Instr.mnemonic : Instr → String
  | .nop        => "NOP"
  | .clrerr     => "CLRERR"
  | .sreset     => "SRESET"
  | .fclr       => "FCLR"
  | .outClear   => "OUT.CLEAR"
  | .build      => "BUILD"
  | .extract    => "EXTRACT"
  | .encStart   => "ENC.START"
  | .encSym _   => "ENC.SYM"
  | .encFlush   => "ENC.FLUSH"
  | .decStart _ => "DEC.START"
  | .decByte _  => "DEC.BYTE"

/-- A row of the table of R104. -/
structure OpcodeRow where
  mnemonic : String
  pattern  : Word
  mask     : Word
  deriving DecidableEq, Repr

/-- The table of R104 as it stands there: mnemonic, word (match) and mask. -/
def opcodeTable : List OpcodeRow :=
  [ ⟨"NOP",       0x00000000, 0xFFFFFFFF⟩,
    ⟨"CLRERR",    0x01000000, 0xFFFFFFFF⟩,
    ⟨"SRESET",    0x02000000, 0xFFFFFFFF⟩,
    ⟨"FCLR",      0x03000000, 0xFFFFFFFF⟩,
    ⟨"OUT.CLEAR", 0x04000000, 0xFFFFFFFF⟩,
    ⟨"BUILD",     0x10000000, 0xFFFFFFFF⟩,
    ⟨"EXTRACT",   0x11000000, 0xFFFFFFFF⟩,
    ⟨"ENC.START", 0x20000000, 0xFFFFFFFF⟩,
    ⟨"ENC.SYM",   0x21000000, 0xFFFFFF00⟩,
    ⟨"ENC.FLUSH", 0x22000000, 0xFFFFFFFF⟩,
    ⟨"DEC.START", 0x30000000, 0xFFFFFF00⟩,
    ⟨"DEC.BYTE",  0x31000000, 0xFFFFFF00⟩ ]

/-- A word spells the command of a row when (word AND mask) = match (R104). -/
def OpcodeRow.spells (r : OpcodeRow) (w : Word) : Bool := (w &&& r.mask) == r.pattern

/-- The command the decoder reads from the bits `w` of a table row of `nbits` bits; every bit above `nbits` is zero. A
command is exactly one 32-bit word (R100), so no wider number is one. -/
def decodeTableWord (nbits w : Nat) : Option Instr :=
  if w % 2 ^ nbits < 2 ^ 32 then
    match decode (BitVec.ofNat 32 (w % 2 ^ nbits)) with
    | .command i => some i
    | .illegal _ => none
  else none

end Sys2Proof
end

