-- ==== Sys2Proof/Config.lean ====
section
/-! DEFINITION. What an implementation fixes: the four open parameters of the spec (R10, R11, R70, R93), and the one free value, the contents of the output buffer after a hardware reset (R65, V1). -/

namespace Sys2Proof

/-- The two alphabet sizes R10 admits. -/
inductive Alpha where
  | alpha128
  | alpha256
  deriving DecidableEq, Repr

/-- FILE_ORDER (R93): the byte order of the machine that produced a persisted file. -/
inductive ByteOrder where
  | littleEndian
  | bigEndian
  deriving DecidableEq, Repr

/-- The model's parameters. No illegal value can be written: ALPHA is one of two names, and OBUF_BYTES is
`2 ^ (6 + obufSel)` with `obufSel` from 0 to 9, that is 64 to 32768 (R11). -/
structure Config where
  alpha     : Alpha
  obufSel   : Fin 10
  /-- HUFFCORE_BASE (R70): where the platform puts the 64 KiB window. -/
  base      : Nat
  fileOrder : ByteOrder
  deriving DecidableEq, Repr

/-- The parameters the spec's examples use (R10, R11); base and file order are log 1's choice. -/
def Config.examples : Config :=
  { alpha := .alpha256, obufSel := 6, base := 0, fileOrder := .littleEndian }

/-- The parameters of the vectors PT3 and E10 (spec/95_test_vectors.md): the narrow alphabet and the smallest buffer. -/
def Config.smallest : Config :=
  { alpha := .alpha128, obufSel := 0, base := 0, fileOrder := .littleEndian }

/-- FREE VALUE (log 4): the byte that location `k` of the output buffer reads after hardware reset number `draw`, until
a command writes it. R65 leaves it unspecified and V1 makes it one free byte per location. -/
opaque Config.obufAtReset (draw k : Nat) : Byte

end Sys2Proof
end

