-- ==== Sys2Proof/Machine/Params.lean ====
section
/-! DEFINITION. The numbers that follow from the parameters (R10 to R15). -/

namespace Sys2Proof

/-- ALPHA_LOG2 (R10). -/
def Config.alphaLog2 (c : Config) : Nat :=
  match c.alpha with
  | .alpha128 => 7
  | .alpha256 => 8

/-- ALPHA (R10). -/
def Config.alphaSize (c : Config) : Nat := 2 ^ c.alphaLog2

/-- OBUF_LOG2, 6 to 15 (R11). -/
def Config.obufLog2 (c : Config) : Nat := 6 + c.obufSel.val

/-- OBUF_BYTES (R11). -/
def Config.obufBytes (c : Config) : Nat := 2 ^ c.obufLog2

/-- WEIGHT_W (R12). -/
def Config.weightW (c : Config) : Nat := 32 + c.alphaLog2

/-- NODE_MAX (R13). -/
def Config.nodeMax (c : Config) : Nat := 2 * c.alphaSize - 1

/-- MAX_CODE_LEN (R14). -/
def Config.maxCodeLen (c : Config) : Nat := c.alphaSize - 1

/-- CHUNK_MAX (R12, R195). -/
def chunkMax : Nat := 0x7FFFFFFF

/-! The fixed widths of R12 and R15. State and the port carry them in their types; Laws/Params.lean says that they agree. -/

/-- FREQ_W (R12). -/
def freqW : Nat := 32

/-- The width of CLEN (R12). -/
def codeLenW : Nat := 9

/-- The width of a code's pattern store (R12). -/
def codeStoreW : Nat := 256

/-- The width of the port's byte address (R70). -/
def portAddrW : Nat := 16

/-- The width of the port's data word (R70). -/
def portDataW : Nat := 32

/-- The width of DEC_REM (R57). -/
def decRemW : Nat := 34

end Sys2Proof
end

