-- ==== Sys2Proof/Machine/State.lean ====
section
/-! DEFINITION. The state of HUFFCORE (10_state.md) as plain data, and its reset (R65, R270). -/

namespace Sys2Proof.Machine

/-- Sparse storage of a register file: (index, value) pairs with strictly rising indices (Machine/Ops.lean). -/
abbrev Table (α : Type) := List (Nat × α)

/-- The bytes of the output buffer that a command has written since the last hardware reset, by index. -/
abbrev Memory := List Host.Cell

/-- STATUS.TREE_STATE (R42). -/
inductive TreeState where
  | none
  | empty
  | single
  | multi
  deriving DecidableEq, Repr

/-- The error codes of R243. Code 15 is never recorded (V5) and has no name. -/
inductive ErrCode where
  | none
  | illegalCmd
  | noTree
  | noCodes
  | sessionOpen
  | notStarted
  | symAbsent
  | obufFull
  | chunkTooLong
  | badLength
  | badPadding
  | treeEmpty
  | decBadBit
  | decIncomplete
  | busAccess
  deriving DecidableEq, Repr

/-- An arena entry (R21, R52). Weights and links are naturals (log 8). -/
inductive Node where
  | leaf (sym : Byte) (w : Nat)
  | internal (w left right : Nat)
  deriving DecidableEq, Repr

/-- One symbol's entry of the code table: CLEN (9 bits) and CBITS (256 bits) (R60). -/
structure Code where
  len  : BitVec 9
  bits : BitVec 256
  deriving DecidableEq, Repr

/-- What an access does at its address (R71). -/
inductive AccessKind where
  | read
  | write (v : Word)
  deriving DecidableEq, Repr

/-- One access at the port: a 16-bit byte address (R70), the four byte lanes, and the kind. -/
structure Access where
  addr  : BitVec 16
  lanes : BitVec 4
  kind  : AccessKind
  deriving DecidableEq, Repr

/-- What can arrive at the block: an access, or a pulse of the platform's reset input (R270, log 10). -/
inductive PortInput where
  | access (a : Access)
  | hardReset
  deriving DecidableEq, Repr

/-- What the port answered to a completed access: the data word of a read, and whether the response was an error
response (R25, R74). -/
structure Observation where
  access   : Access
  returned : Option Word
  error    : Bool
  deriving DecidableEq, Repr

/-- The machine. Every register has exactly its architectural width. -/
structure State where
  /-- The parameters; no step writes them (log 1). -/
  cfg        : Config
  /-- ARG (R40). -/
  arg        : Word
  /-- STATUS.ERRCODE (R48). -/
  errCode    : ErrCode
  /-- ERRINFO (R49). -/
  errInfo    : Word
  /-- STATUS.TREE_STATE (R42). -/
  treeState  : TreeState
  /-- STATUS.CODES_VALID (R43). -/
  codesValid : Bool
  /-- STATUS.ENC_ACTIVE (R44). -/
  encActive  : Bool
  /-- STATUS.DEC_ACTIVE (R45). -/
  decActive  : Bool
  /-- NSYM (R50). -/
  nsym       : BitVec 9
  /-- ROOT (R51). -/
  root       : BitVec 9
  /-- The defined entries of the NODE arena; NNODES is their number (R51, R52, log 7). -/
  arena      : List Node
  /-- OUT_PTR (R54). -/
  outPtr     : BitVec 16
  /-- ENC_BYTES (R55). -/
  encBytes   : BitVec 31
  /-- ENC_PAD (R55). -/
  encPad     : BitVec 3
  /-- ENC_ACC (R56). -/
  encAcc     : BitVec 7
  /-- STATUS.ENC_NBITS (R47). -/
  encNbits   : BitVec 3
  /-- DEC_REM (R57). -/
  decRem     : BitVec 34
  /-- DEC_CURSOR (R58). -/
  decCursor  : BitVec 9
  /-- The FREQ file (R59); an unlisted entry is 0. -/
  freq       : Table Word
  /-- CLEN and CBITS (R60); an unlisted entry has length 0 and pattern 0. -/
  codes      : Table Code
  /-- OBUF (R63); an unlisted byte is the free value of log 4. -/
  obuf       : Memory
  /-- The model's own: which power-on draw unwritten OBUF bytes read from (log 4). -/
  obufDraw   : Nat
  /-- The model's own: inputs the port has not handled yet, oldest first (log 2). -/
  pending    : List PortInput
  /-- The model's own: the port's answers, oldest first (log 3). -/
  observed   : List Observation
  deriving DecidableEq, Repr

/-- Why the machine stops. Nothing in HUFFCORE stops it (R283). -/
inductive Fault where
  /-- Raised by EXTRACT and DEC.BYTE when the tree walk needs an arena entry that is not defined or is of the other
  kind. R64 and R157 exclude it in every state a run reaches. Safe: the model stops where the spec says nothing (log 11). -/
  | undefinedNode
  deriving DecidableEq, Repr

/-- Why a command has no meaning. -/
inductive Refusal where
  /-- A command of the opcode table whose arm has no meaning yet; no arm of this model uses it. Safe. -/
  | notModelled (mnemonic : String)
  deriving DecidableEq, Repr

/-- Every field at its reset value (R65), for parameters `c` and power-on draw `draw`; no input pending. -/
def State.resetWith (c : Config) (draw : Nat) : State :=
  { cfg := c, arg := 0, errCode := .none, errInfo := 0, treeState := .none, codesValid := false,
    encActive := false, decActive := false, nsym := 0, root := 0, arena := [], outPtr := 0,
    encBytes := 0, encPad := 0, encAcc := 0, encNbits := 0, decRem := 0, decCursor := 0,
    freq := [], codes := [], obuf := [], obufDraw := draw, pending := [], observed := [] }

/-- The machine right after a hardware reset, with the parameters of the spec's examples (log 1). -/
def State.reset : State := State.resetWith Config.examples 0

end Sys2Proof.Machine
end

