-- ==== Sys2Proof/Machine/Operands.lean ====
section
/-! DEFINITION. Bit strings and operand forms: how a code, a packed byte and a chunk descriptor are read (R17, R18, R77, R103). -/

namespace Sys2Proof.Machine

/-- A finite sequence of bits, first bit first (R18). -/
abbrev BitString := List Bool

/-- `bitsOf V L`: the L-bit string of V, most-significant bit first; bit i of the string is V[L−1−i] (R18). -/
def bitsOf (v len : Nat) : BitString :=
  (List.range len).map fun i => v.testBit (len - 1 - i)

/-- `valOf b`: the number whose bit string is b, first bit most significant (R18). -/
def valOf (b : BitString) : Nat :=
  b.foldl (fun acc bit => 2 * acc + bit.toNat) 0

/-- The bits of a packed byte in stream order: bit 7 is the earliest, bit 0 the latest (R77). -/
def byteBits (b : Byte) : BitString := bitsOf b.toNat 8

/-- The code of a table entry: `bitsOf(CBITS, CLEN)` (R60). -/
def Code.bitString (c : Code) : BitString := bitsOf c.bits.toNat c.len.toNat

/-- The entry of a symbol without a code (R60). -/
def noCode : Code := { len := 0, bits := 0 }

/-- The entry that stores the path p: CLEN = |p|, CBITS = zext_256(valOf(p)) (R171). -/
def codeOfPath (p : BitString) : Code :=
  { len := BitVec.ofNat 9 p.length, bits := BitVec.ofNat 256 (valOf p) }

/-- The useful bits of a chunk of `len` bytes with padding `pad`: `len · 8 − pad` (R210, R211). -/
def usefulBits (len pad : Nat) : Nat := len * 8 - pad

/-- How many of a packed byte's bits the decoder reads: min(8, DEC_REM) (R213). -/
def usefulInByte (rem : Nat) : Nat := min 8 rem

end Sys2Proof.Machine
end

