-- ==== Sys2Proof/Machine/Flags.lean ====
section
/-! DEFINITION. The views that have no storage of their own, and the STATUS word they make up (R41 to R48, R51). -/

namespace Sys2Proof.Machine

/-- The 2-bit value of TREE_STATE (R42). -/
def TreeState.code : TreeState → BitVec 2
  | .none   => 0
  | .empty  => 1
  | .single => 2
  | .multi  => 3

/-- The 4-bit value of ERRCODE (R243). -/
def ErrCode.code : ErrCode → BitVec 4
  | .none          => 0
  | .illegalCmd    => 1
  | .noTree        => 2
  | .noCodes       => 3
  | .sessionOpen   => 4
  | .notStarted    => 5
  | .symAbsent     => 6
  | .obufFull      => 7
  | .chunkTooLong  => 8
  | .badLength     => 9
  | .badPadding    => 10
  | .treeEmpty     => 11
  | .decBadBit     => 12
  | .decIncomplete => 13
  | .busAccess     => 14

/-- STATUS.ERR: 1 exactly when ERRCODE ≠ 0 (R48). -/
def State.err (s : State) : Bool := decide (s.errCode ≠ .none)

/-- STATUS.DEC_AT_ROOT: 1 when DEC_CURSOR = ROOT (R46). -/
def State.decAtRoot (s : State) : Bool := decide (s.decCursor = s.root)

/-- NNODES: the number of defined arena entries (R51, R52). -/
def State.nnodes (s : State) : Nat := s.arena.length

/-- The STATUS word, from bit 31 down: ERR, 11 reserved bits, ERRCODE, 5 reserved bits, ENC_NBITS, 2 reserved bits,
DEC_AT_ROOT, DEC_ACTIVE, ENC_ACTIVE, CODES_VALID, TREE_STATE (R41). -/
def statusWord (s : State) : Word :=
  BitVec.ofBool s.err ++ (0 : BitVec 11) ++ s.errCode.code ++ (0 : BitVec 5) ++ s.encNbits ++ (0 : BitVec 2)
    ++ BitVec.ofBool s.decAtRoot ++ BitVec.ofBool s.decActive ++ BitVec.ofBool s.encActive
    ++ BitVec.ofBool s.codesValid ++ s.treeState.code

end Sys2Proof.Machine
end

