-- ==== Sys2Proof/Machine/Ops.lean ====
section
/-! DEFINITION. The named operations over the register files, the output buffer and the error record. -/

namespace Sys2Proof.Machine

/-! ### Sparse tables in canonical form -/

/-- The stored value at an index, if one is listed. -/
def Table.find {α : Type} : Table α → Nat → Option α
  | [], _ => none
  | (k', v) :: t, k => if k = k' then some v else Table.find t k

/-- Lists `v` at index `k`, keeping the indices strictly rising. -/
def Table.put {α : Type} : Table α → Nat → α → Table α
  | [], k, v => [(k, v)]
  | (k', v') :: t, k, v =>
    if k < k' then (k, v) :: (k', v') :: t
    else if k = k' then (k, v) :: t
    else (k', v') :: Table.put t k v

/-- Removes the entry at index `k`, if one is listed. -/
def Table.drop {α : Type} : Table α → Nat → Table α
  | [], _ => []
  | (k', v') :: t, k => if k = k' then t else (k', v') :: Table.drop t k

/-- Reads a register file whose unlisted entries hold `d`. -/
def Table.read {α : Type} (d : α) (t : Table α) (k : Nat) : α := (Table.find t k).getD d

/-- Writes a register file whose unlisted entries hold `d`: writing `d` removes the entry, so equal files are equal
data. -/
def Table.write {α : Type} [DecidableEq α] (d : α) (t : Table α) (k : Nat) (v : α) : Table α :=
  if v = d then Table.drop t k else Table.put t k v

/-- The indices are strictly rising. -/
abbrev Table.sorted {α : Type} (t : Table α) : Prop := (t.map Prod.fst).Pairwise (· < ·)

/-- The canonical form of a file whose unlisted entries hold `d`. -/
abbrev Table.wf {α : Type} (d : α) (t : Table α) : Prop := Table.sorted t ∧ ∀ e ∈ t, e.2 ≠ d

/-- The canonical form of the output buffer's written bytes: strictly rising indices (log 5). -/
abbrev Memory.wf (m : Memory) : Prop := Table.sorted m

/-! ### FREQ and the code table -/

/-- FREQ[s] (R59). -/
def freqAt (t : Table Word) (s : Nat) : Word := Table.read 0 t s

/-- `FREQ[s] <- v` (R59). -/
def State.writeFreq (s : State) (k : Nat) (v : Word) : State :=
  { s with freq := Table.write 0 s.freq k v }

/-- CLEN[s] and CBITS[s] (R60). -/
def codeAt (t : Table Code) (s : Nat) : Code := Table.read noCode t s

/-! ### The output buffer -/

/-- OBUF[k]: the byte a command wrote there last, or the power-on draw (R63, R65, V1). -/
def obufByte (s : State) (k : Nat) : Byte :=
  (Table.find s.obuf k).getD (Config.obufAtReset s.obufDraw k)

/-- OBUF word k: OBUF[4k + j] in bits [8j+7 : 8j] (R76). -/
def obufWord (s : State) (k : Nat) : Word :=
  obufByte s (4 * k + 3) ++ obufByte s (4 * k + 2) ++ obufByte s (4 * k + 1) ++ obufByte s (4 * k)

/-- `emit(x)`: OBUF[OUT_PTR] <- x, then OUT_PTR <- OUT_PTR + 1 (R19, R54). -/
def emit (s : State) (x : Byte) : State :=
  { s with obuf := Table.put s.obuf s.outPtr.toNat x, outPtr := s.outPtr + 1 }

/-- `for x in xs: emit(x)`. -/
def emitAll (s : State) (xs : List Byte) : State := xs.foldl emit s

/-! ### The error record: taking an error, and returning from one -/

/-- ERRCODE <- code; ERRINFO <- info, and nothing else (R241). -/
def State.recordError (s : State) (code : ErrCode) (info : Word) : State :=
  { s with errCode := code, errInfo := info }

/-- ERRCODE <- 0; ERRINFO <- 0 (R131), which reopens the gate (R249). -/
def State.clearError (s : State) : State :=
  { s with errCode := .none, errInfo := 0 }

/-- `raise Error(code)` in command `i`: the error outcome of R241, with the command word of `i` in ERRINFO (R49). -/
def raiseError (code : ErrCode) (i : Instr) (s : State) : Host.Outcome State Fault Refusal :=
  .next (s.recordError code (encode i))

/-- What an access error records (R244): {addr[15:0], is_write << 16}, unless the gate is closed. -/
def State.recordBusError (s : State) (addr : BitVec 16) (isWrite : Bool) : State :=
  if s.err then s
  else s.recordError .busAccess ((0 : BitVec 15) ++ BitVec.ofBool isWrite ++ addr)

/-! ### Reset -/

/-- Every field but OBUF, the parameters and the host's side takes its reset value (R132, R273). -/
def State.softReset (s : State) : State :=
  { State.resetWith s.cfg s.obufDraw with obuf := s.obuf, pending := s.pending, observed := s.observed }

/-- A pulse of the reset input (R270): every field takes its reset value, and OBUF is drawn anew (R65, log 10). -/
def State.hardReset (s : State) : State :=
  { State.resetWith s.cfg (s.obufDraw + 1) with pending := s.pending, observed := s.observed }

/-! ### Outcomes -/

/-- Carries a next state on, and keeps a fault or refusal. -/
def andThen (o : Host.Outcome State Fault Refusal) (f : State → State) : Host.Outcome State Fault Refusal :=
  match o with
  | .next t => .next (f t)
  | .fault r => .fault r
  | .refused r => .refused r

end Sys2Proof.Machine
end

