-- ==== Sys2Proof/Machine/CodeExtractor.lean ====
section
/-! DEFINITION. EXTRACT: the depth-first walk of the tree into the code table (42_code_extractor.md). -/

namespace Sys2Proof.Machine

/-- `walk(i, p)` of R171: the leaves below entry `i`, left before right, each with its symbol and its path. The fuel
bounds the depth; children have smaller indices (R52), so `i + 1` levels are enough (log 12). `none` when an entry is
not defined. -/
def walk (arena : List Node) : Nat → Nat → BitString → Option (List (Nat × BitString))
  | 0, _, _ => none
  | fuel + 1, i, p =>
    match arena[i]? with
    | none => none
    | some (.leaf sym _) => some [(sym.toNat, p)]
    | some (.internal _ left right) =>
      match walk arena fuel left (p ++ [false]) with
      | none => none
      | some ls =>
        match walk arena fuel right (p ++ [true]) with
        | none => none
        | some rs => some (ls ++ rs)

/-- Writes the entries one after another into a table. -/
def writeCodes (t : Table Code) (entries : List (Nat × Code)) : Table Code :=
  entries.foldl (fun t e => Table.write noCode t e.1 e.2) t

/-- The code table of a tree: every entry cleared, then one entry per leaf (R171, R172). -/
def treeCodes (ts : TreeState) (arena : List Node) (root : Nat) : Option (Table Code) :=
  match ts with
  | .none => some []
  | .empty => some []
  | .single =>
    match arena[(0 : Nat)]? with
    | some (.leaf sym _) => some (writeCodes [] [(sym.toNat, { len := 1, bits := 0 })])
    | some (.internal _ _ _) => none
    | none => none
  | .multi =>
    match walk arena (root + 1) root [] with
    | none => none
    | some leaves => some (writeCodes [] (leaves.map fun e => (e.1, codeOfPath e.2)))

/-- EXTRACT (R170). -/
def execExtract (s : State) : Host.Outcome State Fault Refusal :=
  if s.treeState = .none then raiseError .noTree .extract s
  else if s.encActive = true then raiseError .sessionOpen .extract s
  else
    match treeCodes s.treeState s.arena s.root.toNat with
    | none => .fault .undefinedNode
    | some t => .next { s with codes := t, codesValid := true }

end Sys2Proof.Machine
end

