-- ==== Sys2Proof/Machine/Control.lean ====
section
/-! DEFINITION. The control and frequency-file commands (40_control.md). None raises an error of its own (R135). -/

namespace Sys2Proof.Machine

/-- NOP (R130). -/
def execNop (s : State) : Host.Outcome State Fault Refusal := .next s

/-- CLRERR (R131). -/
def execClrerr (s : State) : Host.Outcome State Fault Refusal := .next s.clearError

/-- SRESET (R132). -/
def execSreset (s : State) : Host.Outcome State Fault Refusal := .next s.softReset

/-- FCLR: FREQ[s] <- 0 for every s (R133). -/
def execFclr (s : State) : Host.Outcome State Fault Refusal := .next { s with freq := [] }

/-- OUT.CLEAR: OUT_PTR <- 0; the OBUF bytes keep their values (R134). -/
def execOutClear (s : State) : Host.Outcome State Fault Refusal := .next { s with outPtr := 0 }

end Sys2Proof.Machine
end

