-- ==== Sys2Proof/Machine/Decoder.lean ====
section
/-! DEFINITION. The bit-unpacking decoder: DEC.START, DEC.BYTE (44_decoder.md). -/

namespace Sys2Proof.Machine

/-- R of R211: the useful bits of the chunk that ARG and the padding describe. -/
def chunkBits (s : State) (p : Nat) : Nat := usefulBits s.arg.toNat p

/-- What DEC.START writes when its checks pass (R211). -/
def State.openDecoder (s : State) (bits : Nat) : State :=
  { s with decRem := BitVec.ofNat 34 bits, decCursor := s.root, decActive := decide (0 < bits) }

/-- DEC.START p (R211). -/
def execDecStart (p : Nat) (s : State) : Host.Outcome State Fault Refusal :=
  if s.treeState = .none then raiseError .noTree (.decStart p) s
  else if s.decActive = true then raiseError .sessionOpen (.decStart p) s
  else if s.arg.getLsbD 31 = true then raiseError .badLength (.decStart p) s
  else if 7 < p ∨ (s.arg = 0 ∧ p ≠ 0) then raiseError .badPadding (.decStart p) s
  else if 0 < chunkBits s p ∧ s.treeState = .empty then raiseError .treeEmpty (.decStart p) s
  else .next (s.openDecoder (chunkBits s p))

/-- What reading bits leaves: the cursor and the symbols found, a 1 bit under a single-symbol tree (R214), or an entry
the arena does not hold. -/
inductive Parse where
  | done (cursor : Nat) (out : List Byte)
  | badBit
  | undefinedNode
  deriving DecidableEq, Repr

/-- One bit under a single-symbol tree: 0 is the code of the sole symbol, 1 is no code (R214). -/
def parseSingle (arena : List Node) : BitString → Nat → List Byte → Parse
  | [], c, out => .done c out
  | bit :: bits, c, out =>
    if bit = true then .badBit
    else
      match arena[(0 : Nat)]? with
      | some (.leaf sym _) => parseSingle arena bits c (out ++ [sym])
      | some (.internal _ _ _) => .undefinedNode
      | none => .undefinedNode

/-- `child(c, bit)`: left on 0, right on 1 (R21, R213). -/
def childAt (arena : List Node) (c : Nat) (bit : Bool) : Option Nat :=
  match arena[c]? with
  | some (.internal _ left right) => some (if bit = true then right else left)
  | some (.leaf _ _) => none
  | none => none

/-- The walk of R213: descend one level per bit; at a leaf give its symbol and return to the root. -/
def parseMulti (arena : List Node) (root : Nat) : BitString → Nat → List Byte → Parse
  | [], c, out => .done c out
  | bit :: bits, c, out =>
    match childAt arena c bit with
    | none => .undefinedNode
    | some c' =>
      match arena[c']? with
      | some (.leaf sym _) => parseMulti arena root bits root (out ++ [sym])
      | some (.internal _ _ _) => parseMulti arena root bits c' out
      | none => .undefinedNode

/-- The bit loop of R213. -/
def parseBits (s : State) (bits : BitString) : Parse :=
  match s.treeState with
  | .single => parseSingle s.arena bits s.decCursor.toNat []
  | .multi => parseMulti s.arena s.root.toNat bits s.decCursor.toNat []
  | .none => parseMulti s.arena s.root.toNat bits s.decCursor.toNat []
  | .empty => parseMulti s.arena s.root.toNat bits s.decCursor.toNat []

/-- u of R213. -/
def usefulNow (s : State) : Nat := usefulInByte s.decRem.toNat

/-- The bits of `b` that DEC.BYTE reads: its first u bits; the rest is padding and is not looked at (R213, R215). -/
def readBits (s : State) (b : Byte) : BitString := (byteBits b).take (usefulNow s)

/-- What DEC.BYTE writes when its checks pass (R213). -/
def State.takeByte (s : State) (cursor : Nat) (out : List Byte) : State :=
  { emitAll s out with
    decCursor := BitVec.ofNat 9 cursor
    decRem := BitVec.ofNat 34 (s.decRem.toNat - usefulNow s)
    decActive := decide (0 < s.decRem.toNat - usefulNow s) }

/-- DEC.BYTE b (R213). -/
def execDecByte (b : Byte) (s : State) : Host.Outcome State Fault Refusal :=
  if s.decActive = false then raiseError .notStarted (.decByte b) s
  else
    match parseBits s (readBits s b) with
    | .undefinedNode => .fault .undefinedNode
    | .badBit => raiseError .decBadBit (.decByte b) s
    | .done cursor out =>
      if s.decRem.toNat - usefulNow s = 0 ∧ cursor ≠ s.root.toNat then raiseError .decIncomplete (.decByte b) s
      else if s.cfg.obufBytes < s.outPtr.toNat + out.length then raiseError .obufFull (.decByte b) s
      else .next (s.takeByte cursor out)

end Sys2Proof.Machine
end

