-- ==== Sys2Proof/Machine/Encoder.lean ====
section
/-! DEFINITION. The bit-packing encoder: ENC.START, ENC.SYM, ENC.FLUSH (43_encoder.md). -/

namespace Sys2Proof.Machine

/-- ENC.START (R190). -/
def execEncStart (s : State) : Host.Outcome State Fault Refusal :=
  if s.codesValid = false then raiseError .noCodes .encStart s
  else if s.encActive = true then raiseError .sessionOpen .encStart s
  else .next { s with encAcc := 0, encNbits := 0, encBytes := 0, encPad := 0, encActive := true }

/-- T of R193: the pending bits and the code's length. -/
def encTotal (s : State) (c : Code) : Nat := s.encNbits.toNat + c.len.toNat

/-- X of R193: the T-bit value of the pending bits, then the code. -/
def encValue (s : State) (c : Code) : Nat := s.encAcc.toNat * 2 ^ c.len.toNat + c.bits.toNat

/-- The bytes `(X >> (T − 8·(q+1))) mod 2^8` for q = 0 … k−1 with k = T div 8 (R193). -/
def completedBytes (x t : Nat) : List Byte :=
  (List.range (t / 8)).map fun q => BitVec.ofNat 8 (x >>> (t - 8 * (q + 1)))

/-- What ENC.SYM writes when its checks pass (R193). -/
def State.appendCode (s : State) (c : Code) : State :=
  let t := encTotal s c
  let x := encValue s c
  { emitAll s (completedBytes x t) with
    encBytes := BitVec.ofNat 31 (s.encBytes.toNat + t / 8)
    encNbits := BitVec.ofNat 3 (t % 8)
    encAcc := BitVec.ofNat 7 (x % 2 ^ (t % 8)) }

/-- ENC.SYM s (R193). -/
def execEncSym (sym : Nat) (s : State) : Host.Outcome State Fault Refusal :=
  if s.encActive = false then raiseError .notStarted (.encSym sym) s
  else if s.cfg.alphaSize ≤ sym ∨ (codeAt s.codes sym).len = 0 then raiseError .symAbsent (.encSym sym) s
  else if s.cfg.obufBytes < s.outPtr.toNat + encTotal s (codeAt s.codes sym) / 8 then
    raiseError .obufFull (.encSym sym) s
  else if chunkMax < s.encBytes.toNat + encTotal s (codeAt s.codes sym) / 8 then
    raiseError .chunkTooLong (.encSym sym) s
  else .next (s.appendCode (codeAt s.codes sym))

/-- The last byte of a session: the pending bits at the top, zero bits below (R196). -/
def paddedByte (s : State) : Byte :=
  BitVec.ofNat 8 (s.encAcc.toNat <<< (8 - s.encNbits.toNat))

/-- The session is closed and its accumulator emptied (R196). -/
def State.closeEncoder (s : State) : State :=
  { s with encAcc := 0, encNbits := 0, encActive := false }

/-- ENC.FLUSH (R196). -/
def execEncFlush (s : State) : Host.Outcome State Fault Refusal :=
  if s.encActive = false then raiseError .notStarted .encFlush s
  else if s.encNbits = 0 then .next { s with encPad := 0 }.closeEncoder
  else if s.cfg.obufBytes < s.outPtr.toNat + 1 then raiseError .obufFull .encFlush s
  else if chunkMax < s.encBytes.toNat + 1 then raiseError .chunkTooLong .encFlush s
  else
    .next { emit s (paddedByte s) with
      encBytes := BitVec.ofNat 31 (s.encBytes.toNat + 1)
      encPad := BitVec.ofNat 3 (8 - s.encNbits.toNat) }.closeEncoder

end Sys2Proof.Machine
end

