-- ==== Sys2Proof/Machine/TreeBuilder.lean ====
section
/-! DEFINITION. BUILD: the two-queue merge of the sorted leaves into the node arena (41_tree_builder.md). -/

namespace Sys2Proof.Machine

/-- `w(i)` of an entry (R21). -/
def Node.weight : Node → Nat
  | .leaf _ w => w
  | .internal w _ _ => w

/-- `w(A[k])`. An index with no entry weighs 0; the merge never reads one (R157, log 12). -/
def weightAt (arena : List Node) (k : Nat) : Nat :=
  match arena[k]? with
  | some nd => nd.weight
  | none => 0

/-- The symbols with a nonzero frequency, ascending (R151). -/
def presentSymbols (c : Config) (freq : Table Word) : List Nat :=
  (List.range c.alphaSize).filter fun s => decide (0 < (freqAt freq s).toNat)

/-- Puts a symbol before the first symbol of the list whose key is not smaller. -/
def insertByKey (key : Nat → Nat) (s : Nat) : List Nat → List Nat
  | [] => [s]
  | t :: rest => if key s ≤ key t then s :: t :: rest else t :: insertByKey key s rest

/-- `stableSortBy`: ascending by key; equal keys keep their order (R151). -/
def stableSortBy (key : Nat → Nat) : List Nat → List Nat
  | [] => []
  | s :: rest => insertByKey key s (stableSortBy key rest)

/-- The leaf of a symbol (R151). -/
def leafOf (freq : Table Word) (s : Nat) : Node :=
  .leaf (BitVec.ofNat 8 s) (freqAt freq s).toNat

/-- The sorted leaves, at arena indices 0 … n−1 (R151). -/
def sortedLeaves (c : Config) (freq : Table Word) : List Node :=
  (stableSortBy (fun s => (freqAt freq s).toNat) (presentSymbols c freq)).map (leafOf freq)

/-- The merge's variables (R152): the arena so far (its length is `next`) and the fronts of the two queues. -/
structure MergeState where
  arena : List Node
  i     : Nat
  j     : Nat
  deriving DecidableEq, Repr

/-- `pick()` of R152: the leaf front when its queue is not empty and the internal queue is, or when it weighs no more
than the internal front (D11); else the internal front. -/
def pick (n : Nat) (m : MergeState) : Nat × MergeState :=
  if m.i < n ∧ (m.j = m.arena.length ∨ weightAt m.arena m.i ≤ weightAt m.arena m.j) then
    (m.i, { m with i := m.i + 1 })
  else
    (m.j, { m with j := m.j + 1 })

/-- One iteration of R152: two picks, and their parent with the first as left child and the second as right (D12). -/
def mergeOnce (n : Nat) (m : MergeState) : MergeState :=
  let a := (pick n m).1
  let m₁ := (pick n m).2
  let b := (pick n m₁).1
  let m₂ := (pick n m₁).2
  { m₂ with arena := m₂.arena ++ [.internal (weightAt m.arena a + weightAt m.arena b) a b] }

/-- `repeat k times` of R152. -/
def mergeTimes (n : Nat) : Nat → MergeState → MergeState
  | 0, m => m
  | k + 1, m => mergeTimes n k (mergeOnce n m)

/-- The arena BUILD makes from FREQ: a function of the FREQ values alone (R150 to R153). -/
def buildArena (c : Config) (freq : Table Word) : List Node :=
  let leaves := sortedLeaves c freq
  let n := leaves.length
  (mergeTimes n (n - 1) { arena := leaves, i := 0, j := n }).arena

/-- TREE_STATE for n leaves (R153). -/
def treeStateOf : Nat → TreeState
  | 0 => .empty
  | 1 => .single
  | _ + 2 => .multi

/-- ROOT for n leaves (R153). -/
def rootOf (n : Nat) : Nat := if 2 ≤ n then 2 * n - 2 else 0

/-- The state BUILD writes when its check passes (R153). NNODES is the arena's length (log 7). -/
def State.withTree (s : State) : State :=
  let n := (sortedLeaves s.cfg s.freq).length
  { s with
    arena := buildArena s.cfg s.freq
    nsym := BitVec.ofNat 9 n
    treeState := treeStateOf n
    root := BitVec.ofNat 9 (rootOf n)
    codesValid := false
    decCursor := BitVec.ofNat 9 (rootOf n) }

/-- BUILD (R150). -/
def execBuild (s : State) : Host.Outcome State Fault Refusal :=
  if s.encActive = true ∨ s.decActive = true then raiseError .sessionOpen .build s
  else .next s.withTree

end Sys2Proof.Machine
end

