-- ==== Sys2Proof/Machine/Dispatch.lean ====
section
/-! DEFINITION. `execute(d)` of R240: one arm per command. -/

namespace Sys2Proof.Machine

def exec (i : Instr) (s : State) : Host.Outcome State Fault Refusal :=
  match i with
  | .nop => Sys2Proof.Machine.execNop s
  | .clrerr => Sys2Proof.Machine.execClrerr s
  | .sreset => Sys2Proof.Machine.execSreset s
  | .fclr => Sys2Proof.Machine.execFclr s
  | .outClear => Sys2Proof.Machine.execOutClear s
  | .build => Sys2Proof.Machine.execBuild s
  | .extract => Sys2Proof.Machine.execExtract s
  | .encStart => Sys2Proof.Machine.execEncStart s
  | .encSym sym => Sys2Proof.Machine.execEncSym sym s
  | .encFlush => Sys2Proof.Machine.execEncFlush s
  | .decStart p => Sys2Proof.Machine.execDecStart p s
  | .decByte b => Sys2Proof.Machine.execDecByte b s

end Sys2Proof.Machine
end

