-- ==== Sys2Proof/Machine/Port.lean ====
section
/-! DEFINITION. The host port: the register map, reads, writes, the access errors, and the command gate (R33 to R36, R70 to R81, R240, R244). -/

namespace Sys2Proof.Machine

/-- The names of the register map (R33, R109). -/
inductive Reg where
  | id
  | config
  | cmd
  | arg
  | status
  | errInfo
  | nsym
  | nnodes
  | root
  | outPtr
  | encBytes
  | encPad
  | encAcc
  | decRemLo
  | decRemHi
  | decCursor
  | freq (s : Nat)
  | codeLen (s : Nat)
  | codeBits (s w : Nat)
  | node (i f : Nat)
  | obufWord (k : Nat)
  deriving DecidableEq, Repr

/-- The byte offset of a register (R33). -/
def Reg.offset : Reg → Nat
  | .id => 0x0000
  | .config => 0x0004
  | .cmd => 0x0008
  | .arg => 0x000C
  | .status => 0x0010
  | .errInfo => 0x0014
  | .nsym => 0x0018
  | .nnodes => 0x001C
  | .root => 0x0020
  | .outPtr => 0x0024
  | .encBytes => 0x0028
  | .encPad => 0x002C
  | .encAcc => 0x0030
  | .decRemLo => 0x0034
  | .decRemHi => 0x0038
  | .decCursor => 0x003C
  | .freq s => 0x0400 + 4 * s
  | .codeLen s => 0x0800 + 4 * s
  | .codeBits s w => 0x1000 + 32 * s + 4 * w
  | .node i f => 0x4000 + 16 * i + 4 * f
  | .obufWord k => 0x8000 + 4 * k

/-- The ranges of R33: which registers exist with these parameters. -/
def Reg.exists (c : Config) : Reg → Bool
  | .freq s => decide (s < c.alphaSize)
  | .codeLen s => decide (s < c.alphaSize)
  | .codeBits s w => decide (s < c.alphaSize ∧ w < 8)
  | .node i f => decide (i < 2 * c.alphaSize ∧ f < 4)
  | .obufWord k => decide (k < c.obufBytes / 4)
  | .id => true
  | .config => true
  | .cmd => true
  | .arg => true
  | .status => true
  | .errInfo => true
  | .nsym => true
  | .nnodes => true
  | .root => true
  | .outPtr => true
  | .encBytes => true
  | .encPad => true
  | .encAcc => true
  | .decRemLo => true
  | .decRemHi => true
  | .decCursor => true

/-- The scalar registers, in the order of their words (R33). -/
def scalarReg : Nat → Option Reg
  | 0 => some .id
  | 1 => some .config
  | 2 => some .cmd
  | 3 => some .arg
  | 4 => some .status
  | 5 => some .errInfo
  | 6 => some .nsym
  | 7 => some .nnodes
  | 8 => some .root
  | 9 => some .outPtr
  | 10 => some .encBytes
  | 11 => some .encPad
  | 12 => some .encAcc
  | 13 => some .decRemLo
  | 14 => some .decRemHi
  | 15 => some .decCursor
  | _ => none

/-- The register at a 4-aligned offset, or `none` where R33 says unmapped (R35). -/
def addressMap (c : Config) (off : Nat) : Option Reg :=
  if off < 0x0040 then scalarReg (off / 4)
  else if 0x0400 ≤ off ∧ off < 0x0400 + 4 * c.alphaSize then some (.freq ((off - 0x0400) / 4))
  else if 0x0800 ≤ off ∧ off < 0x0800 + 4 * c.alphaSize then some (.codeLen ((off - 0x0800) / 4))
  else if 0x1000 ≤ off ∧ off < 0x1000 + 32 * c.alphaSize then
    some (.codeBits ((off - 0x1000) / 32) ((off - 0x1000) % 32 / 4))
  else if 0x4000 ≤ off ∧ off < 0x4000 + 32 * c.alphaSize then
    some (.node ((off - 0x4000) / 16) ((off - 0x4000) % 16 / 4))
  else if 0x8000 ≤ off ∧ off < 0x8000 + c.obufBytes then some (.obufWord ((off - 0x8000) / 4))
  else none

/-- The offset in the window of a host address, with the window at HUFFCORE_BASE (R70). -/
def windowOffset (c : Config) (hostAddr : Nat) : Option (BitVec 16) :=
  if c.base ≤ hostAddr ∧ hostAddr < c.base + 0x10000 then some (BitVec.ofNat 16 (hostAddr - c.base)) else none

/-- ID (R37). -/
def idWord : Word := 0x48554646

/-- CONFIG: VERSION 0x01 in [31:24], OBUF_LOG2 in [11:8], ALPHA_LOG2 in [3:0] (R38). -/
def configWord (c : Config) : Word :=
  (0x01 : BitVec 8) ++ (0 : BitVec 12) ++ BitVec.ofNat 4 c.obufLog2 ++ (0 : BitVec 4) ++ BitVec.ofNat 4 c.alphaLog2

/-- The four words of a defined arena entry (R53). -/
def nodeWord (c : Config) (nd : Node) (f : Nat) : Word :=
  match f with
  | 0 => BitVec.ofNat 32 nd.weight
  | 1 => BitVec.ofNat 32 ((nd.weight >>> 32) % 2 ^ (c.weightW - 32))
  | 2 =>
    match nd with
    | .leaf sym _ => (0 : BitVec 16) ++ sym ++ (1 : BitVec 8)
    | .internal _ _ _ => 0
  | 3 =>
    match nd with
    | .leaf _ _ => 0
    | .internal _ left right => (0 : BitVec 7) ++ BitVec.ofNat 9 right ++ (0 : BitVec 7) ++ BitVec.ofNat 9 left
  | _ => 0

/-- NODE[i] word f: 0 at or beyond NNODES (R53). -/
def nodeWindow (s : State) (i f : Nat) : Word :=
  match s.arena[i]? with
  | some nd => nodeWord s.cfg nd f
  | none => 0

/-- CODE_LEN[s] (R61). -/
def codeLenWindow (s : State) (sym : Nat) : Word :=
  if s.codesValid = true then (codeAt s.codes sym).len.setWidth 32 else 0

/-- CODE_BITS[s] word w: CBITS[s][32w+31 : 32w] (R62). -/
def codeBitsWindow (s : State) (sym w : Nat) : Word :=
  if s.codesValid = true then (codeAt s.codes sym).bits.extractLsb' (32 * w) 32 else 0

/-- The word a read of a register returns (R34, R37 to R62, R76). -/
def readReg (s : State) : Reg → Word
  | .id => idWord
  | .config => configWord s.cfg
  | .cmd => 0
  | .arg => s.arg
  | .status => statusWord s
  | .errInfo => s.errInfo
  | .nsym => s.nsym.setWidth 32
  | .nnodes => (BitVec.ofNat 10 s.nnodes).setWidth 32
  | .root => s.root.setWidth 32
  | .outPtr => s.outPtr.setWidth 32
  | .encBytes => s.encBytes.setWidth 32
  | .encPad => s.encPad.setWidth 32
  | .encAcc => s.encAcc.setWidth 32
  | .decRemLo => s.decRem.extractLsb' 0 32
  | .decRemHi => (s.decRem.extractLsb' 32 2).setWidth 32
  | .decCursor => s.decCursor.setWidth 32
  | .freq k => freqAt s.freq k
  | .codeLen k => codeLenWindow s k
  | .codeBits k w => codeBitsWindow s k w
  | .node i f => nodeWindow s i f
  | .obufWord k => obufWord s k

/-- A well-formed access: a 4-aligned address and all four byte lanes (R71). -/
def Access.wellFormed (a : Access) : Bool :=
  decide (a.addr.toNat % 4 = 0 ∧ a.lanes = 0xF)

/-- A full-word read of offset `off`: `MemRead(off, 4)` (R71). -/
def memRead (off : BitVec 16) : Access := { addr := off, lanes := 0xF, kind := .read }

/-- A full-word write of `v` at offset `off`: `MemWrite(off, 4, v)` (R71). -/
def memWrite (off : BitVec 16) (v : Word) : Access := { addr := off, lanes := 0xF, kind := .write v }

/-- Is the access a write? -/
def Access.isWrite (a : Access) : Bool :=
  match a.kind with
  | .read => false
  | .write _ => true

/-- The commands the closed gate lets through (R240). -/
def passesClosedGate : Instr → Bool
  | .nop => true
  | .clrerr => true
  | .sreset => true
  | .fclr => false
  | .outClear => false
  | .build => false
  | .extract => false
  | .encStart => false
  | .encSym _ => false
  | .encFlush => false
  | .decStart _ => false
  | .decByte _ => false

/-- A full-word write of `w` to CMD (R240). -/
def runCommand (w : Word) (s : State) : Host.Outcome State Fault Refusal :=
  match decode w with
  | .command i =>
    if s.err = true ∧ passesClosedGate i = false then .next s else exec i s
  | .illegal _ =>
    if s.err = true then .next s else .next (s.recordError .illegalCmd w)

/-- The port's answer, kept for the host (R25, log 3). -/
def State.observe (s : State) (a : Access) (returned : Option Word) (error : Bool) : State :=
  { s with observed := s.observed ++ [{ access := a, returned := returned, error := error }] }

/-- An access error (R74, R244): a read returns 0, a write changes nothing, the response is an error response. -/
def refuseAccess (a : Access) (s : State) : State :=
  (s.recordBusError a.addr a.isWrite).observe a (if a.isWrite = true then none else some 0) true

/-- A write of `v` to an existing register: CMD runs a command, ARG and FREQ store, every other register is RO (R34,
R81). -/
def writeReg (a : Access) (r : Reg) (v : Word) (s : State) : Host.Outcome State Fault Refusal :=
  match r with
  | .cmd => andThen (runCommand v s) fun t => t.observe a none false
  | .arg => .next ({ s with arg := v }.observe a none false)
  | .freq k => .next ((s.writeFreq k v).observe a none false)
  | .id => .next (refuseAccess a s)
  | .config => .next (refuseAccess a s)
  | .status => .next (refuseAccess a s)
  | .errInfo => .next (refuseAccess a s)
  | .nsym => .next (refuseAccess a s)
  | .nnodes => .next (refuseAccess a s)
  | .root => .next (refuseAccess a s)
  | .outPtr => .next (refuseAccess a s)
  | .encBytes => .next (refuseAccess a s)
  | .encPad => .next (refuseAccess a s)
  | .encAcc => .next (refuseAccess a s)
  | .decRemLo => .next (refuseAccess a s)
  | .decRemHi => .next (refuseAccess a s)
  | .decCursor => .next (refuseAccess a s)
  | .codeLen _ => .next (refuseAccess a s)
  | .codeBits _ _ => .next (refuseAccess a s)
  | .node _ _ => .next (refuseAccess a s)
  | .obufWord _ => .next (refuseAccess a s)

/-- One access, with all its effects (R73, R74, R81). -/
def performAccess (a : Access) (s : State) : Host.Outcome State Fault Refusal :=
  if a.wellFormed = false then .next (refuseAccess a s)
  else
    match addressMap s.cfg a.addr.toNat with
    | none => .next (refuseAccess a s)
    | some r =>
      match a.kind with
      | .read => .next (s.observe a (some (readReg s r)) false)
      | .write v => writeReg a r v s

/-- One input: an access, or a pulse of the reset input (R270). -/
def performInput (x : PortInput) (s : State) : Host.Outcome State Fault Refusal :=
  match x with
  | .access a => performAccess a s
  | .hardReset => .next s.hardReset

/-- The write of a command word to CMD (R39, R100). -/
def commandAccess (w : Word) : Access := memWrite (BitVec.ofNat 16 Reg.cmd.offset) w

/-- The word of a table row of `nbits` bits, as the host writes it to CMD: the bits above `nbits` are zero, and a command
is one 32-bit word (R100). -/
def tableWord (nbits w : Nat) : Word := BitVec.ofNat 32 (w % 2 ^ nbits)

end Sys2Proof.Machine
end

