-- ==== Sys2Proof/Machine/Step.lean ====
section
/-! DEFINITION. One step: the oldest pending input is handled whole (R72, R73). -/

namespace Sys2Proof.Machine

/-- The port takes the oldest pending input and completes it before it looks at the next (R72, R73). With no input
nothing changes: the block acts only when it is accessed (R73, log 2). -/
def step (s : State) : Host.Outcome State Fault Refusal :=
  match s.pending with
  | [] => .next s
  | x :: rest => performInput x { s with pending := rest }

/-- `s` with the write of the command word `w` to CMD as the next input, before those already pending (log 2). -/
def State.withFetchWord (s : State) (nbits w : Nat) : State :=
  { s with pending := .access (commandAccess (tableWord nbits w)) :: s.pending }

end Sys2Proof.Machine
end

