-- ==== Sys2Proof/Machine/HostProgram.lean ====
section
/-! DEFINITION. The host notation of R108 to R112 as abstract syntax, its expansion to accesses, and the runs of R286. -/

namespace Sys2Proof.Machine

/-- What a line names: a register, or a numeric offset (R109). -/
inductive Place where
  | reg (r : Reg)
  | offset (off : BitVec 16)
  deriving DecidableEq, Repr

/-- A format-I immediate: a number, or a quoted character (R110). -/
inductive Immediate where
  | number (n : Nat)
  | quoted (ch : Char)
  deriving DecidableEq, Repr

/-- A line of a host program (R108) or a pseudo-instruction (R112). -/
inductive HostLine where
  | wr (dest : Place) (v : Word)
  | rd (src : Place)
  | rdExpect (src : Place) (v : Word)
  | command (mnemonic : String)
  | commandImm (mnemonic : String) (imm : Immediate)
  | freq (s : Nat) (v : Word)
  | freqs (pairs : List (Nat × Word))
  | encSeq (symbols : List Immediate)
  | decChunk (len : Word) (p : Immediate)
  | decSeq (bytes : List Immediate)
  | check
  deriving DecidableEq, Repr

/-- What a test expects of the value a read returns (R108, R112). -/
inductive Expect where
  | nothing
  | value (v : Word)
  /-- STATUS with ERR = 0 (CHECK of R112). -/
  | errClear
  deriving DecidableEq, Repr

/-- The offset a place stands for; a name outside its range names no register (R33, R109). -/
def Place.resolve (c : Config) : Place → Option (BitVec 16)
  | .reg r => if r.exists c = true then some (BitVec.ofNat 16 r.offset) else none
  | .offset off => some off

/-- The number an immediate stands for; a quoted character is allowed for ENC.SYM alone and stands for its ASCII
byte (R110). -/
def Immediate.resolve (mnemonic : String) : Immediate → Option Nat
  | .number n => if n < 256 then some n else none
  | .quoted ch => if mnemonic = "ENC.SYM" ∧ ch.toNat < 128 then some ch.toNat else none

/-- The format-N command of a mnemonic, case-sensitive and without operand (R111). -/
def commandN (mnemonic : String) : Option Instr :=
  [Instr.nop, .clrerr, .sreset, .fclr, .outClear, .build, .extract, .encStart, .encFlush].find?
    fun i => i.mnemonic == mnemonic

/-- The format-I command of a mnemonic with its operand (R108, R111). -/
def commandI (mnemonic : String) (n : Nat) : Option Instr :=
  [Instr.encSym n, .decStart n, .decByte (BitVec.ofNat 8 n)].find? fun i => i.mnemonic == mnemonic

/-- `WR CMD, <word>` (R108). -/
def commandLine (i : Instr) : Access × Expect := (commandAccess (encode i), .nothing)

/-- A format-I line (R108, R110). -/
def immediateLine (mnemonic : String) (imm : Immediate) : Option (Access × Expect) :=
  match imm.resolve mnemonic with
  | none => none
  | some n => (commandI mnemonic n).map commandLine

/-- `WR FREQ[s], v` (R112). -/
def freqLine (c : Config) (s : Nat) (v : Word) : Option (Access × Expect) :=
  ((Place.reg (.freq s)).resolve c).map fun off => (memWrite off v, .nothing)

/-- Every line assembles, or none does. -/
def allLines : List (Option (Access × Expect)) → Option (List (Access × Expect))
  | [] => some []
  | none :: _ => none
  | some x :: rest => (allLines rest).map (x :: ·)

/-- The accesses of a line, in order, with what a test expects of each; `none` when the line does not assemble (R108 to
R112). -/
def HostLine.expand (c : Config) : HostLine → Option (List (Access × Expect))
  | .wr dest v => (dest.resolve c).map fun off => [(memWrite off v, .nothing)]
  | .rd src => (src.resolve c).map fun off => [(memRead off, .nothing)]
  | .rdExpect src v => (src.resolve c).map fun off => [(memRead off, .value v)]
  | .command m => (commandN m).map fun i => [commandLine i]
  | .commandImm m imm => allLines [immediateLine m imm]
  | .freq s v => allLines [freqLine c s v]
  | .freqs pairs => allLines (pairs.map fun e => freqLine c e.1 e.2)
  | .encSeq symbols => allLines (symbols.map (immediateLine "ENC.SYM"))
  | .decChunk len p =>
    allLines [some (memWrite (BitVec.ofNat 16 Reg.arg.offset) len, .nothing), immediateLine "DEC.START" p]
  | .decSeq bytes => allLines (bytes.map (immediateLine "DEC.BYTE"))
  | .check => some [(memRead (BitVec.ofNat 16 Reg.status.offset), .errClear)]

/-- The accesses of a program (R286). -/
def assemble (c : Config) : List HostLine → Option (List (Access × Expect))
  | [] => some []
  | line :: rest =>
    match line.expand c, assemble c rest with
    | some xs, some ys => some (xs ++ ys)
    | some _, none => none
    | none, _ => none

/-- The accesses of a list, one after another (R84, R286). -/
def runAccesses : List Access → State → Host.Outcome State Fault Refusal
  | [], s => .next s
  | a :: rest, s =>
    match performAccess a s with
    | .next t => runAccesses rest t
    | .fault r => .fault r
    | .refused r => .refused r

/-- Commands executed one after another, each with the gate open (R240). -/
def execAll : List Instr → State → Host.Outcome State Fault Refusal
  | [], s => .next s
  | i :: rest, s =>
    match exec i s with
    | .next t => execAll rest t
    | .fault r => .fault r
    | .refused r => .refused r

/-- The values the reads of a run returned, in order (R286). -/
def readValues (obs : List Observation) : List Word := obs.filterMap Observation.returned

/-- The value a read returned is the one the test expects. -/
def Expect.holds (e : Expect) (returned : Option Word) : Bool :=
  match e with
  | .nothing => true
  | .value v => returned == some v
  | .errClear =>
    match returned with
    | some w => !w.getLsbD 31
    | none => false

end Sys2Proof.Machine
end

