-- ==== Sys2Proof/Machine/PersistedFile.lean ====
section
/-! DEFINITION. The persisted file's layout (R92, R93). The host writes and reads it; no rule of the block does (R8, log 15). -/

namespace Sys2Proof.Machine

/-- A chunk of the file, as its three fields stand there (R92). -/
structure ChunkRecord where
  byteLength : Word
  padding    : Byte
  packed     : List Byte
  deriving DecidableEq, Repr

/-- What R92 asks of a chunk: `packed` has chunk_byte_length bytes, which are at most CHUNK_MAX (R12), and the padding is
0 to 7. -/
def ChunkRecord.wellFormed (r : ChunkRecord) : Bool :=
  decide (r.packed.length = r.byteLength.toNat ∧ r.byteLength.toNat ≤ chunkMax ∧ r.padding.toNat ≤ 7)

/-- A persisted file: the header's frequency table and the chunks (R92). -/
structure PersistedFile where
  freq   : Table Word
  chunks : List ChunkRecord
  deriving DecidableEq, Repr

/-- Every chunk is well formed, and the int32 chunk_count can count them. -/
def PersistedFile.wellFormed (f : PersistedFile) : Bool :=
  f.chunks.all ChunkRecord.wellFormed && decide (f.chunks.length < 2 ^ 32)

/-- An int32 in the order of the producing machine (R93). -/
def int32Bytes (o : ByteOrder) (w : Word) : List Byte :=
  let bytes := (List.range 4).map fun j => w.extractLsb' (8 * j) 8
  match o with
  | .littleEndian => bytes
  | .bigEndian => bytes.reverse

/-- The int32 that four bytes of the file stand for (R93, R94). -/
def int32OfBytes (o : ByteOrder) (bytes : List Byte) : Word :=
  let ordered :=
    match o with
    | .littleEndian => bytes.reverse
    | .bigEndian => bytes
  BitVec.ofNat 32 (ordered.foldl (fun acc b => acc * 256 + b.toNat) 0)

/-- `int32 chunk_byte_length`, `byte padding_bits`, `byte[chunk_byte_length] packed_bits` (R92). -/
def ChunkRecord.bytes (o : ByteOrder) (r : ChunkRecord) : List Byte :=
  int32Bytes o r.byteLength ++ r.padding :: r.packed

/-- The file: `int32 chunk_count`, `int32[ALPHA] frequency_table` in symbol order, then the chunks (R92). -/
def PersistedFile.bytes (c : Config) (f : PersistedFile) : List Byte :=
  int32Bytes c.fileOrder (BitVec.ofNat 32 f.chunks.length)
    ++ ((List.range c.alphaSize).map fun s => int32Bytes c.fileOrder (freqAt f.freq s)).flatten
    ++ (f.chunks.map (ChunkRecord.bytes c.fileOrder)).flatten

/-- The first n bytes and the rest; `none` where there are fewer. -/
def splitBytes (n : Nat) (bytes : List Byte) : Option (List Byte × List Byte) :=
  if n ≤ bytes.length then some (bytes.take n, bytes.drop n) else none

/-- Reads one chunk: the length, the padding byte, then as many bytes as the length says. `none` where the file ends
before, the length is above CHUNK_MAX or the padding above 7 (R92, R12). -/
def readChunk (o : ByteOrder) (bytes : List Byte) : Option (ChunkRecord × List Byte) :=
  match splitBytes 4 bytes with
  | some (len, padding :: rest) =>
    match splitBytes (int32OfBytes o len).toNat rest with
    | some (packed, rest') =>
      let r : ChunkRecord := { byteLength := int32OfBytes o len, padding := padding, packed := packed }
      if r.wellFormed = true then some (r, rest') else none
    | none => none
  | some (_, []) => none
  | none => none

/-- Reads chunk_count chunks, one after another (R92). -/
def readChunks (o : ByteOrder) : Nat → List Byte → Option (List ChunkRecord × List Byte)
  | 0, bytes => some ([], bytes)
  | k + 1, bytes =>
    match readChunk o bytes with
    | none => none
    | some (r, rest) =>
      match readChunks o k rest with
      | none => none
      | some (rs, rest') => some (r :: rs, rest')

/-- The frequency table of the header, entry by entry in symbol order: the values the host writes into FREQ (R92, R94). -/
def readFreq (c : Config) (bytes : List Byte) : Table Word :=
  (List.range c.alphaSize).foldl
    (fun t x => Table.write 0 t x (int32OfBytes c.fileOrder ((bytes.drop (4 * x)).take 4))) []

/-- Reads a file back: chunk_count, the frequency table, then that many chunks and nothing after them (R92, R94). -/
def readFile (c : Config) (bytes : List Byte) : Option PersistedFile :=
  match splitBytes 4 bytes with
  | none => none
  | some (count, rest) =>
    match splitBytes (4 * c.alphaSize) rest with
    | none => none
    | some (table, rest') =>
      match readChunks c.fileOrder (int32OfBytes c.fileOrder count).toNat rest' with
      | some (chunks, []) => some { freq := readFreq c table, chunks := chunks }
      | some (_, _ :: _) => none
      | none => none

/-- The record of the chunk whose session ENC.FLUSH just closed, with the bytes the host drained (R91, R92). -/
def State.chunkRecord (s : State) (packed : List Byte) : ChunkRecord :=
  { byteLength := s.encBytes.setWidth 32, padding := s.encPad.setWidth 8, packed := packed }

end Sys2Proof.Machine
end

