-- ==== Sys2Proof/Safety.lean ====
section
/-! DEFINITION. The terms claims use: the launch premises (R285), the invariants (R64) and the end of a run (R286). -/

namespace Sys2Proof.Machine

/-- `Clean(σ)` (R285). -/
structure Clean (s : State) : Prop where
  noError      : s.errCode = .none
  encClosed    : s.encActive = false
  decClosed    : s.decActive = false
  nothingInOut : s.outPtr = 0

/-- `AfterReset(σ)`: the state of R65 for its parameters, every OBUF byte free; the host's side is its own (R285). -/
def AfterReset (s : State) : Prop :=
  s = { State.resetWith s.cfg s.obufDraw with pending := s.pending, observed := s.observed }

/-- `AfterSReset(σ, ob)`: as AfterReset, but every byte of OBUF, written or not, has its previous contents `ob` (R273,
R285). -/
def AfterSReset (s : State) (ob : Nat → Byte) : Prop :=
  s = { State.resetWith s.cfg s.obufDraw with obuf := s.obuf, pending := s.pending, observed := s.observed } ∧
  ∀ k, k < s.cfg.obufBytes → obufByte s k = ob k

/-- The run that led to `s` ended in error (R286). -/
def EndedInError (s : State) : Prop := s.err = true

/-- The children of the internal nodes, in arena order, left before right. -/
def childrenOf : List Node → List Nat
  | [] => []
  | .leaf _ _ :: rest => childrenOf rest
  | .internal _ left right :: rest => left :: right :: childrenOf rest

/-- The entry at the end of the path `p` from entry `i`: 0 goes left, 1 goes right (R21). -/
def descend (arena : List Node) : Nat → BitString → Option Nat
  | i, [] => some i
  | i, bit :: p =>
    match childAt arena i bit with
    | none => none
    | some k => descend arena k p

/-- The path `p` from entry `i` ends at the leaf of symbol `sym` (R21, R171). -/
def IsLeafPath (arena : List Node) (i : Nat) (p : BitString) (sym : Byte) : Prop :=
  ∃ k w, descend arena i p = some k ∧ arena[k]? = some (.leaf sym w)

/-- The bits of a sequence of symbols' codes (R191). -/
def codeBitsOf (t : Table Code) (syms : List Nat) : BitString :=
  (syms.map fun x => (codeAt t x).bitString).flatten

/-- The word that a full-word read of offset `off` returns without an error response; `none` where it is an access error
(R33, R71, R74). -/
def readAt (s : State) (off : Nat) : Option Word :=
  if off % 4 = 0 then (addressMap s.cfg off).map (readReg s) else none

/-- The loop of R213 after `t` of its iterations, as the rule writes it: the node `c` and the symbols `out`, with bit
`b[7 − t]` read in iteration `t`. `none` once a 1 bit has been read under a single-symbol tree (R214), or where the arena
has no entry to go to. -/
def decLoop (s : State) (b : Byte) : Nat → Option (Nat × List Byte)
  | 0 => some (s.decCursor.toNat, [])
  | t + 1 =>
    match decLoop s b t with
    | none => none
    | some (c, out) =>
      if s.treeState = .single then
        match b.getLsbD (7 - t), s.arena[(0 : Nat)]? with
        | false, some (.leaf sym _) => some (c, out ++ [sym])
        | _, _ => none
      else
        match s.arena[c]? with
        | some (.internal _ left right) =>
          match s.arena[if b.getLsbD (7 - t) = true then right else left]? with
          | some (.leaf sym _) => some (s.root.toNat, out ++ [sym])
          | some (.internal _ _ _) => some (if b.getLsbD (7 - t) = true then right else left, out)
          | none => none
        | _ => none

/-- The nodes not yet merged when the arena holds `made`: those that are no child of an internal node (R152, R157). -/
def unmergedIn (made : List Node) : List Nat :=
  (List.range made.length).filter fun x => decide (x ∉ childrenOf made)

/-- `a` has the smallest pair (weight, arena index) of the nodes in `l` (R158). -/
def IsLeastIn (arena : List Node) (l : List Nat) (a : Nat) : Prop :=
  a ∈ l ∧ ∀ x ∈ l, weightAt arena a < weightAt arena x ∨ (weightAt arena a = weightAt arena x ∧ a ≤ x)

/-- A strict binary tree with symbols at its leaves (R159, R13). -/
inductive BinTree where
  | leaf (sym : Nat)
  | node (left right : BinTree)
  deriving DecidableEq, Repr

/-- The symbols at the leaves, left to right. -/
def BinTree.symbols : BinTree → List Nat
  | .leaf sym => [sym]
  | .node left right => left.symbols ++ right.symbols

/-- Σ f(sym) × depth over the leaves of a tree whose root is at depth `d` (R159). -/
def BinTree.costFrom (f : Nat → Nat) : BinTree → Nat → Nat
  | .leaf sym, d => f sym * d
  | .node left right, d => left.costFrom f (d + 1) + right.costFrom f (d + 1)

/-- The errors a command can record, in the order of its checks (R246). -/
def errorsOf : Instr → List ErrCode
  | .nop        => []
  | .clrerr     => []
  | .sreset     => []
  | .fclr       => []
  | .outClear   => []
  | .build      => [.sessionOpen]
  | .extract    => [.noTree, .sessionOpen]
  | .encStart   => [.noCodes, .sessionOpen]
  | .encSym _   => [.notStarted, .symAbsent, .obufFull, .chunkTooLong]
  | .encFlush   => [.notStarted, .obufFull, .chunkTooLong]
  | .decStart _ => [.noTree, .sessionOpen, .badLength, .badPadding, .treeEmpty]
  | .decByte _  => [.notStarted, .decBadBit, .decIncomplete, .obufFull]

/-- A symbol ENC.SYM accepts, with an entry as EXTRACT writes it (R60, R193). -/
def HasCode (s : State) (x : Nat) : Prop :=
  x < s.cfg.alphaSize ∧ (codeAt s.codes x).len ≠ 0 ∧ (codeAt s.codes x).bits.toNat < 2 ^ (codeAt s.codes x).len.toNat

/-- The shape BUILD gives an arena with n leaves (R52, R151, R152, D10): leaves first, then internal nodes over older
entries, each entry but the root the child of exactly one internal node, and every weight within WEIGHT_W bits. -/
structure TreeWf (c : Config) (n : Nat) (arena : List Node) : Prop where
  size      : arena.length = 2 * n - 1
  fits      : n ≤ c.alphaSize
  leaves    : ∀ k, k < n → ∃ sym w, arena[k]? = some (.leaf sym w) ∧ sym.toNat < c.alphaSize ∧ 0 < w ∧ w < 2 ^ 32
  internals : ∀ k, n ≤ k → k < arena.length →
    ∃ l r, arena[k]? = some (.internal (weightAt arena l + weightAt arena r) l r) ∧ l < k ∧ r < k
  symbols   : ∀ (k k' : Nat) (sym : Byte) (w w' : Nat), arena[k]? = some (.leaf sym w) → arena[k']? = some (.leaf sym w') → k = k'
  owned     : (childrenOf arena).Perm (List.range (arena.length - 1))
  weights   : ∀ nd ∈ arena, nd.weight < 2 ^ c.weightW

/-- The code table holds only entries of symbols, each with its pattern below 2 ^ length and a possible length (R14, R60). -/
structure CodesWf (c : Config) (t : Table Code) : Prop where
  canonical : Table.wf noCode t
  entries   : ∀ e ∈ t, e.1 < c.alphaSize ∧ 0 < e.2.len.toNat ∧ e.2.len.toNat ≤ c.maxCodeLen
    ∧ e.2.bits.toNat < 2 ^ e.2.len.toNat

/-- What holds after every access (R64), with the canonical forms of the stored files. -/
structure Inv (s : State) : Prop where
  /-- R64(b); ENC_NBITS ≤ 7 holds by its width. -/
  accumulator  : s.encAcc.toNat < 2 ^ s.encNbits.toNat
  /-- R64(c). -/
  encNeedsCodes : s.encActive = true → s.codesValid = true
  /-- R64(d). -/
  decRemaining : s.decActive = true ↔ 0 < s.decRem.toNat
  /-- R64(e). -/
  decNeedsTree : s.decActive = true → s.treeState = .single ∨ s.treeState = .multi
  /-- R64(f). -/
  outFits      : s.outPtr.toNat ≤ s.cfg.obufBytes
  /-- R64(g), MULTI: the cursor is an internal node; the root is one too. -/
  cursorMulti  : s.treeState = .multi → ∃ w l r, s.arena[s.decCursor.toNat]? = some (.internal w l r)
  /-- R64(g), otherwise: DEC_CURSOR = ROOT = 0. -/
  cursorOther  : s.treeState ≠ .multi → s.decCursor = 0 ∧ s.root = 0
  /-- R64(h) and R50, R42: NSYM tells TREE_STATE. -/
  treeKind     : (s.treeState = .none → s.nsym = 0) ∧ (s.treeState ≠ .none → s.treeState = treeStateOf s.nsym.toNat)
  /-- R51: the root of a MULTI tree. -/
  rootMulti    : s.treeState = .multi → s.root.toNat = 2 * s.nsym.toNat - 2
  /-- R52, and NNODES of R64(h). -/
  tree         : TreeWf s.cfg s.nsym.toNat s.arena
  /-- R49: ERRINFO is 0 when ERRCODE = 0. -/
  errorRecord  : s.errCode = .none → s.errInfo = 0
  /-- R43: the code table holds the codes of the current tree. -/
  codesCurrent : s.codesValid = true →
    s.treeState ≠ .none ∧ treeCodes s.treeState s.arena s.root.toNat = some s.codes
  /-- R60. -/
  codes        : CodesWf s.cfg s.codes
  /-- R59: the FREQ file is in canonical form and has ALPHA entries. -/
  freq         : Table.wf 0 s.freq ∧ ∀ e ∈ s.freq, e.1 < s.cfg.alphaSize
  /-- R63: OBUF is in canonical form, and nothing is written at or beyond OBUF_BYTES. -/
  obuf         : Memory.wf s.obuf ∧ ∀ e ∈ s.obuf, e.1 < s.cfg.obufBytes

end Sys2Proof.Machine
end

