-- ==== Sys2Proof/Certificates/Slice0/Obligations.lean ====
section
/-! DEFINITION. The statements for the provers, from the spec's numbered rules. -/

open Sys2Proof Sys2Proof.Machine

/-! ### The command word -/

/-- R100, R101, R103: the decoder reads every command and every operand back from its word. -/
def Obligations.DecodeInvertsEncode : Prop :=
  ∀ i : Instr, i.wellFormed = true →
    decode (encode i) = .command i ∧ decodeTableWord 32 (encode i).toNat = some i

/-- R102, R103: a command has one word; no other word decodes to it. -/
def Obligations.LegalWordIsItsEncoding : Prop :=
  ∀ (w : Word) (i : Instr), decode w = .command i → i.wellFormed = true ∧ encode i = w

/-- R104: the decoder accepts a word exactly when it spells the command of a row, and no two rows overlap. -/
def Obligations.DecoderFollowsOpcodeTable : Prop :=
  (∀ (w : Word) (i : Instr), decode w = .command i → ∃ r ∈ opcodeTable, r.mnemonic = i.mnemonic ∧ r.spells w = true) ∧
  (∀ (w : Word), ∀ r ∈ opcodeTable, r.spells w = true → ∃ i, decode w = .command i ∧ i.mnemonic = r.mnemonic) ∧
  opcodeTable.Pairwise (fun r r' => ∀ w : Word, ¬ (r.spells w = true ∧ r'.spells w = true))

/-- R102: decoding is total, checks the opcode, then RSV, then IMM8 of format N, and gives the command of the opcode with
its operand. The fields are read as numbers here. -/
def Obligations.DecodingIsTotal : Prop :=
  ∀ w : Word,
    let opc := w.toNat / 2 ^ 24
    let rsv := w.toNat / 2 ^ 8 % 2 ^ 16
    let imm := w.toNat % 2 ^ 8
    let formatN := [0x00, 0x01, 0x02, 0x03, 0x04, 0x10, 0x11, 0x20, 0x22]
    let formatI := [0x21, 0x30, 0x31]
    if opc ∉ formatN ++ formatI then decode w = .illegal .reservedOpcode
    else if rsv ≠ 0 then decode w = .illegal .reservedBits
    else if opc ∈ formatN ∧ imm ≠ 0 then decode w = .illegal .operandInFormatN
    else ∃ i, decode w = .command i ∧ i.opcode.toNat = opc ∧ i.immediate.toNat = imm

/-- R113. -/
def Obligations.WorkedEncodingsDecode : Prop :=
  decode 0x10000000 = .command .build ∧
  decode 0x21000061 = .command (.encSym 0x61) ∧
  decode 0x30000004 = .command (.decStart 4) ∧
  decode 0x310000E0 = .command (.decByte 0xE0) ∧
  decode 0x10000001 = .illegal .operandInFormatN ∧
  decode 0x21000161 = .illegal .reservedBits ∧
  decode 0x40000000 = .illegal .reservedOpcode

/-! ### Steps, accesses and the gate -/

/-- R73, R240: when the next input is a full-word write to CMD (offset 0x0008, all lanes) of a word that decodes to `i`,
and the gate lets `i` through, the step is `exec i` with that input taken off, and the port's answer is kept. -/
def Obligations.StepRunsDecodedCommand : Prop :=
  ∀ (s : State) (rest : List PortInput) (w : Word) (i : Instr),
    s.pending = .access { addr := 0x0008, lanes := 0xF, kind := .write w } :: rest →
    decode w = .command i →
    (s.errCode = .none ∨ i = .nop ∨ i = .clrerr ∨ i = .sreset) →
    step s = andThen (exec i { s with pending := rest }) fun t =>
      { t with observed := t.observed ++
          [{ access := { addr := 0x0008, lanes := 0xF, kind := .write w }, returned := none, error := false }] }

/-- R240: the gate, on every word. -/
def Obligations.CommandGate : Prop :=
  ∀ (s : State) (w : Word),
    (∀ i, decode w = .command i → s.errCode = .none → runCommand w s = exec i s) ∧
    (∀ i, decode w = .command i → (i = .nop ∨ i = .clrerr ∨ i = .sreset) → runCommand w s = exec i s) ∧
    (∀ i, decode w = .command i → s.errCode ≠ .none → i ≠ .nop → i ≠ .clrerr → i ≠ .sreset →
      runCommand w s = .next s) ∧
    (∀ why, decode w = .illegal why → s.errCode = .none →
      runCommand w s = .next { s with errCode := .illegalCmd, errInfo := w }) ∧
    (∀ why, decode w = .illegal why → s.errCode ≠ .none → runCommand w s = .next s) ∧
    performAccess { addr := 0x0008, lanes := 0xF, kind := .write w } s
      = andThen (runCommand w s) fun t =>
          { t with observed := t.observed ++
              [{ access := { addr := 0x0008, lanes := 0xF, kind := .write w }, returned := none, error := false }] }

/-- R36: a read of a mapped register or window changes no state of the block and returns the register's word without an
error; the same read again returns the same value. (That never-written OBUF bytes repeat too is V1, log 4.) -/
def Obligations.ReadsChangeNothing : Prop :=
  ∀ (s : State) (rest : List PortInput) (off : BitVec 16) (v : Word),
    s.pending = .access { addr := off, lanes := 0xF, kind := .read } :: rest →
    readAt s off.toNat = some v →
    ∃ t, step s = .next t ∧
      t = { s with pending := rest, observed := s.observed ++
              [{ access := { addr := off, lanes := 0xF, kind := .read }, returned := some v, error := false }] } ∧
      ∀ k, readAt t k = readAt s k

/-- R74, R244: a misaligned or partial access, an access to an unmapped offset and a write to a register other than CMD,
ARG and FREQ are errors: the response is an error, a read returns 0, the record takes BUS_ACCESS and the descriptor unless
it holds an error, and nothing else changes. A read of CMD returns 0 and is no error. -/
def Obligations.AccessErrorsAreRecorded : Prop :=
  (∀ (s : State) (a : Access),
    (a.addr.toNat % 4 ≠ 0 ∨ a.lanes ≠ 0xF ∨ addressMap s.cfg a.addr.toNat = none ∨
      ((∃ v, a.kind = .write v) ∧ ∃ r, addressMap s.cfg a.addr.toNat = some r ∧ r ≠ .cmd ∧ r ≠ .arg ∧ ∀ k, r ≠ .freq k)) →
    performAccess a s = .next
      { s with
        errCode := if s.errCode = .none then .busAccess else s.errCode
        errInfo := if s.errCode = .none then
            BitVec.ofNat 32 (a.addr.toNat + if a.kind = .read then 0 else 2 ^ 16) else s.errInfo
        observed := s.observed ++
          [{ access := a, returned := if a.kind = .read then some 0 else none, error := true }] }) ∧
  ∀ s : State, performAccess { addr := 0x0008, lanes := 0xF, kind := .read } s = .next
    { s with observed := s.observed ++
        [{ access := { addr := 0x0008, lanes := 0xF, kind := .read }, returned := some 0, error := false }] }

/-- R40, R59, R81: a write to ARG or to FREQ[k] stores the word, whatever the error record holds, and changes nothing
else. -/
def Obligations.ArgAndFreqWritesStore : Prop :=
  (∀ (s : State) (v : Word),
    performAccess { addr := 0x000C, lanes := 0xF, kind := .write v } s = .next
      { s with arg := v, observed := s.observed ++
          [{ access := { addr := 0x000C, lanes := 0xF, kind := .write v }, returned := none, error := false }] }) ∧
  ∀ (s : State) (k : Nat) (v : Word), Table.wf 0 s.freq → k < s.cfg.alphaSize →
    ∃ t, performAccess { addr := BitVec.ofNat 16 (0x0400 + 4 * k), lanes := 0xF, kind := .write v } s = .next t ∧
      t = { s with freq := t.freq, observed := s.observed ++
              [{ access := { addr := BitVec.ofNat 16 (0x0400 + 4 * k), lanes := 0xF, kind := .write v },
                 returned := none, error := false }] } ∧
      freqAt t.freq k = v ∧ ∀ j, j ≠ k → freqAt t.freq j = freqAt s.freq j

/-- R31, R33: each register lives at exactly one 4-aligned offset of the 16-bit space. -/
def Obligations.RegisterMapIsOneToOne : Prop :=
  ∀ c : Config,
    (∀ r : Reg, r.exists c = true → r.offset < 2 ^ 16 ∧ r.offset % 4 = 0 ∧ addressMap c r.offset = some r) ∧
    ∀ (off : Nat) (r : Reg), off % 4 = 0 → addressMap c off = some r → r.exists c = true ∧ r.offset = off

/-- R33, R35: the unmapped offsets are the gaps of the table, and an access to one returns 0 or changes nothing, with an
error response; BUS_ACCESS and the access descriptor (R244) are recorded if no error is, and else the record stays. -/
def Obligations.UnmappedAccessesAreRefused : Prop :=
  ∀ (s : State) (off : BitVec 16) (v : Word), off.toNat % 4 = 0 →
    (addressMap s.cfg off.toNat = none ↔
      (0x0040 ≤ off.toNat ∧ off.toNat ≤ 0x03FC) ∨
      (0x0400 + 4 * s.cfg.alphaSize ≤ off.toNat ∧ off.toNat ≤ 0x07FC) ∨
      (0x0800 + 4 * s.cfg.alphaSize ≤ off.toNat ∧ off.toNat ≤ 0x0FFC) ∨
      (0x1000 + 32 * s.cfg.alphaSize ≤ off.toNat ∧ off.toNat ≤ 0x3FFC) ∨
      (0x4000 + 32 * s.cfg.alphaSize ≤ off.toNat ∧ off.toNat ≤ 0x7FFC) ∨
      (0x8000 + s.cfg.obufBytes ≤ off.toNat ∧ off.toNat ≤ 0xFFFC)) ∧
    (addressMap s.cfg off.toNat = none → ∀ kind, kind = .read ∨ kind = .write v →
      ∃ t, performAccess { addr := off, lanes := 0xF, kind := kind } s = .next t ∧
        t = { s with errCode := t.errCode, errInfo := t.errInfo, observed := s.observed ++
                [{ access := { addr := off, lanes := 0xF, kind := kind },
                   returned := if kind = .read then some 0 else none, error := true }] } ∧
        t.errCode = (if s.errCode = .none then .busAccess else s.errCode) ∧
        t.errInfo = (if s.errCode = .none then
          BitVec.ofNat 32 (off.toNat + if kind = .read then 0 else 2 ^ 16) else s.errInfo))

/-- R70: an offset stands for the host address HUFFCORE_BASE + offset. That a host address is an unbounded natural number,
so that the window does not wrap, is log 17's choice. -/
def Obligations.WindowStartsAtTheBase : Prop :=
  ∀ (c : Config) (hostAddr : Nat) (off : BitVec 16),
    windowOffset c hostAddr = some off ↔ hostAddr = c.base + off.toNat

/-! ### What reads return -/

/-- R37, R38. -/
def Obligations.IdentityRegistersRead : Prop :=
  ∀ s : State,
    readAt s 0x0000 = some 0x48554646 ∧
    (∃ w, readAt s 0x0004 = some w ∧ w.toNat = s.cfg.alphaLog2 + 2 ^ 8 * s.cfg.obufLog2 + 2 ^ 24 * 0x01) ∧
    (s.cfg.alphaLog2 = 7 ∨ s.cfg.alphaLog2 = 8) ∧ 6 ≤ s.cfg.obufLog2 ∧ s.cfg.obufLog2 ≤ 15 ∧
    (s.cfg.alphaSize = 256 → s.cfg.obufBytes = 4096 → readAt s 0x0004 = some 0x01000C08)

/-- R41, with the values of TREE_STATE (R42) and ERRCODE (R243) and the two bits that are views (R46, R48). -/
def Obligations.StatusReadsItsFields : Prop :=
  (∀ s : State, ∃ w, readAt s 0x0010 = some w ∧
    w.toNat = s.treeState.code.toNat + 2 ^ 2 * s.codesValid.toNat + 2 ^ 3 * s.encActive.toNat + 2 ^ 4 * s.decActive.toNat
      + 2 ^ 5 * (if s.decCursor = s.root then 1 else 0) + 2 ^ 8 * s.encNbits.toNat + 2 ^ 16 * s.errCode.code.toNat
      + 2 ^ 31 * (if s.errCode = .none then 0 else 1)) ∧
  [TreeState.none, .empty, .single, .multi].map (fun x => x.code.toNat) = [0, 1, 2, 3] ∧
  [ErrCode.none, .illegalCmd, .noTree, .noCodes, .sessionOpen, .notStarted, .symAbsent, .obufFull, .chunkTooLong,
    .badLength, .badPadding, .treeEmpty, .decBadBit, .decIncomplete, .busAccess].map (fun x => x.code.toNat)
    = [0, 1, 2, 3, 4, 5, 6, 7, 8, 9, 10, 11, 12, 13, 14]

/-- R40, R49 to R51, R54 to R59: the scalar registers and FREQ read their fields, the bits above a field read 0, and DEC_REM
reads in two words. NNODES fits its ten bits in every state that meets R52. -/
def Obligations.ScalarRegistersRead : Prop :=
  ∀ s : State,
    readAt s 0x000C = some s.arg ∧ readAt s 0x0014 = some s.errInfo ∧
    readAt s 0x0018 = some (BitVec.ofNat 32 s.nsym.toNat) ∧
    (s.arena.length < 2 ^ 10 → readAt s 0x001C = some (BitVec.ofNat 32 s.arena.length)) ∧
    readAt s 0x0020 = some (BitVec.ofNat 32 s.root.toNat) ∧
    readAt s 0x0024 = some (BitVec.ofNat 32 s.outPtr.toNat) ∧
    readAt s 0x0028 = some (BitVec.ofNat 32 s.encBytes.toNat) ∧
    readAt s 0x002C = some (BitVec.ofNat 32 s.encPad.toNat) ∧
    readAt s 0x0030 = some (BitVec.ofNat 32 s.encAcc.toNat) ∧
    (∃ lo hi, readAt s 0x0034 = some lo ∧ readAt s 0x0038 = some hi ∧ hi.toNat < 4 ∧
      s.decRem.toNat = lo.toNat + 2 ^ 32 * hi.toNat) ∧
    readAt s 0x003C = some (BitVec.ofNat 32 s.decCursor.toNat) ∧
    ∀ k, k < s.cfg.alphaSize → readAt s (0x0400 + 4 * k) = some (freqAt s.freq k)

/-- R53: the four words of NODE[i]; 0 at or beyond NNODES. The hypotheses are the widths of R52. -/
def Obligations.NodeWindowReadsTheArena : Prop :=
  ∀ (s : State) (i : Nat), i < 2 * s.cfg.alphaSize →
    (∀ sym w, s.arena[i]? = some (.leaf sym w) → w < 2 ^ s.cfg.weightW →
      readAt s (0x4000 + 16 * i) = some (BitVec.ofNat 32 (w % 2 ^ 32)) ∧
      readAt s (0x4000 + 16 * i + 4) = some (BitVec.ofNat 32 (w / 2 ^ 32)) ∧
      readAt s (0x4000 + 16 * i + 8) = some (BitVec.ofNat 32 (1 + 2 ^ 8 * sym.toNat)) ∧
      readAt s (0x4000 + 16 * i + 12) = some 0) ∧
    (∀ w left right, s.arena[i]? = some (.internal w left right) → w < 2 ^ s.cfg.weightW → left < 2 ^ 9 → right < 2 ^ 9 →
      readAt s (0x4000 + 16 * i) = some (BitVec.ofNat 32 (w % 2 ^ 32)) ∧
      readAt s (0x4000 + 16 * i + 4) = some (BitVec.ofNat 32 (w / 2 ^ 32)) ∧
      readAt s (0x4000 + 16 * i + 8) = some 0 ∧
      readAt s (0x4000 + 16 * i + 12) = some (BitVec.ofNat 32 (left + 2 ^ 16 * right))) ∧
    (s.arena.length ≤ i → ∀ f, f < 4 → readAt s (0x4000 + 16 * i + 4 * f) = some 0)

/-- R61, R62: CODE_LEN and CODE_BITS, hidden while CODES_VALID = 0; the first bit of a code of length L is bit
(L − 1) mod 32 of word (L − 1) div 32, and its last bit is bit 0 of word 0. -/
def Obligations.CodeWindowsReadTheTable : Prop :=
  ∀ (s : State) (x : Nat), x < s.cfg.alphaSize →
    (s.codesValid = true →
      readAt s (0x0800 + 4 * x) = some (BitVec.ofNat 32 (codeAt s.codes x).len.toNat) ∧
      (∀ w, w < 8 → readAt s (0x1000 + 32 * x + 4 * w) =
        some (BitVec.ofNat 32 ((codeAt s.codes x).bits.toNat / 2 ^ (32 * w) % 2 ^ 32))) ∧
      (∀ L, (codeAt s.codes x).len.toNat = L → 0 < L → L ≤ 256 →
        ∃ first last, readAt s (0x1000 + 32 * x + 4 * ((L - 1) / 32)) = some first ∧
          readAt s (0x1000 + 32 * x) = some last ∧
          (codeAt s.codes x).bitString[(0 : Nat)]? = some (first.getLsbD ((L - 1) % 32)) ∧
          (codeAt s.codes x).bitString[L - 1]? = some (last.getLsbD 0))) ∧
    (s.codesValid = false →
      readAt s (0x0800 + 4 * x) = some 0 ∧ ∀ w, w < 8 → readAt s (0x1000 + 32 * x + 4 * w) = some 0)

/-- R76: the OBUF window is little-endian. -/
def Obligations.ObufWindowIsLittleEndian : Prop :=
  ∀ (s : State) (k : Nat), 4 * k < s.cfg.obufBytes →
    ∃ w, readAt s (0x8000 + 4 * k) = some w ∧
      w.toNat = (obufByte s (4 * k)).toNat + 2 ^ 8 * (obufByte s (4 * k + 1)).toNat
        + 2 ^ 16 * (obufByte s (4 * k + 2)).toNat + 2 ^ 24 * (obufByte s (4 * k + 3)).toNat

/-! ### Reset -/

/-- R65: every register and STATUS field at reset, for all parameters; the arena has no entry and the code windows read 0.
Nothing is said of the OBUF bytes, which R65 leaves free. SRESET leaves OBUF as it is. -/
def Obligations.ResetValues : Prop :=
  (∀ (c : Config) (draw : Nat) (s : State), s = State.resetWith c draw →
    readAt s 0x0010 = some 0x00000020 ∧ s.errCode = .none ∧ s.treeState = .none ∧ s.codesValid = false ∧
    s.encActive = false ∧ s.decActive = false ∧ s.decAtRoot = true ∧ s.encNbits = 0 ∧
    s.arg = 0 ∧ s.errInfo = 0 ∧ s.nsym = 0 ∧ s.arena = [] ∧ s.root = 0 ∧ s.outPtr = 0 ∧ s.encBytes = 0 ∧ s.encPad = 0 ∧
    s.encAcc = 0 ∧ s.decRem = 0 ∧ s.decCursor = 0 ∧
    (∀ k, k < c.alphaSize → readAt s (0x0400 + 4 * k) = some 0 ∧ readAt s (0x0800 + 4 * k) = some 0 ∧
      ∀ w, w < 8 → readAt s (0x1000 + 32 * k + 4 * w) = some 0) ∧
    (∀ i f, i < 2 * c.alphaSize → f < 4 → readAt s (0x4000 + 16 * i + 4 * f) = some 0)) ∧
  ∀ s : State, ∃ t, exec .sreset s = .next t ∧ ∀ k, obufByte t k = obufByte s k

/-- R270, R285: a pulse of the reset input gives the state of R65, which is clean. That a pulse is an input of the step, and
that it draws the OBUF bytes anew, is log 10's choice; that the hidden code table is emptied (a part of AfterReset) is
log 6's. -/
def Obligations.HardResetGivesTheResetState : Prop :=
  ∀ (s : State) (rest : List PortInput), s.pending = .hardReset :: rest →
    ∃ t, step s = .next t ∧ AfterReset t ∧ Clean t ∧ t.cfg = s.cfg ∧ t.pending = rest ∧ t.observed = s.observed

/-- R132, R273, R285: SRESET, open gate or closed, gives the state of a hardware reset with the old OBUF bytes. That it
keeps the parameters, the waiting inputs, the answers and the draw number, fields of the model's own, is log 19's reading;
that the hidden code table is emptied (a part of AfterSReset) is log 6's choice. -/
def Obligations.SoftResetKeepsObuf : Prop :=
  decode 0x02000000 = .command .sreset ∧
  ∀ s : State, ∃ t, exec .sreset s = .next t ∧ runCommand 0x02000000 s = .next t ∧
    (∀ k, k < s.cfg.alphaSize → freqAt t.freq k = 0) ∧ t.arg = 0 ∧ t.arena = [] ∧ t.root = 0 ∧ t.nsym = 0 ∧
    t.treeState = .none ∧ t.codesValid = false ∧ t.encActive = false ∧ t.decActive = false ∧ t.encAcc = 0 ∧
    t.encNbits = 0 ∧ t.encBytes = 0 ∧ t.encPad = 0 ∧ t.decRem = 0 ∧ t.decCursor = 0 ∧ t.outPtr = 0 ∧
    t.errCode = .none ∧ t.errInfo = 0 ∧ readAt t 0x0010 = some 0x00000020 ∧
    (∀ k, obufByte t k = obufByte s k) ∧ t.obuf = s.obuf ∧ t.obufDraw = s.obufDraw ∧
    readAt t 0x0000 = readAt s 0x0000 ∧ readAt t 0x0004 = readAt s 0x0004 ∧
    t.cfg = s.cfg ∧ t.pending = s.pending ∧ t.observed = s.observed ∧ AfterSReset t (obufByte s) ∧ Clean t

/-! ### Control and frequency file -/

/-- R130, R131: NOP changes nothing; CLRERR empties the error record and changes nothing else. The gate lets both through,
and no other word with OPC 0x00 is a command. -/
def Obligations.NopAndClrerr : Prop :=
  decode 0x00000000 = .command .nop ∧ decode 0x01000000 = .command .clrerr ∧
  (∀ w : Word, w.toNat / 2 ^ 24 = 0 → w ≠ 0 → ∃ why, decode w = .illegal why) ∧
  ∀ s : State,
    exec .nop s = .next s ∧ runCommand 0x00000000 s = .next s ∧
    exec .clrerr s = .next { s with errCode := .none, errInfo := 0 } ∧
    runCommand 0x01000000 s = .next { s with errCode := .none, errInfo := 0 } ∧
    (s.errCode = .none → s.errInfo = 0 → exec .clrerr s = .next s)

/-- R133: FCLR empties FREQ and changes nothing else; a BUILD right after it gives an EMPTY tree; with ERR = 1 it is
dropped. -/
def Obligations.FclrEmptiesFreq : Prop :=
  decode 0x03000000 = .command .fclr ∧
  ∀ s : State,
    (∃ t, exec .fclr s = .next t ∧ t = { s with freq := t.freq } ∧ (∀ k, freqAt t.freq k = 0) ∧
      (s.errCode = .none → runCommand 0x03000000 s = .next t) ∧
      (s.encActive = false → s.decActive = false →
        ∃ u, exec .build t = .next u ∧ u.treeState = .empty ∧ u.arena = [])) ∧
    (s.errCode ≠ .none → runCommand 0x03000000 s = .next s)

/-- R134: OUT.CLEAR sets OUT_PTR to 0 and changes nothing else: the OBUF bytes and both sessions stay. With ERR = 1 it is
dropped. -/
def Obligations.OutClearEmptiesTheBuffer : Prop :=
  decode 0x04000000 = .command .outClear ∧
  ∀ s : State,
    exec .outClear s = .next { s with outPtr := 0 } ∧
    (∀ k, obufByte { s with outPtr := 0 } k = obufByte s k) ∧
    (s.errCode = .none → runCommand 0x04000000 s = .next { s with outPtr := 0 }) ∧
    (s.errCode ≠ .none → runCommand 0x04000000 s = .next s)

/-! ### BUILD -/

/-- R153: what BUILD writes, with n the number of present symbols, and that it writes nothing else. -/
def Obligations.BuildWritesTheTree : Prop :=
  (∀ s : State, s.encActive = false → s.decActive = false →
    ∃ t n, exec .build s = .next t ∧
      n = ((List.range s.cfg.alphaSize).filter fun x => decide (freqAt s.freq x ≠ 0)).length ∧
      t = { s with arena := t.arena, nsym := t.nsym, treeState := t.treeState, root := t.root, codesValid := false,
                   decCursor := t.root } ∧
      t.arena = buildArena s.cfg s.freq ∧
      t.arena.length = (if n = 0 then 0 else 2 * n - 1) ∧ t.nsym.toNat = n ∧
      t.treeState = (if n = 0 then .empty else if n = 1 then .single else .multi) ∧
      t.root.toNat = (if 2 ≤ n then 2 * n - 2 else 0) ∧ t.decAtRoot = true) ∧
  (∀ s : State, s.encActive = true ∨ s.decActive = true →
    exec .build s = .next { s with errCode := .sessionOpen, errInfo := 0x10000000 }) ∧
  ∀ s : State, s.cfg = Config.examples → s.freq = [(0x61, 3), (0x62, 1)] → s.encActive = false → s.decActive = false →
    exec .build s = .next { s with
      arena := [.leaf 0x62 1, .leaf 0x61 3, .internal 4 0 1], nsym := 2, treeState := .multi, root := 2,
      codesValid := false, decCursor := 2 }

/-- R151: the leaves come first, one for each symbol with a nonzero frequency, ascending by (FREQ, symbol). -/
def Obligations.BuildSortsTheLeaves : Prop :=
  ∀ s : State, s.encActive = false → s.decActive = false →
    ∃ t, exec .build s = .next t ∧
      (∀ k, k < t.nsym.toNat → ∃ sym, t.arena[k]? = some (.leaf sym (freqAt s.freq sym.toNat).toNat) ∧
        sym.toNat < s.cfg.alphaSize ∧ 0 < (freqAt s.freq sym.toNat).toNat) ∧
      (∀ (k k' : Nat) (sym sym' : Byte) (w w' : Nat), k < k' → t.arena[k]? = some (.leaf sym w) →
        t.arena[k']? = some (.leaf sym' w') → w < w' ∨ (w = w' ∧ sym.toNat < sym'.toNat)) ∧
      (∀ x, x < s.cfg.alphaSize → 0 < (freqAt s.freq x).toNat →
        ∃ k, k < t.nsym.toNat ∧ t.arena[k]? = some (.leaf (BitVec.ofNat 8 x) (freqAt s.freq x).toNat)) ∧
      ∀ k sym w, t.arena[k]? = some (.leaf sym w) → k < t.nsym.toNat

/-- R157, R158: every internal node k is made when 2n − k ≥ 2 nodes are unmerged; its left child has the smallest pair
(weight, arena index) of them and its right child the smallest of the rest. Internal weights do not fall in order of
creation. At the end one node is unmerged, the root 2n − 2. -/
def Obligations.BuildMergesTheTwoLightest : Prop :=
  ∀ s : State, s.encActive = false → s.decActive = false →
    ∃ t, exec .build s = .next t ∧
      (∀ k, t.nsym.toNat ≤ k → k < t.arena.length →
        ∃ left right,
          t.arena[k]? = some (.internal (weightAt t.arena left + weightAt t.arena right) left right) ∧
          IsLeastIn t.arena (unmergedIn (t.arena.take k)) left ∧
          IsLeastIn t.arena ((unmergedIn (t.arena.take k)).filter fun x => decide (x ≠ left)) right ∧
          (unmergedIn (t.arena.take k)).length = 2 * t.nsym.toNat - k ∧ 2 ≤ 2 * t.nsym.toNat - k) ∧
      (∀ k k', t.nsym.toNat ≤ k → k ≤ k' → k' < t.arena.length → weightAt t.arena k ≤ weightAt t.arena k') ∧
      (2 ≤ t.nsym.toNat → unmergedIn t.arena = [2 * t.nsym.toNat - 2])

/-- R52, R156: BUILD makes a tree. Children are older than their parent, every entry but the root is the child of exactly
one internal node, no symbol has two leaves, every weight fits WEIGHT_W bits, and the root weighs Σ FREQ. -/
def Obligations.BuildMakesATree : Prop :=
  ∀ s : State, s.encActive = false → s.decActive = false →
    ∃ t, exec .build s = .next t ∧ TreeWf s.cfg t.nsym.toNat t.arena ∧
      (0 < t.nsym.toNat →
        weightAt t.arena t.root.toNat = ((List.range s.cfg.alphaSize).map fun x => (freqAt s.freq x).toNat).sum)

/-- R150: the check of BUILD, that no FREQ contents make it fail, and that its result is a function of the FREQ values
alone. -/
def Obligations.BuildDependsOnFreqAlone : Prop :=
  decode 0x10000000 = .command .build ∧
  (∀ s : State, s.encActive = true ∨ s.decActive = true →
    exec .build s = .next { s with errCode := .sessionOpen, errInfo := 0x10000000 }) ∧
  ∀ s u : State, s.cfg = u.cfg → s.encActive = false → s.decActive = false → u.encActive = false → u.decActive = false →
    (∀ x, x < s.cfg.alphaSize → freqAt s.freq x = freqAt u.freq x) →
    ∃ t v, exec .build s = .next t ∧ exec .build u = .next v ∧ t.errCode = s.errCode ∧ v.errCode = u.errCode ∧
      t.arena = v.arena ∧ t.nnodes = v.nnodes ∧ t.nsym = v.nsym ∧ t.root = v.root ∧ t.treeState = v.treeState

/-! ### EXTRACT -/

/-- R170: the checks of EXTRACT in their order, and that it writes the code table and CODES_VALID alone. -/
def Obligations.ExtractChecksAndWrites : Prop :=
  decode 0x11000000 = .command .extract ∧
  (∀ s : State, s.treeState = .none → exec .extract s = .next { s with errCode := .noTree, errInfo := 0x11000000 }) ∧
  (∀ s : State, s.treeState ≠ .none → s.encActive = true →
    exec .extract s = .next { s with errCode := .sessionOpen, errInfo := 0x11000000 }) ∧
  ∀ s : State, Inv s → s.treeState ≠ .none → s.encActive = false →
    ∃ t, exec .extract s = .next t ∧ t = { s with codes := t.codes, codesValid := true } ∧ exec .extract t = .next t

/-- R172: the code table of a one-leaf tree and of an empty tree. -/
def Obligations.ExtractOnDegenerateTrees : Prop :=
  ∀ s : State, Inv s → s.encActive = false →
    (s.treeState = .single →
      ∃ t sym w, exec .extract s = .next t ∧ s.arena[(0 : Nat)]? = some (.leaf sym w) ∧ t.codesValid = true ∧
        codeAt t.codes sym.toNat = { len := 1, bits := 0 } ∧
        ∀ x, x ≠ sym.toNat → codeAt t.codes x = { len := 0, bits := 0 }) ∧
    (s.treeState = .empty →
      ∃ t, exec .extract s = .next t ∧ t.codesValid = true ∧ ∀ x, codeAt t.codes x = { len := 0, bits := 0 })

/-- R171: under a tree of two or more leaves the code of a leaf's symbol is the leaf's path, length and bits exact, and
every other symbol has length 0 and pattern 0. -/
def Obligations.ExtractAssignsPaths : Prop :=
  ∀ s : State, Inv s → s.treeState = .multi → s.encActive = false →
    ∃ t, exec .extract s = .next t ∧
      (∀ p sym, IsLeafPath s.arena s.root.toNat p sym →
        (codeAt t.codes sym.toNat).len.toNat = p.length ∧ (codeAt t.codes sym.toNat).bits.toNat = valOf p ∧
        (codeAt t.codes sym.toNat).bitString = p) ∧
      ∀ x, (∀ p sym, IsLeafPath s.arena s.root.toNat p sym → sym.toNat ≠ x) →
        codeAt t.codes x = { len := 0, bits := 0 }

/-- R173: after BUILD and EXTRACT a symbol has a code exactly when its frequency was not 0, of 1 to ALPHA − 1 bits. -/
def Obligations.CodesCoverPresentSymbols : Prop :=
  ∀ s : State, s.encActive = false → s.decActive = false →
    ∃ t, execAll [.build, .extract] s = .next t ∧
      ∀ x, x < s.cfg.alphaSize →
        (0 < (freqAt s.freq x).toNat →
          1 ≤ (codeAt t.codes x).len.toNat ∧ (codeAt t.codes x).len.toNat ≤ s.cfg.alphaSize - 1) ∧
        (freqAt s.freq x = 0 → codeAt t.codes x = { len := 0, bits := 0 })

/-- R159: after BUILD and EXTRACT, Σ FREQ × CLEN is no larger than Σ FREQ × depth of any strict binary tree whose leaves
are the present symbols. With one present symbol the code has one bit and the path none (R172), so at least two are asked
for here. The spec gives the optimality as a property to test, from general knowledge. -/
def Obligations.BuildIsOptimal : Prop :=
  ∀ s : State, s.encActive = false → s.decActive = false →
    ∃ t, execAll [.build, .extract] s = .next t ∧
      (2 ≤ t.nsym.toNat →
        ∀ τ : BinTree, τ.symbols.Perm ((List.range s.cfg.alphaSize).filter fun x => decide (freqAt s.freq x ≠ 0)) →
          ((List.range s.cfg.alphaSize).map fun x => (freqAt s.freq x).toNat * (codeAt t.codes x).len.toNat).sum
            ≤ τ.costFrom (fun x => (freqAt s.freq x).toNat) 0)

/-- R174: no code is a prefix of another symbol's code. -/
def Obligations.CodesArePrefixFree : Prop :=
  ∀ s : State, Inv s → s.codesValid = true →
    ∀ x y, x ≠ y → 0 < (codeAt s.codes x).len.toNat → 0 < (codeAt s.codes y).len.toNat →
      ¬ ((codeAt s.codes x).bitString <+: (codeAt s.codes y).bitString)

/-! ### The encoder -/

/-- R190: the checks of ENC.START in their order, and the fresh session it opens. -/
def Obligations.EncStartOpensASession : Prop :=
  decode 0x20000000 = .command .encStart ∧
  (∀ s : State, s.codesValid = false →
    exec .encStart s = .next { s with errCode := .noCodes, errInfo := 0x20000000 }) ∧
  (∀ s : State, s.codesValid = true → s.encActive = true →
    exec .encStart s = .next { s with errCode := .sessionOpen, errInfo := 0x20000000 }) ∧
  ∀ s : State, s.codesValid = true → s.encActive = false →
    exec .encStart s = .next { s with encAcc := 0, encNbits := 0, encBytes := 0, encPad := 0, encActive := true }

/-- R193: the checks of ENC.SYM in their order, and what it emits and writes; every OBUF byte outside the k emitted ones
keeps its value. -/
def Obligations.EncSymAppendsTheCode : Prop :=
  ∀ (s : State) (x L V T X k : Nat), x < 256 →
    L = (codeAt s.codes x).len.toNat → V = (codeAt s.codes x).bits.toNat →
    T = s.encNbits.toNat + L → X = s.encAcc.toNat * 2 ^ L + V → k = T / 8 →
    decode (0x21000000 ||| BitVec.ofNat 32 x) = .command (.encSym x) ∧
    (s.encActive = false →
      exec (.encSym x) s = .next { s with errCode := .notStarted, errInfo := 0x21000000 ||| BitVec.ofNat 32 x }) ∧
    (s.encActive = true → (s.cfg.alphaSize ≤ x ∨ L = 0) →
      exec (.encSym x) s = .next { s with errCode := .symAbsent, errInfo := 0x21000000 ||| BitVec.ofNat 32 x }) ∧
    (s.encActive = true → x < s.cfg.alphaSize → L ≠ 0 → s.cfg.obufBytes < s.outPtr.toNat + k →
      exec (.encSym x) s = .next { s with errCode := .obufFull, errInfo := 0x21000000 ||| BitVec.ofNat 32 x }) ∧
    (s.encActive = true → x < s.cfg.alphaSize → L ≠ 0 → s.outPtr.toNat + k ≤ s.cfg.obufBytes →
      0x7FFFFFFF < s.encBytes.toNat + k →
      exec (.encSym x) s = .next { s with errCode := .chunkTooLong, errInfo := 0x21000000 ||| BitVec.ofNat 32 x }) ∧
    (s.encActive = true → x < s.cfg.alphaSize → L ≠ 0 → s.outPtr.toNat + k ≤ s.cfg.obufBytes →
      s.encBytes.toNat + k ≤ 0x7FFFFFFF →
      ∃ t, exec (.encSym x) s = .next t ∧
        t = { s with obuf := t.obuf, outPtr := t.outPtr, encBytes := t.encBytes, encNbits := t.encNbits,
                     encAcc := t.encAcc } ∧
        (∀ q, q < k → (obufByte t (s.outPtr.toNat + q)).toNat = X / 2 ^ (T - 8 * (q + 1)) % 2 ^ 8) ∧
        (∀ j, j < s.outPtr.toNat ∨ s.outPtr.toNat + k ≤ j → obufByte t j = obufByte s j) ∧
        t.outPtr.toNat = s.outPtr.toNat + k ∧ t.encBytes.toNat = s.encBytes.toNat + k ∧
        t.encNbits.toNat = T % 8 ∧ t.encAcc.toNat = X % 2 ^ (T % 8))

/-- R196: the checks of ENC.FLUSH in their order, the padded last byte, and the closed session. -/
def Obligations.EncFlushClosesTheSession : Prop :=
  decode 0x22000000 = .command .encFlush ∧
  ∀ s : State,
    (s.encActive = false → exec .encFlush s = .next { s with errCode := .notStarted, errInfo := 0x22000000 }) ∧
    (s.encActive = true → s.encNbits = 0 →
      exec .encFlush s = .next { s with encPad := 0, encAcc := 0, encNbits := 0, encActive := false }) ∧
    (s.encActive = true → s.encNbits ≠ 0 → s.cfg.obufBytes < s.outPtr.toNat + 1 →
      exec .encFlush s = .next { s with errCode := .obufFull, errInfo := 0x22000000 }) ∧
    (s.encActive = true → s.encNbits ≠ 0 → s.outPtr.toNat + 1 ≤ s.cfg.obufBytes → 0x7FFFFFFF < s.encBytes.toNat + 1 →
      exec .encFlush s = .next { s with errCode := .chunkTooLong, errInfo := 0x22000000 }) ∧
    (s.encActive = true → s.encNbits ≠ 0 → s.outPtr.toNat + 1 ≤ s.cfg.obufBytes → s.encBytes.toNat + 1 ≤ 0x7FFFFFFF →
      ∃ t, exec .encFlush s = .next t ∧
        t = { s with obuf := t.obuf, outPtr := t.outPtr, encBytes := t.encBytes, encPad := t.encPad,
                     encAcc := 0, encNbits := 0, encActive := false } ∧
        (obufByte t s.outPtr.toNat).toNat = s.encAcc.toNat * 2 ^ (8 - s.encNbits.toNat) % 2 ^ 8 ∧
        (∀ j, j ≠ s.outPtr.toNat → obufByte t j = obufByte s j) ∧
        t.outPtr.toNat = s.outPtr.toNat + 1 ∧ t.encBytes.toNat = s.encBytes.toNat + 1 ∧
        t.encPad.toNat = 8 - s.encNbits.toNat)

/-- R191: a whole session. With B the concatenated codes and T = |B|, it emits ⌈T/8⌉ bytes, byte q being bits 8q … 8q+7
of B with 0 beyond T, and leaves ENC_BYTES and ENC_PAD as the contract says. -/
def Obligations.EncodingSessionPacksTheCodes : Prop :=
  ∀ (s : State) (syms : List Nat) (B : BitString) (T N : Nat),
    s.codesValid = true → s.encActive = false → (∀ x ∈ syms, HasCode s x) →
    B = codeBitsOf s.codes syms → T = B.length → N = (T + 7) / 8 →
    s.outPtr.toNat + N ≤ s.cfg.obufBytes →
    ∃ t, execAll (.encStart :: (syms.map .encSym ++ [.encFlush])) s = .next t ∧
      t = { s with obuf := t.obuf, outPtr := t.outPtr, encBytes := t.encBytes, encPad := t.encPad,
                   encAcc := 0, encNbits := 0, encActive := false } ∧
      (∀ q, q < N → (obufByte t (s.outPtr.toNat + q)).toNat =
        valOf ((List.range 8).map fun i => (B[8 * q + i]?).getD false)) ∧
      (∀ j, j < s.outPtr.toNat ∨ s.outPtr.toNat + N ≤ j → obufByte t j = obufByte s j) ∧
      t.outPtr.toNat = s.outPtr.toNat + N ∧ t.encBytes.toNat = N ∧ t.encPad.toNat = (8 - T % 8) % 8

/-! ### The decoder -/

/-- R211: the checks of DEC.START in their order, and the session it opens. -/
def Obligations.DecStartOpensASession : Prop :=
  ∀ (s : State) (p : Nat), p < 256 →
    decode (0x30000000 ||| BitVec.ofNat 32 p) = .command (.decStart p) ∧
    (s.treeState = .none →
      exec (.decStart p) s = .next { s with errCode := .noTree, errInfo := 0x30000000 ||| BitVec.ofNat 32 p }) ∧
    (s.treeState ≠ .none → s.decActive = true →
      exec (.decStart p) s = .next { s with errCode := .sessionOpen, errInfo := 0x30000000 ||| BitVec.ofNat 32 p }) ∧
    (s.treeState ≠ .none → s.decActive = false → 2 ^ 31 ≤ s.arg.toNat →
      exec (.decStart p) s = .next { s with errCode := .badLength, errInfo := 0x30000000 ||| BitVec.ofNat 32 p }) ∧
    (s.treeState ≠ .none → s.decActive = false → s.arg.toNat < 2 ^ 31 → (7 < p ∨ (s.arg = 0 ∧ p ≠ 0)) →
      exec (.decStart p) s = .next { s with errCode := .badPadding, errInfo := 0x30000000 ||| BitVec.ofNat 32 p }) ∧
    (s.treeState = .empty → s.decActive = false → s.arg.toNat < 2 ^ 31 → p ≤ 7 → s.arg ≠ 0 →
      exec (.decStart p) s = .next { s with errCode := .treeEmpty, errInfo := 0x30000000 ||| BitVec.ofNat 32 p }) ∧
    (s.treeState ≠ .none → s.decActive = false → s.arg.toNat < 2 ^ 31 → p ≤ 7 → (s.arg = 0 → p = 0) →
      (s.treeState = .empty → s.arg = 0) →
      ∃ t, exec (.decStart p) s = .next t ∧
        t = { s with decRem := t.decRem, decCursor := s.root, decActive := t.decActive } ∧
        t.decRem.toNat = s.arg.toNat * 8 - p ∧ t.decActive = decide (0 < s.arg.toNat * 8 - p) ∧ t.decAtRoot = true)

/-- R213: the checks of DEC.BYTE in their order, and what it emits and writes, with the loop as the rule writes it
(`decLoop`); every OBUF byte outside the emitted ones keeps its value. -/
def Obligations.DecByteReadsTheUsefulBits : Prop :=
  ∀ (s : State) (b : Byte) (u : Nat), Inv s → u = min 8 s.decRem.toNat →
    decode (0x31000000 ||| b.setWidth 32) = .command (.decByte b) ∧
    (s.decActive = false →
      exec (.decByte b) s = .next { s with errCode := .notStarted, errInfo := 0x31000000 ||| b.setWidth 32 }) ∧
    (s.decActive = true → decLoop s b u = none →
      s.treeState = .single ∧
      exec (.decByte b) s = .next { s with errCode := .decBadBit, errInfo := 0x31000000 ||| b.setWidth 32 }) ∧
    (∀ c out, s.decActive = true → decLoop s b u = some (c, out) →
      (s.decRem.toNat - u = 0 → c ≠ s.root.toNat →
        exec (.decByte b) s = .next { s with errCode := .decIncomplete, errInfo := 0x31000000 ||| b.setWidth 32 }) ∧
      ((s.decRem.toNat - u = 0 → c = s.root.toNat) → s.cfg.obufBytes < s.outPtr.toNat + out.length →
        exec (.decByte b) s = .next { s with errCode := .obufFull, errInfo := 0x31000000 ||| b.setWidth 32 }) ∧
      ((s.decRem.toNat - u = 0 → c = s.root.toNat) → s.outPtr.toNat + out.length ≤ s.cfg.obufBytes →
        ∃ t, exec (.decByte b) s = .next t ∧
          t = { s with obuf := t.obuf, outPtr := t.outPtr, decCursor := t.decCursor, decRem := t.decRem,
                       decActive := t.decActive } ∧
          (∀ q, q < out.length → some (obufByte t (s.outPtr.toNat + q)) = out[q]?) ∧
          (∀ j, j < s.outPtr.toNat ∨ s.outPtr.toNat + out.length ≤ j → obufByte t j = obufByte s j) ∧
          t.outPtr.toNat = s.outPtr.toNat + out.length ∧ t.decCursor.toNat = c ∧
          t.decRem.toNat = s.decRem.toNat - u ∧ t.decActive = decide (0 < s.decRem.toNat - u)))

/-- R214: under a single-symbol tree every useful 0 bit gives the sole symbol and a useful 1 bit is an error. -/
def Obligations.DecoderReadsSingleSymbolTrees : Prop :=
  ∀ (s : State) (b : Byte) (u : Nat), Inv s → s.treeState = .single → s.decActive = true → u = min 8 s.decRem.toNat →
    ((∃ i, i < u ∧ b.getLsbD (7 - i) = true) →
      exec (.decByte b) s = .next { s with errCode := .decBadBit, errInfo := 0x31000000 ||| b.setWidth 32 }) ∧
    ((∀ i, i < u → b.getLsbD (7 - i) = false) → s.outPtr.toNat + u ≤ s.cfg.obufBytes →
      ∃ t sym w, exec (.decByte b) s = .next t ∧ s.arena[(0 : Nat)]? = some (.leaf sym w) ∧
        t.outPtr.toNat = s.outPtr.toNat + u ∧ t.decRem.toNat = s.decRem.toNat - u ∧
        ∀ q, q < u → obufByte t (s.outPtr.toNat + q) = sym)

/-- R215: the padding bits of a byte are not looked at: two bytes that agree on the useful bits have the same effect, but
for the command word in ERRINFO. -/
def Obligations.PaddingBitsAreIgnored : Prop :=
  ∀ (s : State) (b b' : Byte), Inv s →
    (∀ i, i < min 8 s.decRem.toNat → b.getLsbD (7 - i) = b'.getLsbD (7 - i)) →
    ∃ t t', exec (.decByte b) s = .next t ∧ exec (.decByte b') s = .next t' ∧ t' = { t with errInfo := t'.errInfo }

/-- R218: decoding what a session encoded, on any instance with the same tree and room in OBUF, gives back the symbols, and
ends closed, at the root and without an error of its own. -/
def Obligations.DecodingInvertsEncoding : Prop :=
  ∀ (s t u : State) (syms : List Nat) (ys : List Byte),
    Inv s → s.encActive = false → s.codesValid = true → (∀ x ∈ syms, HasCode s x) →
    s.outPtr.toNat + ((codeBitsOf s.codes syms).length + 7) / 8 ≤ s.cfg.obufBytes →
    execAll (.encStart :: (syms.map .encSym ++ [.encFlush])) s = .next t →
    ys = (List.range t.encBytes.toNat).map (fun q => obufByte t (s.outPtr.toNat + q)) →
    u.treeState = s.treeState → u.arena = s.arena → u.root = s.root → u.decActive = false →
    u.arg = BitVec.ofNat 32 t.encBytes.toNat → u.outPtr.toNat + syms.length ≤ u.cfg.obufBytes →
    ∃ v, execAll (.decStart t.encPad.toNat :: ys.map .decByte) u = .next v ∧
      v = { u with obuf := v.obuf, outPtr := v.outPtr, decRem := 0, decCursor := u.root, decActive := false } ∧
      v.outPtr.toNat = u.outPtr.toNat + syms.length ∧
      (∀ q x, syms[q]? = some x → (obufByte v (u.outPtr.toNat + q)).toNat = x) ∧
      ∀ j, j < u.outPtr.toNat ∨ u.outPtr.toNat + syms.length ≤ j → obufByte v j = obufByte u j

/-! ### Errors -/

/-- R241: a command that records an error changes nothing else, and records its own word; so does an illegal word. The gate
is open when a command runs its checks. -/
def Obligations.ErrorsAreAllOrNothing : Prop :=
  ∀ (s t : State) (w : Word), runCommand w s = .next t → t.errCode ≠ .none →
    t = (if s.errCode = .none then { s with errCode := t.errCode, errInfo := w } else s)

/-- R243, R246: the errors each command can record, and no others. -/
def Obligations.CommandsRaiseOnlyTheirErrors : Prop :=
  ∀ (i : Instr) (s t : State), exec i s = .next t → s.errCode = .none → t.errCode ≠ .none →
    t.errCode ∈ errorsOf i

/-- R279, R131: after a failed command CLRERR gives back the very state before it. ERRINFO is 0 while no error is recorded
(R49). -/
def Obligations.FailedCommandCanBeRetried : Prop :=
  ∀ (s t : State) (w : Word), s.errCode = .none → s.errInfo = 0 → runCommand w s = .next t → t.errCode ≠ .none →
    runCommand 0x01000000 t = .next s

/-- R240, R244, R249: while an error is recorded, an access other than CLRERR and SRESET leaves the record, and everything
but ARG, FREQ and the port's answers, as it is. -/
def Obligations.FirstErrorIsKept : Prop :=
  ∀ (s t : State) (a : Access), s.errCode ≠ .none → performAccess a s = .next t →
    ¬ (a.addr = 0x0008 ∧ a.lanes = 0xF ∧ (a.kind = .write 0x01000000 ∨ a.kind = .write 0x02000000)) →
    t = { s with arg := t.arg, freq := t.freq, observed := t.observed }

/-! ### The whole machine -/

/-- The reset state meets the invariants, for all parameters and every power-on draw. -/
def Obligations.ResetMeetsTheInvariant : Prop :=
  (∀ (c : Config) (draw : Nat), Inv (State.resetWith c draw)) ∧ Inv State.reset

/-- R64: every step keeps the invariants (a) to (h), the shape of the arena (R52), the meaning of CODES_VALID (R43), ERRINFO
= 0 while no error is recorded (R49), and the canonical forms of FREQ, the code table and OBUF. -/
def Obligations.StepKeepsTheInvariant : Prop :=
  ∀ s t : State, Inv s → step s = .next t → Inv t

/-- R283: every access is always enabled and completes. In a state that meets the invariants no step ends in a fault or a
refusal, whatever the input. -/
def Obligations.EveryStepCompletes : Prop :=
  ∀ s : State, Inv s → ∃ t, step s = .next t

/-- R25, R30, R73: a step writes no parameter, takes one input and no more, and adds at most one answer. With no input
nothing changes; that a step with no input is taken at all is log 2's choice. -/
def Obligations.StepTakesOneInput : Prop :=
  (∀ s : State, s.pending = [] → step s = .next s) ∧
  ∀ s t : State, step s = .next t →
    t.cfg = s.cfg ∧ t.pending = s.pending.tail ∧
    (∀ (a : Access) (rest : List PortInput), s.pending = .access a :: rest →
      ∃ o : Observation, t.observed = s.observed ++ [o] ∧ o.access = a ∧
        (a.kind = .read → o.returned ≠ none) ∧ (a.kind ≠ .read → o.returned = none)) ∧
    ((∀ (a : Access) (rest : List PortInput), s.pending ≠ .access a :: rest) → t.observed = s.observed)

/-- R63: only emit writes OBUF. A command keeps every byte below the old OUT_PTR and every byte at or above the new one,
and never writes at or beyond OBUF_BYTES. -/
def Obligations.OnlyEmitWritesObuf : Prop :=
  ∀ (i : Instr) (s t : State), s.outPtr.toNat ≤ s.cfg.obufBytes → exec i s = .next t →
    (∀ k, k < s.outPtr.toNat ∨ t.outPtr.toNat ≤ k ∨ s.cfg.obufBytes ≤ k → obufByte t k = obufByte s k) ∧
    t.outPtr.toNat ≤ s.cfg.obufBytes ∧
    (s.outPtr.toNat < t.outPtr.toNat → (∃ x, i = .encSym x) ∨ i = .encFlush ∨ ∃ b, i = .decByte b)

/-- R40, R42, R43, R52, R57 to R60: which commands write which state. -/
def Obligations.CommandsWriteOnlyTheirState : Prop :=
  ∀ (i : Instr) (s t : State), exec i s = .next t →
    (i ≠ .build → i ≠ .sreset → t.arena = s.arena ∧ t.nsym = s.nsym ∧ t.root = s.root ∧ t.treeState = s.treeState) ∧
    (i ≠ .extract → i ≠ .sreset → t.codes = s.codes) ∧
    (i ≠ .extract → i ≠ .build → i ≠ .sreset → t.codesValid = s.codesValid) ∧
    (i ≠ .fclr → i ≠ .sreset → t.freq = s.freq) ∧
    (i ≠ .sreset → t.arg = s.arg) ∧
    (i ≠ .encStart → i ≠ .encFlush → i ≠ .sreset → t.encActive = s.encActive ∧ t.encPad = s.encPad) ∧
    (i ≠ .encStart → (∀ x, i ≠ .encSym x) → i ≠ .encFlush → i ≠ .sreset →
      t.encAcc = s.encAcc ∧ t.encNbits = s.encNbits ∧ t.encBytes = s.encBytes) ∧
    ((∀ p, i ≠ .decStart p) → (∀ b, i ≠ .decByte b) → i ≠ .sreset → t.decActive = s.decActive ∧ t.decRem = s.decRem) ∧
    ((∀ p, i ≠ .decStart p) → (∀ b, i ≠ .decByte b) → i ≠ .build → i ≠ .sreset → t.decCursor = s.decCursor)

/-- R40: no command but DEC.START reads ARG, and none but SRESET writes it. -/
def Obligations.OnlyDecStartReadsArg : Prop :=
  ∀ (i : Instr) (s : State) (v : Word), (∀ p, i ≠ .decStart p) →
    exec i { s with arg := v } = andThen (exec i s) fun t => { t with arg := if i = .sreset then 0 else v }

/-- R59: no command but BUILD reads FREQ, so a change of FREQ reaches the tree and the codes only through the next
BUILD. -/
def Obligations.OnlyBuildReadsFreq : Prop :=
  ∀ (i : Instr) (s : State) (f : Table Word), i ≠ .build →
    exec i { s with freq := f }
      = andThen (exec i s) fun t => { t with freq := if i = .fclr ∨ i = .sreset then t.freq else f }

/-- R84, R286: the steps over a list of accesses are those accesses one after another, each seeing the effects of all
before it. That the accesses lie in a list of the state is log 2's choice. -/
def Obligations.RunIsItsAccesses : Prop :=
  ∀ (s : State) (accesses : List Access) (rest : List PortInput),
    s.pending = accesses.map .access ++ rest →
    Sys2Proof.core.run accesses.length s = runAccesses accesses { s with pending := rest }

/-- R112, R108: the expansions of the pseudo-instructions, in the order written. -/
def Obligations.PseudoInstructionsExpand : Prop :=
  ∀ c : Config,
    (∀ x v, (HostLine.freq x v).expand c = (HostLine.wr (.reg (.freq x)) v).expand c) ∧
    (∀ pairs, (HostLine.freqs pairs).expand c = assemble c (pairs.map fun e => .freq e.1 e.2)) ∧
    (∀ syms, (HostLine.encSeq syms).expand c = assemble c (syms.map fun x => .commandImm "ENC.SYM" x)) ∧
    (∀ len p, (HostLine.decChunk len p).expand c
      = assemble c [.wr (.reg .arg) len, .commandImm "DEC.START" p]) ∧
    (∀ bytes, (HostLine.decSeq bytes).expand c = assemble c (bytes.map fun b => .commandImm "DEC.BYTE" b)) ∧
    HostLine.check.expand c = some [({ addr := 0x0010, lanes := 0xF, kind := .read }, .errClear)] ∧
    ∀ w : Word, Expect.errClear.holds (some w) = decide (w.toNat < 2 ^ 31)

/-- R91 to R94: the persisted file is the chunk count, ALPHA frequencies in symbol order and the chunk records, each a byte
length, a padding byte and the packed bytes in this order, one record after another; an int32 reads back in the byte order
that wrote it. In a well-formed file each record has as many packed bytes as its length says and a padding of 0 to 7, the
records lie where the length fields put them, and reading the file back by those fields gives its frequencies and chunks.
The record of a session (R91) is well formed when its ENC_BYTES bytes have been drained. The order of the bytes within an int32 is log 15's reading. -/
def Obligations.PersistedFileLayout : Prop :=
  (∀ (o : ByteOrder) (w : Word), (int32Bytes o w).length = 4 ∧ int32OfBytes o (int32Bytes o w) = w) ∧
  ∀ (c : Config) (f : PersistedFile),
    (f.bytes c).length = 4 + 4 * c.alphaSize + (f.chunks.map fun r => 5 + r.packed.length).sum ∧
    int32OfBytes c.fileOrder ((f.bytes c).take 4) = BitVec.ofNat 32 f.chunks.length ∧
    (∀ x, x < c.alphaSize →
      int32OfBytes c.fileOrder (((f.bytes c).drop (4 + 4 * x)).take 4) = freqAt f.freq x) ∧
    (∀ (before after : List ChunkRecord) (r : ChunkRecord) (start : Nat), f.chunks = before ++ r :: after →
      start = 4 + 4 * c.alphaSize + (before.map fun r => 5 + r.packed.length).sum →
      int32OfBytes c.fileOrder (((f.bytes c).drop start).take 4) = r.byteLength ∧
      (f.bytes c)[start + 4]? = some r.padding ∧
      ((f.bytes c).drop (start + 5)).take r.packed.length = r.packed) ∧
    (f.bytes c).drop (4 + 4 * c.alphaSize) = (f.chunks.map (ChunkRecord.bytes c.fileOrder)).flatten ∧
    (f.wellFormed = true →
      (∀ (before after : List ChunkRecord) (r : ChunkRecord) (start : Nat), f.chunks = before ++ r :: after →
        start = 4 + 4 * c.alphaSize + (before.map fun r => 5 + r.byteLength.toNat).sum →
        int32OfBytes c.fileOrder (((f.bytes c).drop start).take 4) = r.byteLength ∧
        (f.bytes c)[start + 4]? = some r.padding ∧ r.padding.toNat ≤ 7 ∧
        ((f.bytes c).drop (start + 5)).take r.byteLength.toNat = r.packed ∧
        r.packed.length = r.byteLength.toNat ∧ r.byteLength.toNat ≤ 0x7FFFFFFF) ∧
      (f.bytes c).length = 4 + 4 * c.alphaSize + (f.chunks.map fun r => 5 + r.byteLength.toNat).sum ∧
      ∃ g, readFile c (f.bytes c) = some g ∧ g.chunks = f.chunks ∧
        ∀ x, x < c.alphaSize → freqAt g.freq x = freqAt f.freq x) ∧
    ∀ (s : State) (packed : List Byte), packed.length = s.encBytes.toNat → (s.chunkRecord packed).wellFormed = true
end

