-- ==== Sys2Proof/Laws/BitString.lean ====
section
/-! SUPPORT. Bit strings and their values: `bitsOf` and `valOf` are inverse (R18), and both follow concatenation. -/

namespace Sys2Proof.Machine

@[simp] theorem length_bitsOf (v len : Nat) : (bitsOf v len).length = len := by simp [bitsOf]

theorem getElem_bitsOf (v len i : Nat) (h : i < (bitsOf v len).length) :
    (bitsOf v len)[i] = v.testBit (len - 1 - i) := by simp [bitsOf]

theorem bitsOf_zero (v : Nat) : bitsOf v 0 = [] := rfl

/-- The first bit is the most significant one. -/
theorem bitsOf_succ (v len : Nat) : bitsOf v (len + 1) = v.testBit len :: bitsOf v len := by
  apply List.ext_getElem
  · simp
  · intro i h1 h2
    rw [getElem_bitsOf]
    cases i with
    | zero => simp
    | succ i =>
      simp only [length_bitsOf] at h1
      rw [List.getElem_cons_succ, getElem_bitsOf]
      congr 1; omega

theorem valOf_foldl (b : BitString) (acc : Nat) :
    b.foldl (fun acc bit => 2 * acc + bit.toNat) acc = acc * 2 ^ b.length + valOf b := by
  induction b generalizing acc with
  | nil => simp [valOf]
  | cons x b ih =>
    simp only [valOf, List.foldl_cons, List.length_cons]
    rw [ih, ih (2 * 0 + x.toNat)]
    ring

@[simp] theorem valOf_nil : valOf [] = 0 := rfl

theorem valOf_cons (x : Bool) (b : BitString) : valOf (x :: b) = x.toNat * 2 ^ b.length + valOf b := by
  rw [valOf, List.foldl_cons, valOf_foldl]; simp

theorem valOf_append (b c : BitString) : valOf (b ++ c) = valOf b * 2 ^ c.length + valOf c := by
  rw [valOf, List.foldl_append, valOf_foldl]; rfl

theorem valOf_lt (b : BitString) : valOf b < 2 ^ b.length := by
  induction b with
  | nil => simp
  | cons x b ih =>
    rw [valOf_cons, List.length_cons, pow_succ]
    cases x <;> simp <;> omega

theorem bitsOf_add_mul {a v n len : Nat} (h : v < 2 ^ len) :
    bitsOf (a * 2 ^ len + v) (n + len) = bitsOf a n ++ bitsOf v len := by
  induction n with
  | zero =>
    apply List.ext_getElem
    · simp [bitsOf]
    · intro i h1 h2
      simp only [length_bitsOf] at h1
      simp only [bitsOf_zero, List.nil_append, getElem_bitsOf]
      rw [Nat.mul_comm, Nat.testBit_two_pow_mul_add _ h]
      simp; omega
  | succ n ih =>
    rw [show n + 1 + len = (n + len) + 1 by omega, bitsOf_succ, ih, bitsOf_succ, List.cons_append]
    congr 1
    rw [Nat.mul_comm, Nat.testBit_two_pow_mul_add _ h]
    simp

theorem valOf_bitsOf {v len : Nat} (h : v < 2 ^ len) : valOf (bitsOf v len) = v := by
  induction len generalizing v with
  | zero => simp [bitsOf_zero]; omega
  | succ len ih =>
    rw [bitsOf_succ, valOf_cons, length_bitsOf]
    have hlt : v % 2 ^ len < 2 ^ len := Nat.mod_lt _ (by positivity)
    have hb : bitsOf v len = bitsOf (v % 2 ^ len) len := by
      apply List.ext_getElem
      · simp
      · intro i h1 h2
        simp only [length_bitsOf] at h1
        rw [getElem_bitsOf, getElem_bitsOf, Nat.testBit_mod_two_pow]
        simp; omega
    rw [hb, ih hlt]
    have hdiv : v / 2 ^ len < 2 := by rw [Nat.div_lt_iff_lt_mul (by positivity)]; rw [pow_succ] at h; omega
    have htb : (v.testBit len).toNat = v / 2 ^ len := by
      rw [Nat.testBit_eq_decide_div_mod_eq, Nat.mod_eq_of_lt hdiv]
      generalize v / 2 ^ len = q at hdiv
      interval_cases q <;> rfl
    rw [htb, Nat.mul_comm]
    exact Nat.div_add_mod _ _

theorem bitsOf_valOf (b : BitString) : bitsOf (valOf b) b.length = b := by
  induction b with
  | nil => rfl
  | cons x b ih =>
    rw [valOf_cons, List.length_cons, Nat.add_comm b.length 1, bitsOf_add_mul (valOf_lt b), ih]
    cases x <;> rfl

/-- Bit strings of one length with the same value are the same string. -/
theorem valOf_injective {b c : BitString} (hl : b.length = c.length) (hv : valOf b = valOf c) : b = c := by
  rw [← bitsOf_valOf b, ← bitsOf_valOf c, hl, hv]

/-- The low `k` bits of a number are the last `k` bits of its string. -/
theorem bitsOf_mod {v k len : Nat} (h : len ≤ k) : bitsOf (v % 2 ^ k) len = bitsOf v len := by
  apply List.ext_getElem
  · simp
  · intro i h1 h2
    simp only [length_bitsOf] at h1
    rw [getElem_bitsOf, getElem_bitsOf, Nat.testBit_mod_two_pow]
    simp; omega

@[simp] theorem length_byteBits (b : Byte) : (byteBits b).length = 8 := by simp [byteBits]

theorem valOf_byteBits (b : Byte) : valOf (byteBits b) = b.toNat := valOf_bitsOf b.isLt

theorem byteBits_ofNat {v : Nat} : byteBits (BitVec.ofNat 8 v) = bitsOf v 8 := by
  rw [byteBits, BitVec.toNat_ofNat]; exact bitsOf_mod (le_refl 8)

@[simp] theorem length_bitString (c : Code) : c.bitString.length = c.len.toNat := by simp [Code.bitString]

/-- The entry that stores a path spells that path, for every path the entry can hold (R171). -/
theorem bitString_codeOfPath {p : BitString} (h : p.length ≤ 256) : (codeOfPath p).bitString = p := by
  have h1 : p.length % 2 ^ 9 = p.length := Nat.mod_eq_of_lt (by omega)
  have h2 : valOf p % 2 ^ 256 = valOf p :=
    Nat.mod_eq_of_lt (lt_of_lt_of_le (valOf_lt p) (Nat.pow_le_pow_right (by norm_num) h))
  simp only [Code.bitString, codeOfPath, BitVec.toNat_ofNat, h1, h2]
  exact bitsOf_valOf p

end Sys2Proof.Machine
end

