-- ==== Sys2Proof/Laws/State.lean ====
section
/-! SUPPORT. One lemma per field per state update: what each update of the machine leaves in each field. -/

namespace Sys2Proof.Machine

/-! ### recordError -/

@[simp] theorem recordError_cfg (s : State) (code : ErrCode) (info : Word) : (s.recordError code info).cfg = s.cfg := rfl
@[simp] theorem recordError_arg (s : State) (code : ErrCode) (info : Word) : (s.recordError code info).arg = s.arg := rfl
@[simp] theorem recordError_errCode (s : State) (code : ErrCode) (info : Word) : (s.recordError code info).errCode = code := rfl
@[simp] theorem recordError_errInfo (s : State) (code : ErrCode) (info : Word) : (s.recordError code info).errInfo = info := rfl
@[simp] theorem recordError_treeState (s : State) (code : ErrCode) (info : Word) : (s.recordError code info).treeState = s.treeState := rfl
@[simp] theorem recordError_codesValid (s : State) (code : ErrCode) (info : Word) : (s.recordError code info).codesValid = s.codesValid := rfl
@[simp] theorem recordError_encActive (s : State) (code : ErrCode) (info : Word) : (s.recordError code info).encActive = s.encActive := rfl
@[simp] theorem recordError_decActive (s : State) (code : ErrCode) (info : Word) : (s.recordError code info).decActive = s.decActive := rfl
@[simp] theorem recordError_nsym (s : State) (code : ErrCode) (info : Word) : (s.recordError code info).nsym = s.nsym := rfl
@[simp] theorem recordError_root (s : State) (code : ErrCode) (info : Word) : (s.recordError code info).root = s.root := rfl
@[simp] theorem recordError_arena (s : State) (code : ErrCode) (info : Word) : (s.recordError code info).arena = s.arena := rfl
@[simp] theorem recordError_outPtr (s : State) (code : ErrCode) (info : Word) : (s.recordError code info).outPtr = s.outPtr := rfl
@[simp] theorem recordError_encBytes (s : State) (code : ErrCode) (info : Word) : (s.recordError code info).encBytes = s.encBytes := rfl
@[simp] theorem recordError_encPad (s : State) (code : ErrCode) (info : Word) : (s.recordError code info).encPad = s.encPad := rfl
@[simp] theorem recordError_encAcc (s : State) (code : ErrCode) (info : Word) : (s.recordError code info).encAcc = s.encAcc := rfl
@[simp] theorem recordError_encNbits (s : State) (code : ErrCode) (info : Word) : (s.recordError code info).encNbits = s.encNbits := rfl
@[simp] theorem recordError_decRem (s : State) (code : ErrCode) (info : Word) : (s.recordError code info).decRem = s.decRem := rfl
@[simp] theorem recordError_decCursor (s : State) (code : ErrCode) (info : Word) : (s.recordError code info).decCursor = s.decCursor := rfl
@[simp] theorem recordError_freq (s : State) (code : ErrCode) (info : Word) : (s.recordError code info).freq = s.freq := rfl
@[simp] theorem recordError_codes (s : State) (code : ErrCode) (info : Word) : (s.recordError code info).codes = s.codes := rfl
@[simp] theorem recordError_obuf (s : State) (code : ErrCode) (info : Word) : (s.recordError code info).obuf = s.obuf := rfl
@[simp] theorem recordError_obufDraw (s : State) (code : ErrCode) (info : Word) : (s.recordError code info).obufDraw = s.obufDraw := rfl
@[simp] theorem recordError_pending (s : State) (code : ErrCode) (info : Word) : (s.recordError code info).pending = s.pending := rfl
@[simp] theorem recordError_observed (s : State) (code : ErrCode) (info : Word) : (s.recordError code info).observed = s.observed := rfl

/-! ### clearError -/

@[simp] theorem clearError_cfg (s : State) : (s.clearError).cfg = s.cfg := rfl
@[simp] theorem clearError_arg (s : State) : (s.clearError).arg = s.arg := rfl
@[simp] theorem clearError_errCode (s : State) : (s.clearError).errCode = .none := rfl
@[simp] theorem clearError_errInfo (s : State) : (s.clearError).errInfo = 0 := rfl
@[simp] theorem clearError_treeState (s : State) : (s.clearError).treeState = s.treeState := rfl
@[simp] theorem clearError_codesValid (s : State) : (s.clearError).codesValid = s.codesValid := rfl
@[simp] theorem clearError_encActive (s : State) : (s.clearError).encActive = s.encActive := rfl
@[simp] theorem clearError_decActive (s : State) : (s.clearError).decActive = s.decActive := rfl
@[simp] theorem clearError_nsym (s : State) : (s.clearError).nsym = s.nsym := rfl
@[simp] theorem clearError_root (s : State) : (s.clearError).root = s.root := rfl
@[simp] theorem clearError_arena (s : State) : (s.clearError).arena = s.arena := rfl
@[simp] theorem clearError_outPtr (s : State) : (s.clearError).outPtr = s.outPtr := rfl
@[simp] theorem clearError_encBytes (s : State) : (s.clearError).encBytes = s.encBytes := rfl
@[simp] theorem clearError_encPad (s : State) : (s.clearError).encPad = s.encPad := rfl
@[simp] theorem clearError_encAcc (s : State) : (s.clearError).encAcc = s.encAcc := rfl
@[simp] theorem clearError_encNbits (s : State) : (s.clearError).encNbits = s.encNbits := rfl
@[simp] theorem clearError_decRem (s : State) : (s.clearError).decRem = s.decRem := rfl
@[simp] theorem clearError_decCursor (s : State) : (s.clearError).decCursor = s.decCursor := rfl
@[simp] theorem clearError_freq (s : State) : (s.clearError).freq = s.freq := rfl
@[simp] theorem clearError_codes (s : State) : (s.clearError).codes = s.codes := rfl
@[simp] theorem clearError_obuf (s : State) : (s.clearError).obuf = s.obuf := rfl
@[simp] theorem clearError_obufDraw (s : State) : (s.clearError).obufDraw = s.obufDraw := rfl
@[simp] theorem clearError_pending (s : State) : (s.clearError).pending = s.pending := rfl
@[simp] theorem clearError_observed (s : State) : (s.clearError).observed = s.observed := rfl

/-! ### writeFreq -/

@[simp] theorem writeFreq_cfg (s : State) (k : Nat) (v : Word) : (s.writeFreq k v).cfg = s.cfg := rfl
@[simp] theorem writeFreq_arg (s : State) (k : Nat) (v : Word) : (s.writeFreq k v).arg = s.arg := rfl
@[simp] theorem writeFreq_errCode (s : State) (k : Nat) (v : Word) : (s.writeFreq k v).errCode = s.errCode := rfl
@[simp] theorem writeFreq_errInfo (s : State) (k : Nat) (v : Word) : (s.writeFreq k v).errInfo = s.errInfo := rfl
@[simp] theorem writeFreq_treeState (s : State) (k : Nat) (v : Word) : (s.writeFreq k v).treeState = s.treeState := rfl
@[simp] theorem writeFreq_codesValid (s : State) (k : Nat) (v : Word) : (s.writeFreq k v).codesValid = s.codesValid := rfl
@[simp] theorem writeFreq_encActive (s : State) (k : Nat) (v : Word) : (s.writeFreq k v).encActive = s.encActive := rfl
@[simp] theorem writeFreq_decActive (s : State) (k : Nat) (v : Word) : (s.writeFreq k v).decActive = s.decActive := rfl
@[simp] theorem writeFreq_nsym (s : State) (k : Nat) (v : Word) : (s.writeFreq k v).nsym = s.nsym := rfl
@[simp] theorem writeFreq_root (s : State) (k : Nat) (v : Word) : (s.writeFreq k v).root = s.root := rfl
@[simp] theorem writeFreq_arena (s : State) (k : Nat) (v : Word) : (s.writeFreq k v).arena = s.arena := rfl
@[simp] theorem writeFreq_outPtr (s : State) (k : Nat) (v : Word) : (s.writeFreq k v).outPtr = s.outPtr := rfl
@[simp] theorem writeFreq_encBytes (s : State) (k : Nat) (v : Word) : (s.writeFreq k v).encBytes = s.encBytes := rfl
@[simp] theorem writeFreq_encPad (s : State) (k : Nat) (v : Word) : (s.writeFreq k v).encPad = s.encPad := rfl
@[simp] theorem writeFreq_encAcc (s : State) (k : Nat) (v : Word) : (s.writeFreq k v).encAcc = s.encAcc := rfl
@[simp] theorem writeFreq_encNbits (s : State) (k : Nat) (v : Word) : (s.writeFreq k v).encNbits = s.encNbits := rfl
@[simp] theorem writeFreq_decRem (s : State) (k : Nat) (v : Word) : (s.writeFreq k v).decRem = s.decRem := rfl
@[simp] theorem writeFreq_decCursor (s : State) (k : Nat) (v : Word) : (s.writeFreq k v).decCursor = s.decCursor := rfl
@[simp] theorem writeFreq_freq (s : State) (k : Nat) (v : Word) : (s.writeFreq k v).freq = Table.write 0 s.freq k v := rfl
@[simp] theorem writeFreq_codes (s : State) (k : Nat) (v : Word) : (s.writeFreq k v).codes = s.codes := rfl
@[simp] theorem writeFreq_obuf (s : State) (k : Nat) (v : Word) : (s.writeFreq k v).obuf = s.obuf := rfl
@[simp] theorem writeFreq_obufDraw (s : State) (k : Nat) (v : Word) : (s.writeFreq k v).obufDraw = s.obufDraw := rfl
@[simp] theorem writeFreq_pending (s : State) (k : Nat) (v : Word) : (s.writeFreq k v).pending = s.pending := rfl
@[simp] theorem writeFreq_observed (s : State) (k : Nat) (v : Word) : (s.writeFreq k v).observed = s.observed := rfl

/-! ### observe -/

@[simp] theorem observe_cfg (s : State) (a : Access) (r : Option Word) (e : Bool) : (s.observe a r e).cfg = s.cfg := rfl
@[simp] theorem observe_arg (s : State) (a : Access) (r : Option Word) (e : Bool) : (s.observe a r e).arg = s.arg := rfl
@[simp] theorem observe_errCode (s : State) (a : Access) (r : Option Word) (e : Bool) : (s.observe a r e).errCode = s.errCode := rfl
@[simp] theorem observe_errInfo (s : State) (a : Access) (r : Option Word) (e : Bool) : (s.observe a r e).errInfo = s.errInfo := rfl
@[simp] theorem observe_treeState (s : State) (a : Access) (r : Option Word) (e : Bool) : (s.observe a r e).treeState = s.treeState := rfl
@[simp] theorem observe_codesValid (s : State) (a : Access) (r : Option Word) (e : Bool) : (s.observe a r e).codesValid = s.codesValid := rfl
@[simp] theorem observe_encActive (s : State) (a : Access) (r : Option Word) (e : Bool) : (s.observe a r e).encActive = s.encActive := rfl
@[simp] theorem observe_decActive (s : State) (a : Access) (r : Option Word) (e : Bool) : (s.observe a r e).decActive = s.decActive := rfl
@[simp] theorem observe_nsym (s : State) (a : Access) (r : Option Word) (e : Bool) : (s.observe a r e).nsym = s.nsym := rfl
@[simp] theorem observe_root (s : State) (a : Access) (r : Option Word) (e : Bool) : (s.observe a r e).root = s.root := rfl
@[simp] theorem observe_arena (s : State) (a : Access) (r : Option Word) (e : Bool) : (s.observe a r e).arena = s.arena := rfl
@[simp] theorem observe_outPtr (s : State) (a : Access) (r : Option Word) (e : Bool) : (s.observe a r e).outPtr = s.outPtr := rfl
@[simp] theorem observe_encBytes (s : State) (a : Access) (r : Option Word) (e : Bool) : (s.observe a r e).encBytes = s.encBytes := rfl
@[simp] theorem observe_encPad (s : State) (a : Access) (r : Option Word) (e : Bool) : (s.observe a r e).encPad = s.encPad := rfl
@[simp] theorem observe_encAcc (s : State) (a : Access) (r : Option Word) (e : Bool) : (s.observe a r e).encAcc = s.encAcc := rfl
@[simp] theorem observe_encNbits (s : State) (a : Access) (r : Option Word) (e : Bool) : (s.observe a r e).encNbits = s.encNbits := rfl
@[simp] theorem observe_decRem (s : State) (a : Access) (r : Option Word) (e : Bool) : (s.observe a r e).decRem = s.decRem := rfl
@[simp] theorem observe_decCursor (s : State) (a : Access) (r : Option Word) (e : Bool) : (s.observe a r e).decCursor = s.decCursor := rfl
@[simp] theorem observe_freq (s : State) (a : Access) (r : Option Word) (e : Bool) : (s.observe a r e).freq = s.freq := rfl
@[simp] theorem observe_codes (s : State) (a : Access) (r : Option Word) (e : Bool) : (s.observe a r e).codes = s.codes := rfl
@[simp] theorem observe_obuf (s : State) (a : Access) (r : Option Word) (e : Bool) : (s.observe a r e).obuf = s.obuf := rfl
@[simp] theorem observe_obufDraw (s : State) (a : Access) (r : Option Word) (e : Bool) : (s.observe a r e).obufDraw = s.obufDraw := rfl
@[simp] theorem observe_pending (s : State) (a : Access) (r : Option Word) (e : Bool) : (s.observe a r e).pending = s.pending := rfl
@[simp] theorem observe_observed (s : State) (a : Access) (r : Option Word) (e : Bool) : (s.observe a r e).observed = s.observed ++ [{ access := a, returned := r, error := e }] := rfl

/-! ### emit -/

@[simp] theorem emit_cfg (s : State) (x : Byte) : (emit s x).cfg = s.cfg := rfl
@[simp] theorem emit_arg (s : State) (x : Byte) : (emit s x).arg = s.arg := rfl
@[simp] theorem emit_errCode (s : State) (x : Byte) : (emit s x).errCode = s.errCode := rfl
@[simp] theorem emit_errInfo (s : State) (x : Byte) : (emit s x).errInfo = s.errInfo := rfl
@[simp] theorem emit_treeState (s : State) (x : Byte) : (emit s x).treeState = s.treeState := rfl
@[simp] theorem emit_codesValid (s : State) (x : Byte) : (emit s x).codesValid = s.codesValid := rfl
@[simp] theorem emit_encActive (s : State) (x : Byte) : (emit s x).encActive = s.encActive := rfl
@[simp] theorem emit_decActive (s : State) (x : Byte) : (emit s x).decActive = s.decActive := rfl
@[simp] theorem emit_nsym (s : State) (x : Byte) : (emit s x).nsym = s.nsym := rfl
@[simp] theorem emit_root (s : State) (x : Byte) : (emit s x).root = s.root := rfl
@[simp] theorem emit_arena (s : State) (x : Byte) : (emit s x).arena = s.arena := rfl
@[simp] theorem emit_outPtr (s : State) (x : Byte) : (emit s x).outPtr = s.outPtr + 1 := rfl
@[simp] theorem emit_encBytes (s : State) (x : Byte) : (emit s x).encBytes = s.encBytes := rfl
@[simp] theorem emit_encPad (s : State) (x : Byte) : (emit s x).encPad = s.encPad := rfl
@[simp] theorem emit_encAcc (s : State) (x : Byte) : (emit s x).encAcc = s.encAcc := rfl
@[simp] theorem emit_encNbits (s : State) (x : Byte) : (emit s x).encNbits = s.encNbits := rfl
@[simp] theorem emit_decRem (s : State) (x : Byte) : (emit s x).decRem = s.decRem := rfl
@[simp] theorem emit_decCursor (s : State) (x : Byte) : (emit s x).decCursor = s.decCursor := rfl
@[simp] theorem emit_freq (s : State) (x : Byte) : (emit s x).freq = s.freq := rfl
@[simp] theorem emit_codes (s : State) (x : Byte) : (emit s x).codes = s.codes := rfl
@[simp] theorem emit_obuf (s : State) (x : Byte) : (emit s x).obuf = Table.put s.obuf s.outPtr.toNat x := rfl
@[simp] theorem emit_obufDraw (s : State) (x : Byte) : (emit s x).obufDraw = s.obufDraw := rfl
@[simp] theorem emit_pending (s : State) (x : Byte) : (emit s x).pending = s.pending := rfl
@[simp] theorem emit_observed (s : State) (x : Byte) : (emit s x).observed = s.observed := rfl

/-! ### closeEncoder -/

@[simp] theorem closeEncoder_cfg (s : State) : (s.closeEncoder).cfg = s.cfg := rfl
@[simp] theorem closeEncoder_arg (s : State) : (s.closeEncoder).arg = s.arg := rfl
@[simp] theorem closeEncoder_errCode (s : State) : (s.closeEncoder).errCode = s.errCode := rfl
@[simp] theorem closeEncoder_errInfo (s : State) : (s.closeEncoder).errInfo = s.errInfo := rfl
@[simp] theorem closeEncoder_treeState (s : State) : (s.closeEncoder).treeState = s.treeState := rfl
@[simp] theorem closeEncoder_codesValid (s : State) : (s.closeEncoder).codesValid = s.codesValid := rfl
@[simp] theorem closeEncoder_encActive (s : State) : (s.closeEncoder).encActive = false := rfl
@[simp] theorem closeEncoder_decActive (s : State) : (s.closeEncoder).decActive = s.decActive := rfl
@[simp] theorem closeEncoder_nsym (s : State) : (s.closeEncoder).nsym = s.nsym := rfl
@[simp] theorem closeEncoder_root (s : State) : (s.closeEncoder).root = s.root := rfl
@[simp] theorem closeEncoder_arena (s : State) : (s.closeEncoder).arena = s.arena := rfl
@[simp] theorem closeEncoder_outPtr (s : State) : (s.closeEncoder).outPtr = s.outPtr := rfl
@[simp] theorem closeEncoder_encBytes (s : State) : (s.closeEncoder).encBytes = s.encBytes := rfl
@[simp] theorem closeEncoder_encPad (s : State) : (s.closeEncoder).encPad = s.encPad := rfl
@[simp] theorem closeEncoder_encAcc (s : State) : (s.closeEncoder).encAcc = 0 := rfl
@[simp] theorem closeEncoder_encNbits (s : State) : (s.closeEncoder).encNbits = 0 := rfl
@[simp] theorem closeEncoder_decRem (s : State) : (s.closeEncoder).decRem = s.decRem := rfl
@[simp] theorem closeEncoder_decCursor (s : State) : (s.closeEncoder).decCursor = s.decCursor := rfl
@[simp] theorem closeEncoder_freq (s : State) : (s.closeEncoder).freq = s.freq := rfl
@[simp] theorem closeEncoder_codes (s : State) : (s.closeEncoder).codes = s.codes := rfl
@[simp] theorem closeEncoder_obuf (s : State) : (s.closeEncoder).obuf = s.obuf := rfl
@[simp] theorem closeEncoder_obufDraw (s : State) : (s.closeEncoder).obufDraw = s.obufDraw := rfl
@[simp] theorem closeEncoder_pending (s : State) : (s.closeEncoder).pending = s.pending := rfl
@[simp] theorem closeEncoder_observed (s : State) : (s.closeEncoder).observed = s.observed := rfl

/-! ### openDecoder -/

@[simp] theorem openDecoder_cfg (s : State) (bits : Nat) : (s.openDecoder bits).cfg = s.cfg := rfl
@[simp] theorem openDecoder_arg (s : State) (bits : Nat) : (s.openDecoder bits).arg = s.arg := rfl
@[simp] theorem openDecoder_errCode (s : State) (bits : Nat) : (s.openDecoder bits).errCode = s.errCode := rfl
@[simp] theorem openDecoder_errInfo (s : State) (bits : Nat) : (s.openDecoder bits).errInfo = s.errInfo := rfl
@[simp] theorem openDecoder_treeState (s : State) (bits : Nat) : (s.openDecoder bits).treeState = s.treeState := rfl
@[simp] theorem openDecoder_codesValid (s : State) (bits : Nat) : (s.openDecoder bits).codesValid = s.codesValid := rfl
@[simp] theorem openDecoder_encActive (s : State) (bits : Nat) : (s.openDecoder bits).encActive = s.encActive := rfl
@[simp] theorem openDecoder_decActive (s : State) (bits : Nat) : (s.openDecoder bits).decActive = decide (0 < bits) := rfl
@[simp] theorem openDecoder_nsym (s : State) (bits : Nat) : (s.openDecoder bits).nsym = s.nsym := rfl
@[simp] theorem openDecoder_root (s : State) (bits : Nat) : (s.openDecoder bits).root = s.root := rfl
@[simp] theorem openDecoder_arena (s : State) (bits : Nat) : (s.openDecoder bits).arena = s.arena := rfl
@[simp] theorem openDecoder_outPtr (s : State) (bits : Nat) : (s.openDecoder bits).outPtr = s.outPtr := rfl
@[simp] theorem openDecoder_encBytes (s : State) (bits : Nat) : (s.openDecoder bits).encBytes = s.encBytes := rfl
@[simp] theorem openDecoder_encPad (s : State) (bits : Nat) : (s.openDecoder bits).encPad = s.encPad := rfl
@[simp] theorem openDecoder_encAcc (s : State) (bits : Nat) : (s.openDecoder bits).encAcc = s.encAcc := rfl
@[simp] theorem openDecoder_encNbits (s : State) (bits : Nat) : (s.openDecoder bits).encNbits = s.encNbits := rfl
@[simp] theorem openDecoder_decRem (s : State) (bits : Nat) : (s.openDecoder bits).decRem = BitVec.ofNat 34 bits := rfl
@[simp] theorem openDecoder_decCursor (s : State) (bits : Nat) : (s.openDecoder bits).decCursor = s.root := rfl
@[simp] theorem openDecoder_freq (s : State) (bits : Nat) : (s.openDecoder bits).freq = s.freq := rfl
@[simp] theorem openDecoder_codes (s : State) (bits : Nat) : (s.openDecoder bits).codes = s.codes := rfl
@[simp] theorem openDecoder_obuf (s : State) (bits : Nat) : (s.openDecoder bits).obuf = s.obuf := rfl
@[simp] theorem openDecoder_obufDraw (s : State) (bits : Nat) : (s.openDecoder bits).obufDraw = s.obufDraw := rfl
@[simp] theorem openDecoder_pending (s : State) (bits : Nat) : (s.openDecoder bits).pending = s.pending := rfl
@[simp] theorem openDecoder_observed (s : State) (bits : Nat) : (s.openDecoder bits).observed = s.observed := rfl

/-! ### softReset -/

@[simp] theorem softReset_cfg (s : State) : s.softReset.cfg = s.cfg := rfl
@[simp] theorem softReset_arg (s : State) : s.softReset.arg = 0 := rfl
@[simp] theorem softReset_errCode (s : State) : s.softReset.errCode = .none := rfl
@[simp] theorem softReset_errInfo (s : State) : s.softReset.errInfo = 0 := rfl
@[simp] theorem softReset_treeState (s : State) : s.softReset.treeState = .none := rfl
@[simp] theorem softReset_codesValid (s : State) : s.softReset.codesValid = false := rfl
@[simp] theorem softReset_encActive (s : State) : s.softReset.encActive = false := rfl
@[simp] theorem softReset_decActive (s : State) : s.softReset.decActive = false := rfl
@[simp] theorem softReset_nsym (s : State) : s.softReset.nsym = 0 := rfl
@[simp] theorem softReset_root (s : State) : s.softReset.root = 0 := rfl
@[simp] theorem softReset_arena (s : State) : s.softReset.arena = [] := rfl
@[simp] theorem softReset_outPtr (s : State) : s.softReset.outPtr = 0 := rfl
@[simp] theorem softReset_encBytes (s : State) : s.softReset.encBytes = 0 := rfl
@[simp] theorem softReset_encPad (s : State) : s.softReset.encPad = 0 := rfl
@[simp] theorem softReset_encAcc (s : State) : s.softReset.encAcc = 0 := rfl
@[simp] theorem softReset_encNbits (s : State) : s.softReset.encNbits = 0 := rfl
@[simp] theorem softReset_decRem (s : State) : s.softReset.decRem = 0 := rfl
@[simp] theorem softReset_decCursor (s : State) : s.softReset.decCursor = 0 := rfl
@[simp] theorem softReset_freq (s : State) : s.softReset.freq = [] := rfl
@[simp] theorem softReset_codes (s : State) : s.softReset.codes = [] := rfl
@[simp] theorem softReset_obuf (s : State) : s.softReset.obuf = s.obuf := rfl
@[simp] theorem softReset_obufDraw (s : State) : s.softReset.obufDraw = s.obufDraw := rfl
@[simp] theorem softReset_pending (s : State) : s.softReset.pending = s.pending := rfl
@[simp] theorem softReset_observed (s : State) : s.softReset.observed = s.observed := rfl

/-! ### hardReset -/

@[simp] theorem hardReset_cfg (s : State) : s.hardReset.cfg = s.cfg := rfl
@[simp] theorem hardReset_arg (s : State) : s.hardReset.arg = 0 := rfl
@[simp] theorem hardReset_errCode (s : State) : s.hardReset.errCode = .none := rfl
@[simp] theorem hardReset_errInfo (s : State) : s.hardReset.errInfo = 0 := rfl
@[simp] theorem hardReset_treeState (s : State) : s.hardReset.treeState = .none := rfl
@[simp] theorem hardReset_codesValid (s : State) : s.hardReset.codesValid = false := rfl
@[simp] theorem hardReset_encActive (s : State) : s.hardReset.encActive = false := rfl
@[simp] theorem hardReset_decActive (s : State) : s.hardReset.decActive = false := rfl
@[simp] theorem hardReset_nsym (s : State) : s.hardReset.nsym = 0 := rfl
@[simp] theorem hardReset_root (s : State) : s.hardReset.root = 0 := rfl
@[simp] theorem hardReset_arena (s : State) : s.hardReset.arena = [] := rfl
@[simp] theorem hardReset_outPtr (s : State) : s.hardReset.outPtr = 0 := rfl
@[simp] theorem hardReset_encBytes (s : State) : s.hardReset.encBytes = 0 := rfl
@[simp] theorem hardReset_encPad (s : State) : s.hardReset.encPad = 0 := rfl
@[simp] theorem hardReset_encAcc (s : State) : s.hardReset.encAcc = 0 := rfl
@[simp] theorem hardReset_encNbits (s : State) : s.hardReset.encNbits = 0 := rfl
@[simp] theorem hardReset_decRem (s : State) : s.hardReset.decRem = 0 := rfl
@[simp] theorem hardReset_decCursor (s : State) : s.hardReset.decCursor = 0 := rfl
@[simp] theorem hardReset_freq (s : State) : s.hardReset.freq = [] := rfl
@[simp] theorem hardReset_codes (s : State) : s.hardReset.codes = [] := rfl
@[simp] theorem hardReset_obuf (s : State) : s.hardReset.obuf = [] := rfl
@[simp] theorem hardReset_obufDraw (s : State) : s.hardReset.obufDraw = s.obufDraw + 1 := rfl
@[simp] theorem hardReset_pending (s : State) : s.hardReset.pending = s.pending := rfl
@[simp] theorem hardReset_observed (s : State) : s.hardReset.observed = s.observed := rfl

/-! ### emitAll -/

theorem emitAll_nil (s : State) : emitAll s [] = s := rfl

theorem emitAll_cons (s : State) (x : Byte) (xs : List Byte) : emitAll s (x :: xs) = emitAll (emit s x) xs := rfl

@[simp] theorem emitAll_cfg (s : State) (xs : List Byte) : (emitAll s xs).cfg = s.cfg := by
  induction xs generalizing s with
  | nil => rfl
  | cons x xs ih => rw [emitAll_cons, ih, emit_cfg]
@[simp] theorem emitAll_arg (s : State) (xs : List Byte) : (emitAll s xs).arg = s.arg := by
  induction xs generalizing s with
  | nil => rfl
  | cons x xs ih => rw [emitAll_cons, ih, emit_arg]
@[simp] theorem emitAll_errCode (s : State) (xs : List Byte) : (emitAll s xs).errCode = s.errCode := by
  induction xs generalizing s with
  | nil => rfl
  | cons x xs ih => rw [emitAll_cons, ih, emit_errCode]
@[simp] theorem emitAll_errInfo (s : State) (xs : List Byte) : (emitAll s xs).errInfo = s.errInfo := by
  induction xs generalizing s with
  | nil => rfl
  | cons x xs ih => rw [emitAll_cons, ih, emit_errInfo]
@[simp] theorem emitAll_treeState (s : State) (xs : List Byte) : (emitAll s xs).treeState = s.treeState := by
  induction xs generalizing s with
  | nil => rfl
  | cons x xs ih => rw [emitAll_cons, ih, emit_treeState]
@[simp] theorem emitAll_codesValid (s : State) (xs : List Byte) : (emitAll s xs).codesValid = s.codesValid := by
  induction xs generalizing s with
  | nil => rfl
  | cons x xs ih => rw [emitAll_cons, ih, emit_codesValid]
@[simp] theorem emitAll_encActive (s : State) (xs : List Byte) : (emitAll s xs).encActive = s.encActive := by
  induction xs generalizing s with
  | nil => rfl
  | cons x xs ih => rw [emitAll_cons, ih, emit_encActive]
@[simp] theorem emitAll_decActive (s : State) (xs : List Byte) : (emitAll s xs).decActive = s.decActive := by
  induction xs generalizing s with
  | nil => rfl
  | cons x xs ih => rw [emitAll_cons, ih, emit_decActive]
@[simp] theorem emitAll_nsym (s : State) (xs : List Byte) : (emitAll s xs).nsym = s.nsym := by
  induction xs generalizing s with
  | nil => rfl
  | cons x xs ih => rw [emitAll_cons, ih, emit_nsym]
@[simp] theorem emitAll_root (s : State) (xs : List Byte) : (emitAll s xs).root = s.root := by
  induction xs generalizing s with
  | nil => rfl
  | cons x xs ih => rw [emitAll_cons, ih, emit_root]
@[simp] theorem emitAll_arena (s : State) (xs : List Byte) : (emitAll s xs).arena = s.arena := by
  induction xs generalizing s with
  | nil => rfl
  | cons x xs ih => rw [emitAll_cons, ih, emit_arena]
@[simp] theorem emitAll_encBytes (s : State) (xs : List Byte) : (emitAll s xs).encBytes = s.encBytes := by
  induction xs generalizing s with
  | nil => rfl
  | cons x xs ih => rw [emitAll_cons, ih, emit_encBytes]
@[simp] theorem emitAll_encPad (s : State) (xs : List Byte) : (emitAll s xs).encPad = s.encPad := by
  induction xs generalizing s with
  | nil => rfl
  | cons x xs ih => rw [emitAll_cons, ih, emit_encPad]
@[simp] theorem emitAll_encAcc (s : State) (xs : List Byte) : (emitAll s xs).encAcc = s.encAcc := by
  induction xs generalizing s with
  | nil => rfl
  | cons x xs ih => rw [emitAll_cons, ih, emit_encAcc]
@[simp] theorem emitAll_encNbits (s : State) (xs : List Byte) : (emitAll s xs).encNbits = s.encNbits := by
  induction xs generalizing s with
  | nil => rfl
  | cons x xs ih => rw [emitAll_cons, ih, emit_encNbits]
@[simp] theorem emitAll_decRem (s : State) (xs : List Byte) : (emitAll s xs).decRem = s.decRem := by
  induction xs generalizing s with
  | nil => rfl
  | cons x xs ih => rw [emitAll_cons, ih, emit_decRem]
@[simp] theorem emitAll_decCursor (s : State) (xs : List Byte) : (emitAll s xs).decCursor = s.decCursor := by
  induction xs generalizing s with
  | nil => rfl
  | cons x xs ih => rw [emitAll_cons, ih, emit_decCursor]
@[simp] theorem emitAll_freq (s : State) (xs : List Byte) : (emitAll s xs).freq = s.freq := by
  induction xs generalizing s with
  | nil => rfl
  | cons x xs ih => rw [emitAll_cons, ih, emit_freq]
@[simp] theorem emitAll_codes (s : State) (xs : List Byte) : (emitAll s xs).codes = s.codes := by
  induction xs generalizing s with
  | nil => rfl
  | cons x xs ih => rw [emitAll_cons, ih, emit_codes]
@[simp] theorem emitAll_obufDraw (s : State) (xs : List Byte) : (emitAll s xs).obufDraw = s.obufDraw := by
  induction xs generalizing s with
  | nil => rfl
  | cons x xs ih => rw [emitAll_cons, ih, emit_obufDraw]
@[simp] theorem emitAll_pending (s : State) (xs : List Byte) : (emitAll s xs).pending = s.pending := by
  induction xs generalizing s with
  | nil => rfl
  | cons x xs ih => rw [emitAll_cons, ih, emit_pending]
@[simp] theorem emitAll_observed (s : State) (xs : List Byte) : (emitAll s xs).observed = s.observed := by
  induction xs generalizing s with
  | nil => rfl
  | cons x xs ih => rw [emitAll_cons, ih, emit_observed]

/-! ### withTree -/

@[simp] theorem withTree_cfg (s : State) : (s.withTree).cfg = s.cfg := rfl
@[simp] theorem withTree_arg (s : State) : (s.withTree).arg = s.arg := rfl
@[simp] theorem withTree_errCode (s : State) : (s.withTree).errCode = s.errCode := rfl
@[simp] theorem withTree_errInfo (s : State) : (s.withTree).errInfo = s.errInfo := rfl
@[simp] theorem withTree_treeState (s : State) : (s.withTree).treeState = treeStateOf (sortedLeaves s.cfg s.freq).length := rfl
@[simp] theorem withTree_codesValid (s : State) : (s.withTree).codesValid = false := rfl
@[simp] theorem withTree_encActive (s : State) : (s.withTree).encActive = s.encActive := rfl
@[simp] theorem withTree_decActive (s : State) : (s.withTree).decActive = s.decActive := rfl
@[simp] theorem withTree_nsym (s : State) : (s.withTree).nsym = BitVec.ofNat 9 (sortedLeaves s.cfg s.freq).length := rfl
@[simp] theorem withTree_root (s : State) : (s.withTree).root = BitVec.ofNat 9 (rootOf (sortedLeaves s.cfg s.freq).length) := rfl
@[simp] theorem withTree_arena (s : State) : (s.withTree).arena = buildArena s.cfg s.freq := rfl
@[simp] theorem withTree_outPtr (s : State) : (s.withTree).outPtr = s.outPtr := rfl
@[simp] theorem withTree_encBytes (s : State) : (s.withTree).encBytes = s.encBytes := rfl
@[simp] theorem withTree_encPad (s : State) : (s.withTree).encPad = s.encPad := rfl
@[simp] theorem withTree_encAcc (s : State) : (s.withTree).encAcc = s.encAcc := rfl
@[simp] theorem withTree_encNbits (s : State) : (s.withTree).encNbits = s.encNbits := rfl
@[simp] theorem withTree_decRem (s : State) : (s.withTree).decRem = s.decRem := rfl
@[simp] theorem withTree_decCursor (s : State) : (s.withTree).decCursor = BitVec.ofNat 9 (rootOf (sortedLeaves s.cfg s.freq).length) := rfl
@[simp] theorem withTree_freq (s : State) : (s.withTree).freq = s.freq := rfl
@[simp] theorem withTree_codes (s : State) : (s.withTree).codes = s.codes := rfl
@[simp] theorem withTree_obuf (s : State) : (s.withTree).obuf = s.obuf := rfl
@[simp] theorem withTree_obufDraw (s : State) : (s.withTree).obufDraw = s.obufDraw := rfl
@[simp] theorem withTree_pending (s : State) : (s.withTree).pending = s.pending := rfl
@[simp] theorem withTree_observed (s : State) : (s.withTree).observed = s.observed := rfl

/-! ### appendCode -/

@[simp] theorem appendCode_cfg (s : State) (c : Code) : (s.appendCode c).cfg = s.cfg := by simp [State.appendCode]
@[simp] theorem appendCode_arg (s : State) (c : Code) : (s.appendCode c).arg = s.arg := by simp [State.appendCode]
@[simp] theorem appendCode_errCode (s : State) (c : Code) : (s.appendCode c).errCode = s.errCode := by simp [State.appendCode]
@[simp] theorem appendCode_errInfo (s : State) (c : Code) : (s.appendCode c).errInfo = s.errInfo := by simp [State.appendCode]
@[simp] theorem appendCode_treeState (s : State) (c : Code) : (s.appendCode c).treeState = s.treeState := by simp [State.appendCode]
@[simp] theorem appendCode_codesValid (s : State) (c : Code) : (s.appendCode c).codesValid = s.codesValid := by simp [State.appendCode]
@[simp] theorem appendCode_encActive (s : State) (c : Code) : (s.appendCode c).encActive = s.encActive := by simp [State.appendCode]
@[simp] theorem appendCode_decActive (s : State) (c : Code) : (s.appendCode c).decActive = s.decActive := by simp [State.appendCode]
@[simp] theorem appendCode_nsym (s : State) (c : Code) : (s.appendCode c).nsym = s.nsym := by simp [State.appendCode]
@[simp] theorem appendCode_root (s : State) (c : Code) : (s.appendCode c).root = s.root := by simp [State.appendCode]
@[simp] theorem appendCode_arena (s : State) (c : Code) : (s.appendCode c).arena = s.arena := by simp [State.appendCode]
@[simp] theorem appendCode_outPtr (s : State) (c : Code) : (s.appendCode c).outPtr = (emitAll s (completedBytes (encValue s c) (encTotal s c))).outPtr := rfl
@[simp] theorem appendCode_encBytes (s : State) (c : Code) : (s.appendCode c).encBytes = BitVec.ofNat 31 (s.encBytes.toNat + encTotal s c / 8) := rfl
@[simp] theorem appendCode_encPad (s : State) (c : Code) : (s.appendCode c).encPad = s.encPad := by simp [State.appendCode]
@[simp] theorem appendCode_encAcc (s : State) (c : Code) : (s.appendCode c).encAcc = BitVec.ofNat 7 (encValue s c % 2 ^ (encTotal s c % 8)) := rfl
@[simp] theorem appendCode_encNbits (s : State) (c : Code) : (s.appendCode c).encNbits = BitVec.ofNat 3 (encTotal s c % 8) := rfl
@[simp] theorem appendCode_decRem (s : State) (c : Code) : (s.appendCode c).decRem = s.decRem := by simp [State.appendCode]
@[simp] theorem appendCode_decCursor (s : State) (c : Code) : (s.appendCode c).decCursor = s.decCursor := by simp [State.appendCode]
@[simp] theorem appendCode_freq (s : State) (c : Code) : (s.appendCode c).freq = s.freq := by simp [State.appendCode]
@[simp] theorem appendCode_codes (s : State) (c : Code) : (s.appendCode c).codes = s.codes := by simp [State.appendCode]
@[simp] theorem appendCode_obuf (s : State) (c : Code) : (s.appendCode c).obuf = (emitAll s (completedBytes (encValue s c) (encTotal s c))).obuf := rfl
@[simp] theorem appendCode_obufDraw (s : State) (c : Code) : (s.appendCode c).obufDraw = s.obufDraw := by simp [State.appendCode]
@[simp] theorem appendCode_pending (s : State) (c : Code) : (s.appendCode c).pending = s.pending := by simp [State.appendCode]
@[simp] theorem appendCode_observed (s : State) (c : Code) : (s.appendCode c).observed = s.observed := by simp [State.appendCode]

/-! ### takeByte -/

@[simp] theorem takeByte_cfg (s : State) (cursor : Nat) (out : List Byte) : (s.takeByte cursor out).cfg = s.cfg := by simp [State.takeByte]
@[simp] theorem takeByte_arg (s : State) (cursor : Nat) (out : List Byte) : (s.takeByte cursor out).arg = s.arg := by simp [State.takeByte]
@[simp] theorem takeByte_errCode (s : State) (cursor : Nat) (out : List Byte) : (s.takeByte cursor out).errCode = s.errCode := by simp [State.takeByte]
@[simp] theorem takeByte_errInfo (s : State) (cursor : Nat) (out : List Byte) : (s.takeByte cursor out).errInfo = s.errInfo := by simp [State.takeByte]
@[simp] theorem takeByte_treeState (s : State) (cursor : Nat) (out : List Byte) : (s.takeByte cursor out).treeState = s.treeState := by simp [State.takeByte]
@[simp] theorem takeByte_codesValid (s : State) (cursor : Nat) (out : List Byte) : (s.takeByte cursor out).codesValid = s.codesValid := by simp [State.takeByte]
@[simp] theorem takeByte_encActive (s : State) (cursor : Nat) (out : List Byte) : (s.takeByte cursor out).encActive = s.encActive := by simp [State.takeByte]
@[simp] theorem takeByte_decActive (s : State) (cursor : Nat) (out : List Byte) : (s.takeByte cursor out).decActive = decide (0 < s.decRem.toNat - usefulNow s) := rfl
@[simp] theorem takeByte_nsym (s : State) (cursor : Nat) (out : List Byte) : (s.takeByte cursor out).nsym = s.nsym := by simp [State.takeByte]
@[simp] theorem takeByte_root (s : State) (cursor : Nat) (out : List Byte) : (s.takeByte cursor out).root = s.root := by simp [State.takeByte]
@[simp] theorem takeByte_arena (s : State) (cursor : Nat) (out : List Byte) : (s.takeByte cursor out).arena = s.arena := by simp [State.takeByte]
@[simp] theorem takeByte_outPtr (s : State) (cursor : Nat) (out : List Byte) : (s.takeByte cursor out).outPtr = (emitAll s out).outPtr := rfl
@[simp] theorem takeByte_encBytes (s : State) (cursor : Nat) (out : List Byte) : (s.takeByte cursor out).encBytes = s.encBytes := by simp [State.takeByte]
@[simp] theorem takeByte_encPad (s : State) (cursor : Nat) (out : List Byte) : (s.takeByte cursor out).encPad = s.encPad := by simp [State.takeByte]
@[simp] theorem takeByte_encAcc (s : State) (cursor : Nat) (out : List Byte) : (s.takeByte cursor out).encAcc = s.encAcc := by simp [State.takeByte]
@[simp] theorem takeByte_encNbits (s : State) (cursor : Nat) (out : List Byte) : (s.takeByte cursor out).encNbits = s.encNbits := by simp [State.takeByte]
@[simp] theorem takeByte_decRem (s : State) (cursor : Nat) (out : List Byte) : (s.takeByte cursor out).decRem = BitVec.ofNat 34 (s.decRem.toNat - usefulNow s) := rfl
@[simp] theorem takeByte_decCursor (s : State) (cursor : Nat) (out : List Byte) : (s.takeByte cursor out).decCursor = BitVec.ofNat 9 cursor := rfl
@[simp] theorem takeByte_freq (s : State) (cursor : Nat) (out : List Byte) : (s.takeByte cursor out).freq = s.freq := by simp [State.takeByte]
@[simp] theorem takeByte_codes (s : State) (cursor : Nat) (out : List Byte) : (s.takeByte cursor out).codes = s.codes := by simp [State.takeByte]
@[simp] theorem takeByte_obuf (s : State) (cursor : Nat) (out : List Byte) : (s.takeByte cursor out).obuf = (emitAll s out).obuf := rfl
@[simp] theorem takeByte_obufDraw (s : State) (cursor : Nat) (out : List Byte) : (s.takeByte cursor out).obufDraw = s.obufDraw := by simp [State.takeByte]
@[simp] theorem takeByte_pending (s : State) (cursor : Nat) (out : List Byte) : (s.takeByte cursor out).pending = s.pending := by simp [State.takeByte]
@[simp] theorem takeByte_observed (s : State) (cursor : Nat) (out : List Byte) : (s.takeByte cursor out).observed = s.observed := by simp [State.takeByte]

end Sys2Proof.Machine
end

