-- ==== Sys2Proof/Laws/Table.lean ====
section
/-! SUPPORT. What the sparse tables do: read after write, and that every operation keeps the canonical form. -/

namespace Sys2Proof.Machine

variable {α : Type}

theorem Table.find_nil (k : Nat) : Table.find ([] : Table α) k = none := rfl

theorem Table.find_put (t : Table α) (k : Nat) (v : α) (k' : Nat) :
    Table.find (Table.put t k v) k' = if k' = k then some v else Table.find t k' := by
  induction t with
  | nil => simp [Table.put, Table.find]
  | cons e t ih =>
    obtain ⟨ke, ve⟩ := e
    simp only [Table.put]
    split
    · simp [Table.find]
    · split
      · next h => subst h; simp only [Table.find]; split <;> rfl
      · next h1 h2 =>
        simp only [Table.find, ih]
        by_cases hk : k' = ke
        · subst hk; simp; omega
        · simp [hk]

theorem Table.mem_put {t : Table α} {k : Nat} {v : α} {e : Nat × α} (h : e ∈ Table.put t k v) :
    e = (k, v) ∨ e ∈ t := by
  induction t with
  | nil => simpa [Table.put] using h
  | cons e' t ih =>
    obtain ⟨ke, ve⟩ := e'
    simp only [Table.put] at h
    split at h
    · simpa using h
    · split at h
      · simp only [List.mem_cons] at h ⊢; tauto
      · simp only [List.mem_cons] at h ⊢
        rcases h with h | h
        · tauto
        · have := ih h; tauto

theorem Table.mem_drop {t : Table α} {k : Nat} {e : Nat × α} (h : e ∈ Table.drop t k) : e ∈ t := by
  induction t with
  | nil => simp [Table.drop] at h
  | cons e' t ih =>
    obtain ⟨ke, ve⟩ := e'
    simp only [Table.drop] at h
    split at h
    · exact List.mem_cons_of_mem _ h
    · simp only [List.mem_cons] at h ⊢
      exact h.imp id ih

theorem Table.sorted_cons {e : Nat × α} {t : Table α} :
    Table.sorted (e :: t) ↔ (∀ e' ∈ t, e.1 < e'.1) ∧ Table.sorted t := by
  simp [Table.sorted]

theorem Table.sorted_put {t : Table α} (h : Table.sorted t) (k : Nat) (v : α) :
    Table.sorted (Table.put t k v) := by
  induction t with
  | nil => simp [Table.put, Table.sorted]
  | cons e t ih =>
    obtain ⟨ke, ve⟩ := e
    rw [Table.sorted_cons] at h
    simp only [Table.put]
    split
    · next hk =>
      rw [Table.sorted_cons, Table.sorted_cons]
      refine ⟨fun e' he' => ?_, h⟩
      rcases List.mem_cons.mp he' with rfl | he'
      · exact hk
      · exact lt_trans hk (h.1 e' he')
    · split
      · next hk => subst hk; rw [Table.sorted_cons]; exact h
      · rw [Table.sorted_cons]
        refine ⟨fun e' he' => ?_, ih h.2⟩
        rcases Table.mem_put he' with rfl | he'
        · simp only; omega
        · exact h.1 e' he'

theorem Table.sorted_drop {t : Table α} (h : Table.sorted t) (k : Nat) : Table.sorted (Table.drop t k) := by
  induction t with
  | nil => simp [Table.drop, Table.sorted]
  | cons e t ih =>
    obtain ⟨ke, ve⟩ := e
    rw [Table.sorted_cons] at h
    simp only [Table.drop]
    split
    · exact h.2
    · rw [Table.sorted_cons]
      exact ⟨fun e' he' => h.1 e' (Table.mem_drop he'), ih h.2⟩

theorem Table.find_eq_none {t : Table α} {k : Nat} (h : ∀ e ∈ t, e.1 ≠ k) : Table.find t k = none := by
  induction t with
  | nil => rfl
  | cons e t ih =>
    obtain ⟨ke, ve⟩ := e
    have h1 : ke ≠ k := h _ (List.mem_cons_self ..)
    simp only [Table.find, if_neg (Ne.symm h1)]
    exact ih fun e' he' => h e' (List.mem_cons_of_mem _ he')

theorem Table.find_drop {t : Table α} (h : Table.sorted t) (k k' : Nat) :
    Table.find (Table.drop t k) k' = if k' = k then none else Table.find t k' := by
  induction t with
  | nil => simp [Table.drop, Table.find]
  | cons e t ih =>
    obtain ⟨ke, ve⟩ := e
    rw [Table.sorted_cons] at h
    simp only [Table.drop]
    split
    · next hk =>
      subst hk
      split
      · next hk' =>
        subst hk'
        exact Table.find_eq_none fun e' he' => Nat.ne_of_gt (h.1 e' he')
      · next hk' => simp [Table.find, hk']
    · next hk =>
      simp only [Table.find, ih h.2]
      by_cases h1 : k' = ke
      · subst h1
        have : k' ≠ k := fun h2 => hk h2.symm
        simp [this]
      · simp [h1]

theorem Table.mem_of_find {t : Table α} {k : Nat} {v : α} (h : Table.find t k = some v) : (k, v) ∈ t := by
  induction t with
  | nil => simp [Table.find] at h
  | cons e t ih =>
    obtain ⟨ke, ve⟩ := e
    simp only [Table.find] at h
    split at h
    · next hk => subst hk; simp_all
    · exact List.mem_cons_of_mem _ (ih h)

/-- Read after write: the value written at the place written, every other place as before. -/
theorem Table.read_write [DecidableEq α] {d : α} {t : Table α} (h : Table.wf d t) (k : Nat) (v : α) (k' : Nat) :
    Table.read d (Table.write d t k v) k' = if k' = k then v else Table.read d t k' := by
  simp only [Table.read, Table.write]
  split
  · next hv => subst hv; rw [Table.find_drop h.1]; split <;> simp
  · rw [Table.find_put]; split <;> simp

/-- A write keeps the canonical form. -/
theorem Table.wf_write [DecidableEq α] {d : α} {t : Table α} (h : Table.wf d t) (k : Nat) (v : α) :
    Table.wf d (Table.write d t k v) := by
  unfold Table.write
  split
  · exact ⟨Table.sorted_drop h.1 k, fun e he => h.2 e (Table.mem_drop he)⟩
  · next hv =>
    refine ⟨Table.sorted_put h.1 k v, fun e he => ?_⟩
    rcases Table.mem_put he with rfl | he
    · exact hv
    · exact h.2 e he

/-- A write lists at most one new index, the one written. -/
theorem Table.mem_write [DecidableEq α] {d : α} {t : Table α} {k : Nat} {v : α} {e : Nat × α}
    (h : e ∈ Table.write d t k v) : e = (k, v) ∨ e ∈ t := by
  unfold Table.write at h
  split at h
  · exact .inr (Table.mem_drop h)
  · exact Table.mem_put h

/-- A value other than the default is listed. -/
theorem Table.mem_of_read {d : α} {t : Table α} {k : Nat} (h : Table.read d t k ≠ d) :
    (k, Table.read d t k) ∈ t := by
  unfold Table.read at h ⊢
  cases hf : Table.find t k with
  | none => simp [hf] at h
  | some v => simpa using Table.mem_of_find hf

theorem Table.wf_nil (d : α) : Table.wf d ([] : Table α) :=
  ⟨List.Pairwise.nil, fun _ he => absurd he List.not_mem_nil⟩

end Sys2Proof.Machine
end

