-- ==== Sys2Proof/Laws/Memory.lean ====
section
/-! SUPPORT. What emitting bytes does to the output buffer, and the register files' read-after-write laws. -/

namespace Sys2Proof.Machine

theorem obufByte_congr {s t : State} (h1 : t.obuf = s.obuf) (h2 : t.obufDraw = s.obufDraw) (k : Nat) :
    obufByte t k = obufByte s k := by rw [obufByte, obufByte, h1, h2]

theorem obufByte_emit (s : State) (x : Byte) (k : Nat) :
    obufByte (emit s x) k = if k = s.outPtr.toNat then x else obufByte s k := by
  simp only [obufByte, emit_obuf, emit_obufDraw, Table.find_put]
  split <;> rfl

theorem emitAll_outPtr {s : State} {xs : List Byte} (h : s.outPtr.toNat + xs.length < 2 ^ 16) :
    (emitAll s xs).outPtr.toNat = s.outPtr.toNat + xs.length := by
  induction xs generalizing s with
  | nil => rfl
  | cons x xs ih =>
    rw [List.length_cons] at h
    have h1 : (emit s x).outPtr.toNat = s.outPtr.toNat + 1 := by
      rw [emit_outPtr, BitVec.toNat_add]
      exact Nat.mod_eq_of_lt (by simp; omega)
    rw [emitAll_cons, ih (by rw [h1]; omega), h1, List.length_cons]
    omega

/-- Emitting a list writes it at OUT_PTR upwards and nothing else (R19, R63). -/
theorem obufByte_emitAll {s : State} {xs : List Byte} (h : s.outPtr.toNat + xs.length < 2 ^ 16) (k : Nat) :
    obufByte (emitAll s xs) k =
      if s.outPtr.toNat ≤ k then (xs[k - s.outPtr.toNat]?).getD (obufByte s k) else obufByte s k := by
  induction xs generalizing s with
  | nil => simp [emitAll_nil]
  | cons x xs ih =>
    rw [List.length_cons] at h
    have h1 : (emit s x).outPtr.toNat = s.outPtr.toNat + 1 := by
      rw [emit_outPtr, BitVec.toNat_add]
      exact Nat.mod_eq_of_lt (by simp; omega)
    rw [emitAll_cons, ih (by rw [h1]; omega), h1, obufByte_emit]
    rcases Nat.lt_trichotomy k s.outPtr.toNat with hk | hk | hk
    · rw [if_neg (by omega), if_neg (by omega), if_neg (by omega)]
    · subst hk; simp
    · rw [if_pos (by omega), if_neg (by omega), if_pos (by omega),
        show k - s.outPtr.toNat = (k - (s.outPtr.toNat + 1)) + 1 by omega, List.getElem?_cons_succ]

theorem emit_wf {s : State} (h : Memory.wf s.obuf) (x : Byte) : Memory.wf (emit s x).obuf :=
  Table.sorted_put h _ _

theorem emitAll_wf {s : State} (h : Memory.wf s.obuf) (xs : List Byte) : Memory.wf (emitAll s xs).obuf := by
  induction xs generalizing s with
  | nil => exact h
  | cons x xs ih => exact ih (emit_wf h x)

theorem emitAll_bound {s : State} {xs : List Byte} {bound : Nat} (hb : bound < 2 ^ 16)
    (h : s.outPtr.toNat + xs.length ≤ bound) (hs : ∀ e ∈ s.obuf, e.1 < bound) :
    ∀ e ∈ (emitAll s xs).obuf, e.1 < bound := by
  induction xs generalizing s with
  | nil => exact hs
  | cons x xs ih =>
    rw [List.length_cons] at h
    have h1 : (emit s x).outPtr.toNat = s.outPtr.toNat + 1 := by
      rw [emit_outPtr, BitVec.toNat_add]
      exact Nat.mod_eq_of_lt (by simp; omega)
    refine ih (by rw [h1]; omega) fun e he => ?_
    rcases Table.mem_put he with rfl | he
    · simp only; omega
    · exact hs e he

theorem alphaSize_le (c : Config) : c.alphaSize ≤ 256 := by
  unfold Config.alphaSize Config.alphaLog2; cases c.alpha <;> decide

theorem alphaSize_ge (c : Config) : 128 ≤ c.alphaSize := by
  unfold Config.alphaSize Config.alphaLog2; cases c.alpha <;> decide

theorem obufBytes_le (c : Config) : c.obufBytes ≤ 32768 := by
  have h : c.obufLog2 ≤ 15 := by unfold Config.obufLog2; omega
  exact (Nat.pow_le_pow_right (by norm_num) h).trans (by norm_num)

theorem obufBytes_ge (c : Config) : 64 ≤ c.obufBytes := by
  have h : 6 ≤ c.obufLog2 := by unfold Config.obufLog2; omega
  exact le_trans (by norm_num) (Nat.pow_le_pow_right (by norm_num : 0 < 2) h)

/-- FREQ reads back what was written, and nothing else changes (R59). -/
theorem freqAt_writeFreq {s : State} (h : Table.wf 0 s.freq) (k : Nat) (v : Word) (k' : Nat) :
    freqAt (s.writeFreq k v).freq k' = if k' = k then v else freqAt s.freq k' :=
  Table.read_write h k v k'

end Sys2Proof.Machine
end

