-- ==== Sys2Proof/Laws/TreeBuilder.lean ====
section
/-! SUPPORT. What BUILD makes: the leaves are sorted and stable (R151), each merge takes the two lightest unmerged nodes (R157, R158), weights are exact sums within WEIGHT_W bits (R156), and the arena is a tree (R52). -/

namespace Sys2Proof.Machine

/-! ### The stable sort -/

/-- Comes before: by key, then by value (R151). -/
def Precedes (key : Nat → Nat) (a b : Nat) : Prop := key a < key b ∨ (key a = key b ∧ a < b)

theorem insertByKey_perm (key : Nat → Nat) (s : Nat) (l : List Nat) : (insertByKey key s l).Perm (s :: l) := by
  induction l with
  | nil => exact List.Perm.refl _
  | cons t rest ih =>
    simp only [insertByKey]
    split
    · exact List.Perm.refl _
    · exact (ih.cons t).trans (List.Perm.swap s t rest)

theorem stableSortBy_perm (key : Nat → Nat) (l : List Nat) : (stableSortBy key l).Perm l := by
  induction l with
  | nil => exact List.Perm.refl _
  | cons s rest ih => exact (insertByKey_perm key s _).trans (ih.cons s)

theorem insertByKey_sorted {key : Nat → Nat} {s : Nat} {l : List Nat} (hs : ∀ t ∈ l, s < t)
    (h : l.Pairwise (Precedes key)) : (insertByKey key s l).Pairwise (Precedes key) := by
  induction l with
  | nil => simp [insertByKey]
  | cons t rest ih =>
    rw [List.pairwise_cons] at h
    simp only [insertByKey]
    split
    · next hk =>
      refine List.pairwise_cons.mpr ⟨fun x hx => ?_, List.pairwise_cons.mpr h⟩
      have hsx := hs x hx
      rcases List.mem_cons.mp hx with rfl | hx'
      · unfold Precedes; omega
      · have := h.1 x hx'; unfold Precedes at *; omega
    · next hk =>
      refine List.pairwise_cons.mpr ⟨fun x hx => ?_, ih (fun t ht => hs t (List.mem_cons_of_mem _ ht)) h.2⟩
      rcases List.mem_cons.mp ((insertByKey_perm key s rest).mem_iff.mp hx) with rfl | hx'
      · unfold Precedes; omega
      · exact h.1 x hx'

/-- Sorting an ascending list is ascending by (key, value): equal keys keep their order. -/
theorem stableSortBy_sorted (key : Nat → Nat) {l : List Nat} (h : l.Pairwise (· < ·)) :
    (stableSortBy key l).Pairwise (Precedes key) := by
  induction l with
  | nil => exact List.Pairwise.nil
  | cons s rest ih =>
    rw [List.pairwise_cons] at h
    exact insertByKey_sorted (fun t ht => h.1 t ((stableSortBy_perm key rest).mem_iff.mp ht)) (ih h.2)

/-! ### The leaves -/

theorem mem_presentSymbols {c : Config} {freq : Table Word} {s : Nat} :
    s ∈ presentSymbols c freq ↔ s < c.alphaSize ∧ 0 < (freqAt freq s).toNat := by
  simp [presentSymbols]

theorem presentSymbols_ascending (c : Config) (freq : Table Word) :
    (presentSymbols c freq).Pairwise (· < ·) :=
  List.Pairwise.filter _ List.pairwise_lt_range

/-- The symbols in leaf order (R151). -/
def leafOrder (c : Config) (freq : Table Word) : List Nat :=
  stableSortBy (fun s => (freqAt freq s).toNat) (presentSymbols c freq)

theorem leafOrder_sorted (c : Config) (freq : Table Word) :
    (leafOrder c freq).Pairwise (Precedes fun s => (freqAt freq s).toNat) :=
  stableSortBy_sorted _ (presentSymbols_ascending c freq)

theorem mem_leafOrder {c : Config} {freq : Table Word} {s : Nat} :
    s ∈ leafOrder c freq ↔ s < c.alphaSize ∧ 0 < (freqAt freq s).toNat :=
  (stableSortBy_perm _ _).mem_iff.trans mem_presentSymbols

theorem sortedLeaves_eq (c : Config) (freq : Table Word) :
    sortedLeaves c freq = (leafOrder c freq).map (leafOf freq) := rfl

theorem length_sortedLeaves (c : Config) (freq : Table Word) :
    (sortedLeaves c freq).length = (presentSymbols c freq).length := by
  rw [sortedLeaves_eq, List.length_map]; exact (stableSortBy_perm _ _).length_eq

theorem length_leafOrder (c : Config) (freq : Table Word) :
    (leafOrder c freq).length = (sortedLeaves c freq).length := by
  rw [sortedLeaves_eq, List.length_map]

theorem length_sortedLeaves_le (c : Config) (freq : Table Word) :
    (sortedLeaves c freq).length ≤ c.alphaSize := by
  rw [length_sortedLeaves, presentSymbols]
  exact (List.length_filter_le _ _).trans (by simp)

theorem getElem?_sortedLeaves {c : Config} {freq : Table Word} {k : Nat} (h : k < (sortedLeaves c freq).length) :
    ∃ s, (leafOrder c freq)[k]? = some s ∧ (sortedLeaves c freq)[k]? = some (leafOf freq s)
      ∧ s < c.alphaSize ∧ 0 < (freqAt freq s).toNat := by
  have h' : k < (leafOrder c freq).length := by rw [length_leafOrder]; exact h
  have hm := mem_leafOrder.mp (List.getElem_mem h')
  exact ⟨(leafOrder c freq)[k], List.getElem?_eq_getElem h', by simp [sortedLeaves_eq, List.getElem?_eq_getElem h'],
    hm.1, hm.2⟩

/-! ### Weights -/

theorem weightAt_of {arena : List Node} {k : Nat} {nd : Node} (h : arena[k]? = some nd) :
    weightAt arena k = nd.weight := by simp [weightAt, h]

theorem weightAt_append {arena more : List Node} {k : Nat} (h : k < arena.length) :
    weightAt (arena ++ more) k = weightAt arena k := by
  simp [weightAt, List.getElem?_append_left h]

theorem childrenOf_append (xs ys : List Node) : childrenOf (xs ++ ys) = childrenOf xs ++ childrenOf ys := by
  induction xs with
  | nil => rfl
  | cons nd xs ih => cases nd <;> simp [childrenOf, ih]

theorem childrenOf_leaves (freq : Table Word) (l : List Nat) : childrenOf (l.map (leafOf freq)) = [] := by
  induction l with
  | nil => rfl
  | cons s l ih => simpa [childrenOf, leafOf] using ih

/-! ### The merge -/

/-- A node made and not yet merged: a leaf of the leaf queue, or an internal node of the internal queue (R152). -/
def Unmerged (n : Nat) (m : MergeState) (k : Nat) : Prop :=
  (m.i ≤ k ∧ k < n) ∨ (m.j ≤ k ∧ k < m.arena.length)

/-- No heavier, and no younger at the same weight (R158). -/
def NoLaterThan (arena : List Node) (a k : Nat) : Prop :=
  weightAt arena a < weightAt arena k ∨ (weightAt arena a = weightAt arena k ∧ a ≤ k)

theorem pick_cases (n : Nat) (m : MergeState) :
    (pick n m = (m.i, { m with i := m.i + 1 }) ∧ m.i < n ∧
      (m.j = m.arena.length ∨ weightAt m.arena m.i ≤ weightAt m.arena m.j)) ∨
    (pick n m = (m.j, { m with j := m.j + 1 }) ∧
      (n ≤ m.i ∨ (m.j ≠ m.arena.length ∧ weightAt m.arena m.j < weightAt m.arena m.i))) := by
  unfold pick
  split
  · next h => exact .inl ⟨rfl, h.1, h.2⟩
  · next h =>
    refine .inr ⟨rfl, ?_⟩
    by_contra hc
    push Not at hc
    refine h ⟨hc.1, ?_⟩
    by_cases hj : m.j = m.arena.length
    · exact .inl hj
    · exact .inr (hc.2 hj)

/-- Both queues are ascending by weight. -/
structure QueuesSorted (n : Nat) (m : MergeState) : Prop where
  leaf     : ∀ k k', m.i ≤ k → k ≤ k' → k' < n → weightAt m.arena k ≤ weightAt m.arena k'
  internal : ∀ k k', m.j ≤ k → k ≤ k' → k' < m.arena.length → weightAt m.arena k ≤ weightAt m.arena k'

/-- The bounds of the two fronts. -/
structure FrontsIn (n : Nat) (m : MergeState) : Prop where
  i_le : m.i ≤ n
  n_le : n ≤ m.j
  j_le : m.j ≤ m.arena.length

/-- The sum of the weights of the unmerged nodes. -/
def unmergedWeight (n : Nat) (m : MergeState) : Nat :=
  (∑ k ∈ Finset.Ico m.i n, weightAt m.arena k) + ∑ k ∈ Finset.Ico m.j m.arena.length, weightAt m.arena k

/-- The indices already merged. -/
def mergedIndices (n : Nat) (m : MergeState) : List Nat := List.range m.i ++ List.range' n (m.j - n)

/-- What a pick does when a node is left: it takes the lightest and oldest unmerged node (R157, R158). -/
structure PickSpec (n : Nat) (m : MergeState) (a : Nat) (m' : MergeState) : Prop where
  arena    : m'.arena = m.arena
  unmerged : Unmerged n m a
  rest     : ∀ k, Unmerged n m' k ↔ Unmerged n m k ∧ k ≠ a
  least    : ∀ k, Unmerged n m k → NoLaterThan m.arena a k
  count    : m'.i + m'.j = m.i + m.j + 1
  fronts   : FrontsIn n m'
  sorted   : QueuesSorted n m'
  weight   : unmergedWeight n m = weightAt m.arena a + unmergedWeight n m'
  merged   : (mergedIndices n m').Perm (a :: mergedIndices n m)

theorem pick_spec {n : Nat} {m : MergeState} (hf : FrontsIn n m) (hs : QueuesSorted n m)
    (hne : m.i < n ∨ m.j < m.arena.length) : PickSpec n m (pick n m).1 (pick n m).2 := by
  obtain ⟨h1, h2, h3⟩ := hf
  rcases pick_cases n m with ⟨hp, hi, hw⟩ | ⟨hp, hw⟩
  · rw [hp]
    refine ⟨rfl, .inl ⟨le_refl _, hi⟩, fun k => ?_, fun k hk => ?_, ?_, ⟨?_, h2, h3⟩, ⟨?_, ?_⟩, ?_, ?_⟩
    · simp only [Unmerged]; omega
    · simp only [NoLaterThan]
      rcases hk with hk | hk
      · have := hs.leaf m.i k (le_refl _) hk.1 hk.2; omega
      · have := hs.internal m.j k (le_refl _) hk.1 hk.2
        rcases hw with hw | hw <;> omega
    · simp only; omega
    · simp only; omega
    · intro k k' hk; exact hs.leaf k k' (by simp only at hk; omega)
    · exact hs.internal
    · simp only [unmergedWeight]
      rw [Finset.sum_eq_sum_Ico_succ_bot hi]; omega
    · simp only [mergedIndices, List.range_succ, List.append_assoc]
      exact (List.perm_middle).trans (List.Perm.refl _)
  · have hj : m.j < m.arena.length := by omega
    rw [hp]
    refine ⟨rfl, .inr ⟨le_refl _, hj⟩, fun k => ?_, fun k hk => ?_, ?_, ⟨h1, ?_, ?_⟩, ⟨?_, ?_⟩, ?_, ?_⟩
    · simp only [Unmerged]; omega
    · simp only [NoLaterThan]
      rcases hk with hk | hk
      · have := hs.leaf m.i k (le_refl _) hk.1 hk.2; omega
      · have := hs.internal m.j k (le_refl _) hk.1 hk.2; omega
    · simp only; omega
    · simp only; omega
    · simp only; omega
    · exact hs.leaf
    · intro k k' hk; exact hs.internal k k' (by simp only at hk; omega)
    · simp only [unmergedWeight]
      rw [Finset.sum_eq_sum_Ico_succ_bot hj]; omega
    · simp only [mergedIndices]
      rw [show m.j + 1 - n = (m.j - n) + 1 by omega, List.range'_concat, ← List.append_assoc]
      refine (List.perm_append_comm).trans ?_
      simp only [List.singleton_append]
      rw [show n + 1 * (m.j - n) = m.j by omega]

/-- What holds after t iterations of the merge of the leaves `L` (R152, R157). -/
structure MergeInv (L : List Node) (t : Nat) (m : MergeState) : Prop where
  len     : m.arena.length = L.length + t
  prefix_ : ∀ k, k < L.length → m.arena[k]? = L[k]?
  fronts  : FrontsIn L.length m
  count   : m.i + m.j = 2 * t + L.length
  newest  : 0 < t → m.j < m.arena.length
  nodes   : ∀ k, L.length ≤ k → k < m.arena.length →
    ∃ l r, m.arena[k]? = some (.internal (weightAt m.arena l + weightAt m.arena r) l r) ∧ l < k ∧ r < k
  merged  : (childrenOf m.arena).Perm (childrenOf L ++ mergedIndices L.length m)
  sorted  : QueuesSorted L.length m
  grown   : ∀ k k', L.length ≤ k → k ≤ k' → k' < m.arena.length → weightAt m.arena k ≤ weightAt m.arena k'
  pairs   : ∀ k a b, L.length ≤ k → k < m.arena.length → Unmerged L.length m a → Unmerged L.length m b → a ≠ b →
    weightAt m.arena k ≤ weightAt m.arena a + weightAt m.arena b
  weight  : unmergedWeight L.length m = ∑ k ∈ Finset.Ico 0 L.length, weightAt L k
  bound   : ∀ k, L.length ≤ k → k < m.arena.length → weightAt m.arena k ≤ ∑ k ∈ Finset.Ico 0 L.length, weightAt L k

/-- The leaves' weights ascend. -/
def LeavesAscend (L : List Node) : Prop := ∀ k k', k ≤ k' → k' < L.length → weightAt L k ≤ weightAt L k'

theorem mergeInv_start {L : List Node} (hL : LeavesAscend L) :
    MergeInv L 0 { arena := L, i := 0, j := L.length } := by
  refine ⟨rfl, fun _ _ => rfl, ⟨by simp, le_refl _, le_refl _⟩, by simp, by simp, ?_, ?_, ⟨?_, ?_⟩, ?_, ?_, ?_, ?_⟩
  · intro k h1 h2; simp only at h2; omega
  · simp [mergedIndices]
  · intro k k' _ h1 h2; exact hL k k' h1 h2
  · intro k k' h1 h2 h3; simp only at h1 h3; omega
  · intro k k' h1 h2 h3; simp only at h3; omega
  · intro k a b h1 h2; simp only at h2; omega
  · simp [unmergedWeight]
  · intro k h1 h2; simp only at h2; omega

/-- The two picks of one iteration, and the node made from them. -/
theorem mergeOnce_spec {L : List Node} {t : Nat} {m : MergeState} (hm : MergeInv L t m) (ht : t + 1 < L.length) :
    ∃ a b m₁ m₂, PickSpec L.length m a m₁ ∧ PickSpec L.length m₁ b m₂ ∧
      mergeOnce L.length m =
        { m₂ with arena := m.arena ++ [.internal (weightAt m.arena a + weightAt m.arena b) a b] } := by
  have hlen := hm.len
  have hcount := hm.count
  obtain ⟨h1, h2, h3⟩ := hm.fronts
  have hp1 := pick_spec hm.fronts hm.sorted (by omega)
  have hc1 := hp1.count
  have hf1 := hp1.fronts
  have hl1 : (pick L.length m).2.arena.length = m.arena.length := by rw [hp1.arena]
  have hp2 := pick_spec hp1.fronts hp1.sorted (by
    rw [hl1]; have := hf1.i_le; have := hf1.j_le; omega)
  refine ⟨_, _, _, _, hp1, hp2, ?_⟩
  simp only [mergeOnce, hp2.arena, hp1.arena]

theorem mergeInv_step {L : List Node} {t : Nat} {m : MergeState} (hm : MergeInv L t m) (ht : t + 1 < L.length) :
    MergeInv L (t + 1) (mergeOnce L.length m) := by
  obtain ⟨a, b, m₁, m₂, p1, p2, heq⟩ := mergeOnce_spec hm ht
  obtain ⟨f1, f2, f3⟩ := hm.fronts
  have hlen := hm.len
  have ha2 : m₂.arena = m.arena := by rw [p2.arena, p1.arena]
  have ha1 := p1.arena
  have hl2 : m₂.arena.length = m.arena.length := by rw [ha2]
  have hub : Unmerged L.length m b ∧ b ≠ a := (p1.rest b).mp p2.unmerged
  have hua := p1.unmerged
  have inArena : ∀ k, Unmerged L.length m k → k < m.arena.length := by
    intro k hk; unfold Unmerged at hk; omega
  have hal := inArena a hua
  have hbl := inArena b hub.1
  set A' := m.arena ++ [Node.internal (weightAt m.arena a + weightAt m.arena b) a b] with hA'
  have hlen' : A'.length = m.arena.length + 1 := by simp [hA']
  have wold : ∀ k, k < m.arena.length → weightAt A' k = weightAt m.arena k := fun k hk => weightAt_append hk
  have wnew : weightAt A' m.arena.length = weightAt m.arena a + weightAt m.arena b := by
    simp [hA', weightAt, Node.weight]
  -- the unmerged nodes afterwards
  have unm : ∀ k, Unmerged L.length { m₂ with arena := A' } k ↔
      (Unmerged L.length m k ∧ k ≠ a ∧ k ≠ b) ∨ k = m.arena.length := by
    intro k
    have e2 := p2.rest k
    have e1 := p1.rest k
    have hj := p2.fronts.j_le
    unfold Unmerged at e1 e2 ⊢
    simp only [hlen', ha1, hl2] at e1 e2 hj ⊢
    constructor
    · intro h
      by_cases hk : k = m.arena.length
      · exact .inr hk
      · refine .inl ?_
        have h2 := e2.mp (by omega)
        have h1 := e1.mp h2.1
        exact ⟨h1.1, h1.2, h2.2⟩
    · rintro (⟨hk, hka, hkb⟩ | hk)
      · have h2 := e2.mpr ⟨e1.mpr ⟨hk, hka⟩, hkb⟩
        omega
      · omega
  have bLe : ∀ k, Unmerged L.length m k → k ≠ a → weightAt m.arena b ≤ weightAt m.arena k := by
    intro k hk hka
    have := p2.least k ((p1.rest k).mpr ⟨hk, hka⟩)
    rw [ha1] at this; unfold NoLaterThan at this; omega
  have aLe : ∀ k, Unmerged L.length m k → weightAt m.arena a ≤ weightAt m.arena k := by
    intro k hk; have := p1.least k hk; unfold NoLaterThan at this; omega
  have oldLe : ∀ k, L.length ≤ k → k < m.arena.length →
      weightAt m.arena k ≤ weightAt m.arena a + weightAt m.arena b :=
    fun k h1 h2 => hm.pairs k a b h1 h2 hua hub.1 (Ne.symm hub.2)
  have grown : ∀ k k', L.length ≤ k → k ≤ k' → k' < A'.length → weightAt A' k ≤ weightAt A' k' := by
    intro k k' h1 h2 h3
    rw [hlen'] at h3
    by_cases hk' : k' = m.arena.length
    · subst hk'
      by_cases hk : k = m.arena.length
      · rw [hk]
      · rw [wold k (by omega), wnew]; exact oldLe k h1 (by omega)
    · rw [wold k (by omega), wold k' (by omega)]; exact hm.grown k k' h1 h2 (by omega)
  have wsum : weightAt m.arena a + weightAt m.arena b ≤ unmergedWeight L.length m := by
    rw [p1.weight, p2.weight, ha1]; omega
  have hf2 := p2.fronts
  rw [heq]
  refine ⟨?_, ?_, ⟨hf2.i_le, hf2.n_le, ?_⟩, ?_, ?_, ?_, ?_, ⟨?_, ?_⟩, grown, ?_, ?_, ?_⟩
  · simp only [hlen']; omega
  · intro k hk
    simp only [hA']
    rw [List.getElem?_append_left (by omega)]
    exact hm.prefix_ k hk
  · have := hf2.j_le; simp only [hlen']; omega
  · have c1 := p1.count; have c2 := p2.count; have := hm.count
    simp only; omega
  · intro _; have := hf2.j_le; simp only [hlen']; omega
  · intro k h1 h2
    simp only [hlen'] at h2
    by_cases hk : k = m.arena.length
    · subst hk
      exact ⟨a, b, by simp [hA', weightAt_append hal, weightAt_append hbl], hal, hbl⟩
    · obtain ⟨l, r, h3, h4, h5⟩ := hm.nodes k h1 (by omega)
      refine ⟨l, r, ?_, h4, h5⟩
      simp only
      rw [wold l (by omega), wold r (by omega), hA', List.getElem?_append_left (by omega)]
      exact h3
  · simp only [hA', childrenOf_append]
    have hperm : (mergedIndices L.length { m₂ with arena := A' }).Perm (b :: a :: mergedIndices L.length m) :=
      p2.merged.trans (p1.merged.cons b)
    have hc : childrenOf [Node.internal (weightAt m.arena a + weightAt m.arena b) a b] = [a, b] := rfl
    rw [hc]
    refine (hm.merged.append_right [a, b]).trans ?_
    rw [List.append_assoc]
    refine List.Perm.append_left _ (List.Perm.trans ?_ hperm.symm)
    exact (List.perm_append_comm).trans (List.Perm.swap b a _)
  · intro k k' h1 h2 h3
    simp only at h1
    rw [wold k (by omega), wold k' (by omega), ← ha2]
    exact p2.sorted.leaf k k' h1 h2 h3
  · intro k k' h1 h2 h3
    exact grown k k' (le_trans hf2.n_le h1) h2 h3
  · intro k x y h1 h2 hx hy hxy
    simp only at h2
    have hx' := (unm x).mp hx
    have hy' := (unm y).mp hy
    simp only
    rw [hlen'] at h2
    have hk : weightAt A' k ≤ weightAt m.arena a + weightAt m.arena b := by
      by_cases hk : k = m.arena.length
      · rw [hk, wnew]
      · rw [wold k (by omega)]; exact oldLe k h1 (by omega)
    rcases hx' with ⟨hx1, hx2, hx3⟩ | hx'
    · have := inArena x hx1
      rw [wold x this]
      rcases hy' with ⟨hy1, hy2, hy3⟩ | hy'
      · rw [wold y (inArena y hy1)]
        have := aLe x hx1; have := bLe y hy1 hy2; omega
      · rw [hy', wnew]; omega
    · rw [hx', wnew]; omega
  · rw [← hm.weight, p1.weight, p2.weight, ha1]
    have hj := hf2.j_le
    have hi := hf2.i_le
    rw [hl2] at hj
    simp only [unmergedWeight, hlen']
    have e1 : ∑ k ∈ Finset.Ico m₂.i L.length, weightAt A' k = ∑ k ∈ Finset.Ico m₂.i L.length, weightAt m₂.arena k := by
      refine Finset.sum_congr rfl fun k hk => ?_
      rw [Finset.mem_Ico] at hk
      rw [wold k (by omega), ha2]
    have e2 : ∑ k ∈ Finset.Ico m₂.j m.arena.length, weightAt A' k = ∑ k ∈ Finset.Ico m₂.j m.arena.length, weightAt m₂.arena k := by
      refine Finset.sum_congr rfl fun k hk => ?_
      rw [Finset.mem_Ico] at hk
      rw [wold k (by omega), ha2]
    rw [Finset.sum_Ico_succ_top hj, e1, e2, wnew, hl2]
    omega
  · intro k h1 h2
    simp only [hlen'] at h2
    simp only
    by_cases hk : k = m.arena.length
    · rw [hk, wnew, ← hm.weight]; exact wsum
    · rw [wold k (by omega)]; exact hm.bound k h1 (by omega)

theorem mergeTimes_succ (n k : Nat) (m : MergeState) :
    mergeTimes n (k + 1) m = mergeOnce n (mergeTimes n k m) := by
  induction k generalizing m with
  | zero => rfl
  | succ k ih => rw [mergeTimes, ih, ← mergeTimes]

/-- The merge after t iterations, for every t up to n − 1. -/
theorem mergeInv_times {L : List Node} (hL : LeavesAscend L) :
    ∀ t, t < L.length → MergeInv L t (mergeTimes L.length t { arena := L, i := 0, j := L.length })
  | 0, _ => mergeInv_start hL
  | t + 1, ht => by
    rw [mergeTimes_succ]
    exact mergeInv_step (mergeInv_times hL t (by omega)) ht

theorem sortedLeaves_ascend (c : Config) (freq : Table Word) : LeavesAscend (sortedLeaves c freq) := by
  intro k k' h1 h2
  obtain ⟨s, hs, hl, -, -⟩ := getElem?_sortedLeaves (c := c) (freq := freq) (k := k) (by omega)
  obtain ⟨s', hs', hl', -, -⟩ := getElem?_sortedLeaves h2
  rw [weightAt_of hl, weightAt_of hl']
  simp only [leafOf, Node.weight]
  rcases Nat.eq_or_lt_of_le h1 with rfl | hlt
  · rw [hs] at hs'; cases hs'; rfl
  · have hp := leafOrder_sorted c freq
    rw [List.pairwise_iff_getElem] at hp
    obtain ⟨b1, e1⟩ := List.getElem?_eq_some_iff.mp hs
    obtain ⟨b2, e2⟩ := List.getElem?_eq_some_iff.mp hs'
    have := hp k k' b1 b2 hlt
    rw [e1, e2] at this
    simp only [Precedes] at this
    omega

theorem sum_leaf_weights (c : Config) (freq : Table Word) :
    ∑ k ∈ Finset.Ico 0 (sortedLeaves c freq).length, weightAt (sortedLeaves c freq) k ≤ c.alphaSize * (2 ^ 32 - 1) := by
  have h : ∀ k ∈ Finset.Ico 0 (sortedLeaves c freq).length, weightAt (sortedLeaves c freq) k ≤ 2 ^ 32 - 1 := by
    intro k hk
    rw [Finset.mem_Ico] at hk
    obtain ⟨s, -, hl, -, -⟩ := getElem?_sortedLeaves hk.2
    rw [weightAt_of hl]
    have := (freqAt freq s).isLt
    simp only [leafOf, Node.weight]; omega
  refine (Finset.sum_le_card_nsmul _ _ _ h).trans ?_
  rw [Nat.card_Ico, smul_eq_mul, Nat.sub_zero]
  exact Nat.mul_le_mul_right _ (length_sortedLeaves_le c freq)

theorem weightBound_lt (c : Config) : c.alphaSize * (2 ^ 32 - 1) < 2 ^ c.weightW := by
  unfold Config.alphaSize Config.weightW Config.alphaLog2
  cases c.alpha <;> norm_num

/-- BUILD gives a well-formed tree over the present symbols, for every FREQ contents (R52, R151 to R157). -/
theorem buildArena_wf (c : Config) (freq : Table Word) :
    TreeWf c (sortedLeaves c freq).length (buildArena c freq) := by
  set L := sortedLeaves c freq with hLdef
  have hn : L.length ≤ c.alphaSize := length_sortedLeaves_le c freq
  have hsum : ∑ k ∈ Finset.Ico 0 L.length, weightAt L k < 2 ^ c.weightW :=
    lt_of_le_of_lt (sum_leaf_weights c freq) (weightBound_lt c)
  have h32 : 2 ^ 32 ≤ 2 ^ c.weightW := Nat.pow_le_pow_right (by norm_num) (by unfold Config.weightW; omega)
  rcases Nat.eq_zero_or_pos L.length with h0 | hpos
  · have hL0 : L = [] := List.length_eq_zero_iff.mp h0
    have hb : buildArena c freq = [] := by simp [buildArena, ← hLdef, hL0, mergeTimes]
    rw [hb, h0]
    refine ⟨rfl, Nat.zero_le _, fun k hk => absurd hk (by omega), fun k _ hk => absurd hk (by simp), ?_, ?_, ?_⟩
    · intro k k' sym w w' h; simp at h
    · exact List.Perm.refl _
    · intro nd h; simp at h
  · have hm := mergeInv_times (L := L) (sortedLeaves_ascend c freq) (L.length - 1) (by omega)
    have hb : buildArena c freq = (mergeTimes L.length (L.length - 1) { arena := L, i := 0, j := L.length }).arena := rfl
    set m := mergeTimes L.length (L.length - 1) { arena := L, i := 0, j := L.length }
    rw [hb]
    have hlen := hm.len
    have leafAt : ∀ k, k < L.length → ∃ s, (leafOrder c freq)[k]? = some s ∧ m.arena[k]? = some (leafOf freq s)
        ∧ s < c.alphaSize ∧ 0 < (freqAt freq s).toNat := by
      intro k hk
      obtain ⟨s, h1, h2, h3, h4⟩ := getElem?_sortedLeaves (c := c) (freq := freq) hk
      exact ⟨s, h1, (hm.prefix_ k hk).trans h2, h3, h4⟩
    have isInternal : ∀ k, L.length ≤ k → ∀ sym w, m.arena[k]? ≠ some (.leaf sym w) := by
      intro k hk sym w h
      have hkl : k < m.arena.length := (List.getElem?_eq_some_iff.mp h).1
      obtain ⟨l, r, h1, -, -⟩ := hm.nodes k hk hkl
      rw [h] at h1; cases h1
    have symOf : ∀ s, s < c.alphaSize → (BitVec.ofNat 8 s).toNat = s := fun s hs => by
      rw [BitVec.toNat_ofNat]; exact Nat.mod_eq_of_lt (lt_of_lt_of_le hs (alphaSize_le c))
    refine ⟨by omega, hn, ?_, hm.nodes, ?_, ?_, ?_⟩
    · intro k hk
      obtain ⟨s, -, h2, h3, h4⟩ := leafAt k hk
      exact ⟨_, _, h2, by rw [symOf s h3]; exact h3, h4, (freqAt freq s).isLt⟩
    · intro k k' sym w w' h h'
      have hk : k < L.length := by by_contra hc; exact isInternal k (by omega) _ _ h
      have hk' : k' < L.length := by by_contra hc; exact isInternal k' (by omega) _ _ h'
      obtain ⟨s, e1, e2, e3, -⟩ := leafAt k hk
      obtain ⟨s', e1', e2', e3', -⟩ := leafAt k' hk'
      rw [e2, leafOf] at h; rw [e2', leafOf] at h'
      cases h
      have hss : s' = s := by
        have : (BitVec.ofNat 8 s').toNat = (BitVec.ofNat 8 s).toNat := by
          have := Option.some.inj h'; rw [Node.leaf.injEq] at this; rw [this.1]
        rwa [symOf s e3, symOf s' e3'] at this
      subst hss
      have hnd : (leafOrder c freq).Nodup :=
        (leafOrder_sorted c freq).imp (by intro x y hxy hne; subst hne; unfold Precedes at hxy; omega)
      obtain ⟨b1, b2⟩ := List.getElem?_eq_some_iff.mp e1
      obtain ⟨b1', b2'⟩ := List.getElem?_eq_some_iff.mp e1'
      exact (hnd.getElem_inj_iff).mp (b2.trans b2'.symm)
    · refine hm.merged.trans ?_
      have hcl : childrenOf L = [] := by rw [hLdef, sortedLeaves_eq]; exact childrenOf_leaves _ _
      have hc := hm.count
      obtain ⟨q1, q2, q3⟩ := hm.fronts
      have hij : m.i = L.length ∧ m.j = 2 * L.length - 2 ∨ L.length = 1 ∧ m.i = 0 ∧ m.j = 1 := by
        rcases Nat.lt_or_ge 1 L.length with h1 | h1
        · have := hm.newest (by omega); omega
        · omega
      rw [hcl, List.nil_append, mergedIndices]
      rcases hij with ⟨hi, hj⟩ | ⟨h1, hi, hj⟩
      · rw [hi, hj, show 2 * L.length - 2 - L.length = L.length - 2 by omega, List.range_eq_range']
        rcases Nat.lt_or_ge 1 L.length with h1 | h1
        · have := List.range'_append (s := 0) (m := L.length) (n := L.length - 2) (step := 1)
          simp only [Nat.zero_add, Nat.one_mul] at this
          rw [this, List.range_eq_range', show L.length + (L.length - 2) = m.arena.length - 1 by omega]
        · omega
      · rw [hi, hj, h1, show m.arena.length - 1 = 0 by omega]; exact List.Perm.refl _
    · intro nd hnd
      obtain ⟨k, hk, hke⟩ := List.getElem_of_mem hnd
      have hw : weightAt m.arena k = nd.weight := weightAt_of (List.getElem?_eq_some_iff.mpr ⟨hk, hke⟩)
      rw [← hw]
      rcases Nat.lt_or_ge k L.length with hkl | hkl
      · obtain ⟨s, -, h2, -, -⟩ := leafAt k hkl
        rw [weightAt_of h2]
        exact lt_of_lt_of_le (freqAt freq s).isLt h32
      · exact lt_of_le_of_lt (hm.bound k hkl hk) hsum

end Sys2Proof.Machine
end

