-- ==== Sys2Proof/Laws/CodeExtractor.lean ====
section
/-! SUPPORT. Paths in a well-formed tree, the walk of EXTRACT over them, and the code table it writes (R171 to R174). -/

namespace Sys2Proof.Machine

/-! ### Paths -/

theorem descend_nil (arena : List Node) (i : Nat) : descend arena i [] = some i := rfl

theorem descend_cons (arena : List Node) (i : Nat) (bit : Bool) (p : BitString) :
    descend arena i (bit :: p) = (childAt arena i bit).bind fun k => descend arena k p := by
  simp only [descend]; cases childAt arena i bit <;> rfl

theorem descend_append (arena : List Node) (i : Nat) (p q : BitString) :
    descend arena i (p ++ q) = (descend arena i p).bind fun k => descend arena k q := by
  induction p generalizing i with
  | nil => rfl
  | cons bit p ih =>
    rw [List.cons_append, descend_cons, descend_cons]
    cases childAt arena i bit with
    | none => rfl
    | some k => exact ih k

theorem childAt_eq_some {arena : List Node} {i k : Nat} {bit : Bool} (h : childAt arena i bit = some k) :
    ∃ w l r, arena[i]? = some (.internal w l r) ∧ k = if bit = true then r else l := by
  unfold childAt at h
  split at h
  · next w l r hi => exact ⟨w, l, r, hi, (Option.some.inj h).symm⟩
  · simp at h
  · simp at h

theorem childAt_internal {arena : List Node} {i w l r : Nat} (h : arena[i]? = some (.internal w l r)) (bit : Bool) :
    childAt arena i bit = some (if bit = true then r else l) := by simp [childAt, h]

theorem childAt_leaf {arena : List Node} {i w : Nat} {sym : Byte} (h : arena[i]? = some (.leaf sym w)) (bit : Bool) :
    childAt arena i bit = none := by simp [childAt, h]

/-- No path goes on below a leaf. -/
theorem descend_leaf {arena : List Node} {i w k : Nat} {sym : Byte} {p : BitString}
    (h : arena[i]? = some (.leaf sym w)) (hp : descend arena i p = some k) : p = [] ∧ k = i := by
  cases p with
  | nil => exact ⟨rfl, (Option.some.inj hp).symm⟩
  | cons bit p => rw [descend_cons, childAt_leaf h] at hp; simp at hp

/-! ### Children -/

theorem childrenOf_split {arena : List Node} {a w l r : Nat} (h : arena[a]? = some (.internal w l r)) :
    childrenOf arena = childrenOf (arena.take a) ++ l :: r :: childrenOf (arena.drop (a + 1)) := by
  obtain ⟨ha, hae⟩ := List.getElem?_eq_some_iff.mp h
  conv_lhs => rw [← List.take_append_drop a arena, childrenOf_append, List.drop_eq_getElem_cons ha, hae]
  rfl

theorem mem_childrenOf_of_childAt {arena : List Node} {a k : Nat} {bit : Bool} (h : childAt arena a bit = some k) :
    k ∈ childrenOf arena := by
  obtain ⟨w, l, r, hi, rfl⟩ := childAt_eq_some h
  rw [childrenOf_split hi]
  cases bit <;> simp

theorem childAt_of_mem_childrenOf {arena : List Node} {k : Nat} (h : k ∈ childrenOf arena) :
    ∃ a bit, childAt arena a bit = some k := by
  induction arena with
  | nil => simp [childrenOf] at h
  | cons nd rest ih =>
    have shift : k ∈ childrenOf rest → ∃ a bit, childAt (nd :: rest) a bit = some k := fun h' => by
      obtain ⟨a, bit, ha⟩ := ih h'
      exact ⟨a + 1, bit, by simpa [childAt] using ha⟩
    cases nd with
    | leaf sym w => exact shift (by simpa [childrenOf] using h)
    | internal w l r =>
      simp only [childrenOf, List.mem_cons] at h
      rcases h with rfl | rfl | h
      · exact ⟨0, false, rfl⟩
      · exact ⟨0, true, rfl⟩
      · exact shift h

theorem childAt_unique {arena : List Node} (hn : (childrenOf arena).Nodup) {a a' k : Nat} {bit bit' : Bool}
    (h : childAt arena a bit = some k) (h' : childAt arena a' bit' = some k) : a = a' ∧ bit = bit' := by
  have later : ∀ {a a' : Nat} {bit bit' : Bool}, childAt arena a bit = some k → childAt arena a' bit' = some k →
      a < a' → False := by
    intro a a' bit bit' h h' hlt
    obtain ⟨w, l, r, hi, hk⟩ := childAt_eq_some h
    have hk' : k ∈ childrenOf (arena.drop (a + 1)) := by
      refine mem_childrenOf_of_childAt (a := a' - (a + 1)) (bit := bit') ?_
      simpa [childAt, List.getElem?_drop, show a + 1 + (a' - (a + 1)) = a' by omega] using h'
    rw [childrenOf_split hi, List.nodup_append] at hn
    have h2 := hn.2.1
    rw [List.nodup_cons, List.nodup_cons] at h2
    cases bit with
    | false => exact h2.1 (List.mem_cons_of_mem _ (by simpa [hk] using hk'))
    | true => exact h2.2.1 (by simpa [hk] using hk')
  rcases Nat.lt_trichotomy a a' with hlt | heq | hlt
  · exact (later h h' hlt).elim
  · subst heq
    refine ⟨rfl, ?_⟩
    obtain ⟨w, l, r, hi, hk⟩ := childAt_eq_some h
    rw [childAt_internal hi] at h'
    have hk' := Option.some.inj h'
    rw [childrenOf_split hi, List.nodup_append] at hn
    have h2 := hn.2.1
    rw [List.nodup_cons] at h2
    have hlr : l ≠ r := fun hlr => h2.1 (by simp [hlr])
    cases bit <;> cases bit' <;> simp_all
  · exact (later h' h hlt).elim

/-! ### Well-formed trees -/

section Tree

variable {c : Config} {n : Nat} {arena : List Node}

theorem TreeWf.nodup (h : TreeWf c n arena) : (childrenOf arena).Nodup :=
  h.owned.nodup_iff.mpr List.nodup_range

theorem TreeWf.child_lt (h : TreeWf c n arena) {i k : Nat} {bit : Bool} (hc : childAt arena i bit = some k) :
    n ≤ i ∧ k < i ∧ i < arena.length := by
  obtain ⟨w, l, r, hi, hk⟩ := childAt_eq_some hc
  have hl := (List.getElem?_eq_some_iff.mp hi).1
  have hni : n ≤ i := by
    by_contra hlt
    obtain ⟨sym, w', h1, -⟩ := h.leaves i (by omega)
    rw [h1] at hi; cases hi
  obtain ⟨l', r', h1, h2, h3⟩ := h.internals i hni hl
  rw [h1] at hi; cases hi
  exact ⟨hni, by cases bit <;> simp_all, hl⟩

theorem TreeWf.child_exists (h : TreeWf c n arena) {i : Nat} (h1 : n ≤ i) (h2 : i < arena.length) (bit : Bool) :
    ∃ k, childAt arena i bit = some k := by
  obtain ⟨l, r, hi, -, -⟩ := h.internals i h1 h2
  exact ⟨_, childAt_internal hi bit⟩

/-- A path from entry `i` is at most `i + 1 − n` long (R14). -/
theorem TreeWf.depth_le (h : TreeWf c n arena) {i k : Nat} {p : BitString} (hp : descend arena i p = some k) :
    p.length ≤ i + 1 - n := by
  induction p generalizing i with
  | nil => simp
  | cons bit p ih =>
    rw [descend_cons] at hp
    cases hc : childAt arena i bit with
    | none => rw [hc] at hp; simp at hp
    | some j =>
      rw [hc] at hp
      have := ih hp
      have := h.child_lt hc
      simp only [List.length_cons]; omega

theorem TreeWf.descend_lt (h : TreeWf c n arena) {i k : Nat} {p : BitString} (hi : i < arena.length)
    (hp : descend arena i p = some k) : k < arena.length := by
  induction p generalizing i with
  | nil => cases hp; exact hi
  | cons bit p ih =>
    rw [descend_cons] at hp
    cases hc : childAt arena i bit with
    | none => rw [hc] at hp; simp at hp
    | some j =>
      rw [hc] at hp
      have := h.child_lt hc
      exact ih (by omega) hp

/-- Two paths from the root to one entry are the same path. -/
theorem TreeWf.path_unique (h : TreeWf c n arena) {p p' : BitString} {k : Nat}
    (hp : descend arena (arena.length - 1) p = some k) (hp' : descend arena (arena.length - 1) p' = some k) :
    p = p' := by
  have notRoot : ∀ {q : BitString} {bit : Bool}, descend arena (arena.length - 1) (q ++ [bit]) ≠ some (arena.length - 1) := by
    intro q bit hq
    rw [descend_append] at hq
    cases hd : descend arena (arena.length - 1) q with
    | none => rw [hd] at hq; simp at hq
    | some a =>
      rw [hd] at hq
      simp only [Option.bind_some, descend_cons] at hq
      cases hc : childAt arena a bit with
      | none => rw [hc] at hq; simp at hq
      | some j =>
        rw [hc] at hq
        simp only [Option.bind_some, descend_nil, Option.some.injEq] at hq
        subst hq
        have := h.owned.mem_iff.mp (mem_childrenOf_of_childAt hc)
        simp at this
  have last : ∀ {q : BitString} {bit : Bool} {k : Nat}, descend arena (arena.length - 1) (q ++ [bit]) = some k →
      ∃ a, descend arena (arena.length - 1) q = some a ∧ childAt arena a bit = some k := by
    intro q bit k hq
    rw [descend_append] at hq
    cases hd : descend arena (arena.length - 1) q with
    | none => rw [hd] at hq; simp at hq
    | some a =>
      rw [hd] at hq
      simp only [Option.bind_some, descend_cons] at hq
      refine ⟨a, rfl, ?_⟩
      cases hc : childAt arena a bit with
      | none => rw [hc] at hq; simp at hq
      | some j => rw [hc] at hq; simpa [descend_nil] using hq
  induction p using List.reverseRecOn generalizing p' k with
  | nil =>
    cases hp
    rcases List.eq_nil_or_concat p' with rfl | ⟨q, bit, rfl⟩
    · rfl
    · simp only [List.concat_eq_append] at hp'; exact (notRoot hp').elim
  | append_singleton q bit ih =>
    rcases List.eq_nil_or_concat p' with rfl | ⟨q', bit', rfl⟩
    · cases hp'; exact (notRoot hp).elim
    · simp only [List.concat_eq_append] at hp' ⊢
      obtain ⟨a, ha, hc⟩ := last hp
      obtain ⟨a', ha', hc'⟩ := last hp'
      obtain ⟨rfl, rfl⟩ := childAt_unique h.nodup hc hc'
      rw [ih ha ha']

/-- Every entry is reached from the root. -/
theorem TreeWf.reachable (h : TreeWf c n arena) {k : Nat} (hk : k < arena.length) :
    ∃ p, descend arena (arena.length - 1) p = some k := by
  induction hd : arena.length - 1 - k using Nat.strong_induction_on generalizing k with
  | _ d ih =>
    rcases Nat.lt_or_ge k (arena.length - 1) with hlt | hge
    · have hm : k ∈ childrenOf arena := h.owned.mem_iff.mpr (by simpa using hlt)
      obtain ⟨a, bit, hc⟩ := childAt_of_mem_childrenOf hm
      have := h.child_lt hc
      obtain ⟨p, hp⟩ := ih (arena.length - 1 - a) (by omega) (k := a) (by omega) rfl
      exact ⟨p ++ [bit], by rw [descend_append, hp]; simp [descend_cons, hc, descend_nil]⟩
    · exact ⟨[], by rw [show k = arena.length - 1 by omega]; rfl⟩

/-! ### The walk -/

theorem TreeWf.walk_some (h : TreeWf c n arena) {fuel i : Nat} (hf : i < fuel) (hi : i < arena.length)
    (p : BitString) : ∃ es, walk arena fuel i p = some es := by
  induction fuel generalizing i p with
  | zero => omega
  | succ fuel ih =>
    rcases Nat.lt_or_ge i n with hlt | hge
    · obtain ⟨sym, w, h1, -⟩ := h.leaves i hlt
      exact ⟨_, by rw [walk, h1]⟩
    · obtain ⟨l, r, h1, h2, h3⟩ := h.internals i hge hi
      obtain ⟨ls, hl⟩ := ih (i := l) (by omega) (by omega) (p ++ [false])
      obtain ⟨rs, hr⟩ := ih (i := r) (by omega) (by omega) (p ++ [true])
      exact ⟨ls ++ rs, by rw [walk, h1]; simp only [hl, hr]⟩

end Tree

/-- The walk lists exactly the leaves below an entry, each with the path that leads to it (R171). -/
theorem mem_walk {arena : List Node} {fuel i : Nat} {p : BitString} {es : List (Nat × BitString)}
    (h : walk arena fuel i p = some es) (e : Nat × BitString) :
    e ∈ es ↔ ∃ r sym, IsLeafPath arena i r sym ∧ e = (sym.toNat, p ++ r) := by
  induction fuel generalizing i p es with
  | zero => simp [walk] at h
  | succ fuel ih =>
    rw [walk] at h
    split at h
    · simp at h
    · next sym w hi =>
      cases h
      simp only [List.mem_singleton]
      constructor
      · rintro rfl
        exact ⟨[], sym, ⟨i, w, rfl, hi⟩, by simp⟩
      · rintro ⟨r, sym', ⟨k, w', hd, hk⟩, rfl⟩
        obtain ⟨rfl, rfl⟩ := descend_leaf hi hd
        rw [hi] at hk; cases hk; simp
    · next w l r hi =>
      split at h
      · simp at h
      · next ls hl =>
        split at h
        · simp at h
        · next rs hr =>
          cases h
          rw [List.mem_append, ih hl, ih hr]
          constructor
          · rintro (⟨q, sym, ⟨k, w', hd, hk⟩, rfl⟩ | ⟨q, sym, ⟨k, w', hd, hk⟩, rfl⟩)
            · exact ⟨false :: q, sym, ⟨k, w', by rw [descend_cons, childAt_internal hi]; exact hd, hk⟩, by simp⟩
            · exact ⟨true :: q, sym, ⟨k, w', by rw [descend_cons, childAt_internal hi]; exact hd, hk⟩, by simp⟩
          · rintro ⟨q, sym, ⟨k, w', hd, hk⟩, rfl⟩
            cases q with
            | nil => cases hd; rw [hi] at hk; cases hk
            | cons bit q =>
              rw [descend_cons, childAt_internal hi] at hd
              cases bit with
              | false => exact .inl ⟨q, sym, ⟨k, w', hd, hk⟩, by simp⟩
              | true => exact .inr ⟨q, sym, ⟨k, w', hd, hk⟩, by simp⟩

/-! ### The code table -/

theorem writeCodes_cons (t : Table Code) (e : Nat × Code) (es : List (Nat × Code)) :
    writeCodes t (e :: es) = writeCodes (Table.write noCode t e.1 e.2) es := rfl

theorem writeCodes_wf {t : Table Code} (h : Table.wf noCode t) (es : List (Nat × Code)) :
    Table.wf noCode (writeCodes t es) := by
  induction es generalizing t with
  | nil => exact h
  | cons e es ih => rw [writeCodes_cons]; exact ih (Table.wf_write h _ _)

theorem mem_writeCodes {t : Table Code} {es : List (Nat × Code)} {e : Nat × Code} (h : e ∈ writeCodes t es) :
    e ∈ t ∨ e ∈ es := by
  induction es generalizing t with
  | nil => exact .inl h
  | cons e' es ih =>
    rw [writeCodes_cons] at h
    rcases ih h with h | h
    · rcases Table.mem_write h with h | h
      · exact .inr (h ▸ List.mem_cons_self)
      · exact .inl h
    · exact .inr (List.mem_cons_of_mem _ h)

/-- A symbol whose entries in the list all say `v` reads `v`; a symbol with none reads as before. -/
theorem codeAt_writeCodes {t : Table Code} (h : Table.wf noCode t) {es : List (Nat × Code)} {s : Nat} {v : Code}
    (hv : ∀ e ∈ es, e.1 = s → e.2 = v) (hs : codeAt t s = v ∨ ∃ e ∈ es, e.1 = s) :
    codeAt (writeCodes t es) s = v := by
  induction es generalizing t with
  | nil =>
    rcases hs with hs | ⟨e, he, -⟩
    · exact hs
    · simp at he
  | cons e es ih =>
    rw [writeCodes_cons]
    refine ih (Table.wf_write h _ _) (fun e' he' => hv e' (List.mem_cons_of_mem _ he')) ?_
    rw [codeAt, Table.read_write h]
    by_cases hes : s = e.1
    · left; rw [if_pos hes]; exact hv e List.mem_cons_self hes.symm
    · rw [if_neg hes]
      rcases hs with hs | ⟨e', he', hk⟩
      · exact .inl hs
      · rcases List.mem_cons.mp he' with rfl | he'
        · exact absurd hk.symm hes
        · exact .inr ⟨e', he', hk⟩

theorem codeAt_nil (s : Nat) : codeAt [] s = noCode := rfl

/-- A listed entry is what its symbol reads, and an unlisted symbol has no code. -/
theorem codeAt_mem {t : Table Code} {s : Nat} (h : codeAt t s ≠ noCode) : (s, codeAt t s) ∈ t :=
  Table.mem_of_read h

/-- EXTRACT on a tree of two or more leaves: the code of a leaf's symbol is its path, and every other symbol has no
code (R171, R173). -/
theorem treeCodes_multi {c : Config} {n : Nat} {arena : List Node} (h : TreeWf c n arena) (hn : 2 ≤ n) :
    ∃ t, treeCodes .multi arena (2 * n - 2) = some t ∧ CodesWf c t ∧
      (∀ p sym, IsLeafPath arena (2 * n - 2) p sym → codeAt t sym.toNat = codeOfPath p) ∧
      (∀ s, codeAt t s ≠ noCode → ∃ p sym, IsLeafPath arena (2 * n - 2) p sym ∧ sym.toNat = s) := by
  have hsize := h.size
  have hroot : 2 * n - 2 = arena.length - 1 := by omega
  have hc256 := alphaSize_le c
  obtain ⟨es, hes⟩ := h.walk_some (fuel := 2 * n - 2 + 1) (i := 2 * n - 2) (by omega) (by omega) []
  have hmem := mem_walk hes
  simp only [List.nil_append] at hmem
  have rootInternal : ∀ {p : BitString} {sym : Byte}, IsLeafPath arena (2 * n - 2) p sym → 0 < p.length := by
    rintro p sym ⟨k, w, hd, hk⟩
    cases p with
    | nil =>
      cases hd
      obtain ⟨l, r, h1, -, -⟩ := h.internals (2 * n - 2) (by omega) (by omega)
      rw [h1] at hk; cases hk
    | cons => simp
  have depth : ∀ {p : BitString} {sym : Byte}, IsLeafPath arena (2 * n - 2) p sym → p.length ≤ n - 1 := by
    rintro p sym ⟨k, w, hd, hk⟩
    have := h.depth_le hd; omega
  have lenOf : ∀ {p : BitString} {sym : Byte}, IsLeafPath arena (2 * n - 2) p sym → (codeOfPath p).len.toNat = p.length := by
    intro p sym hp
    have := depth hp; have := h.fits
    simp only [codeOfPath, BitVec.toNat_ofNat]
    exact Nat.mod_eq_of_lt (by omega)
  have bitsOfPath : ∀ {p : BitString} {sym : Byte}, IsLeafPath arena (2 * n - 2) p sym → (codeOfPath p).bits.toNat = valOf p := by
    intro p sym hp
    have := depth hp; have := h.fits
    simp only [codeOfPath, BitVec.toNat_ofNat]
    exact Nat.mod_eq_of_lt (lt_of_lt_of_le (valOf_lt p) (Nat.pow_le_pow_right (by norm_num) (by omega)))
  have unique : ∀ {p p' : BitString} {sym sym' : Byte}, IsLeafPath arena (2 * n - 2) p sym →
      IsLeafPath arena (2 * n - 2) p' sym' → sym.toNat = sym'.toNat → p = p' := by
    rintro p p' sym sym' ⟨k, w, hd, hk⟩ ⟨k', w', hd', hk'⟩ hs
    have hss : sym = sym' := BitVec.eq_of_toNat_eq hs
    subst hss
    have hkk := h.symbols k k' sym w w' hk hk'
    subst hkk
    rw [hroot] at hd hd'
    exact h.path_unique hd hd'
  refine ⟨writeCodes [] (es.map fun e => (e.1, codeOfPath e.2)), by simp only [treeCodes, hes],
    ⟨writeCodes_wf (Table.wf_nil _) _, ?_⟩, ?_, ?_⟩
  · intro e he
    rcases mem_writeCodes he with he | he
    · simp at he
    · obtain ⟨e', he', rfl⟩ := List.mem_map.mp he
      obtain ⟨p, sym, hp, rfl⟩ := (hmem e').mp he'
      have hsym : sym.toNat < c.alphaSize := by
        obtain ⟨k, w, hd, hk⟩ := hp
        have hkn : k < n := by
          by_contra hge
          have hkl := (List.getElem?_eq_some_iff.mp hk).1
          obtain ⟨l, r, h1, -, -⟩ := h.internals k (by omega) hkl
          rw [h1] at hk; cases hk
        obtain ⟨sym', w', h1, h2, -⟩ := h.leaves k hkn
        rw [h1] at hk; cases hk; exact h2
      have := rootInternal hp; have := depth hp; have := h.fits
      refine ⟨hsym, ?_, ?_, ?_⟩
      · simp only [lenOf hp]; omega
      · simp only [lenOf hp, Config.maxCodeLen]; omega
      · simp only [lenOf hp, bitsOfPath hp]; exact valOf_lt p
  · intro p sym hp
    refine codeAt_writeCodes (Table.wf_nil _) ?_ (.inr ?_)
    · intro e he hes'
      obtain ⟨e', he', rfl⟩ := List.mem_map.mp he
      obtain ⟨p', sym', hp', rfl⟩ := (hmem e').mp he'
      simp only at hes' ⊢
      rw [unique hp' hp hes']
    · exact ⟨(sym.toNat, codeOfPath p), List.mem_map.mpr ⟨(sym.toNat, p), (hmem _).mpr ⟨p, sym, hp, rfl⟩, rfl⟩, rfl⟩
  · intro s hs
    rcases mem_writeCodes (codeAt_mem hs) with he | he
    · simp at he
    · obtain ⟨e', he', heq⟩ := List.mem_map.mp he
      obtain ⟨p, sym, hp, rfl⟩ := (hmem e').mp he'
      exact ⟨p, sym, hp, by simpa using congrArg Prod.fst heq⟩

/-- EXTRACT on a single leaf: the sole symbol has the 1-bit code "0" (R172). -/
theorem treeCodes_single {c : Config} {arena : List Node} (h : TreeWf c 1 arena) :
    ∃ sym w t, arena = [.leaf sym w] ∧ treeCodes .single arena 0 = some t ∧ CodesWf c t ∧
      codeAt t sym.toNat = { len := 1, bits := 0 } ∧ ∀ s, s ≠ sym.toNat → codeAt t s = noCode := by
  obtain ⟨sym, w, h1, h2, -, -⟩ := h.leaves 0 (by omega)
  have hsize := h.size
  have harena : arena = [.leaf sym w] := by
    match arena, hsize, h1 with
    | [nd], _, h1 => simpa using h1
  have hone : ({ len := 1, bits := 0 } : Code) ≠ noCode := by decide
  refine ⟨sym, w, _, harena, by rw [harena]; rfl, ⟨writeCodes_wf (Table.wf_nil _) _, ?_⟩, ?_, ?_⟩
  · intro e he
    rcases mem_writeCodes he with he | he
    · simp at he
    · rw [List.mem_singleton] at he; subst he
      have := alphaSize_ge c
      exact ⟨h2, by show 0 < (1 : BitVec 9).toNat; decide, by simp [Config.maxCodeLen]; omega,
        by show (0 : BitVec 256).toNat < 2 ^ (1 : BitVec 9).toNat; decide⟩
  · exact codeAt_writeCodes (Table.wf_nil _) (by simp) (.inr ⟨_, List.mem_singleton.mpr rfl, rfl⟩)
  · intro s hs
    exact codeAt_writeCodes (Table.wf_nil _) (by simpa using fun h => absurd h.symm hs) (.inl rfl)

end Sys2Proof.Machine
end

