-- ==== Sys2Proof/Laws/Encoder.lean ====
section
/-! SUPPORT. The encoder packs the code bits in order: what ENC.SYM and ENC.FLUSH emit, bit for bit (R191 to R197). -/

namespace Sys2Proof.Machine

/-- The bits of a byte sequence, in stream order (R77). -/
def streamBits (bytes : List Byte) : BitString := (bytes.map byteBits).flatten

theorem streamBits_cons (x : Byte) (xs : List Byte) : streamBits (x :: xs) = byteBits x ++ streamBits xs := rfl

theorem streamBits_append (xs ys : List Byte) : streamBits (xs ++ ys) = streamBits xs ++ streamBits ys := by
  simp [streamBits]

theorem length_streamBits (xs : List Byte) : (streamBits xs).length = 8 * xs.length := by
  induction xs with
  | nil => rfl
  | cons x xs ih => rw [streamBits_cons, List.length_append, length_byteBits, ih, List.length_cons]; omega

theorem bitsOf_split (x a b : Nat) : bitsOf x (a + b) = bitsOf (x >>> b) a ++ bitsOf x b := by
  conv_lhs => rw [← Nat.div_add_mod x (2 ^ b), Nat.mul_comm, bitsOf_add_mul (Nat.mod_lt _ (by positivity))]
  rw [Nat.shiftRight_eq_div_pow, bitsOf_mod (le_refl b)]

theorem completedBytes_small {x t : Nat} (h : t < 8) : completedBytes x t = [] := by
  simp [completedBytes, Nat.div_eq_of_lt h]

theorem completedBytes_add (x t : Nat) :
    completedBytes x (t + 8) = BitVec.ofNat 8 (x >>> t) :: completedBytes x t := by
  have h8 : (t + 8) / 8 = t / 8 + 1 := by omega
  simp only [completedBytes, h8, List.range_succ_eq_map, List.map_cons, List.map_map]
  congr 1
  refine List.map_congr_left fun q _ => ?_
  simp only [Function.comp_apply]
  congr 2; omega

@[simp] theorem length_completedBytes (x t : Nat) : (completedBytes x t).length = t / 8 := by simp [completedBytes]

/-- The completed bytes and the bits left over are the T bits of X, in order (R193). -/
theorem streamBits_completedBytes (x t : Nat) :
    streamBits (completedBytes x t) ++ bitsOf (x % 2 ^ (t % 8)) (t % 8) = bitsOf x t := by
  induction ht : t / 8 generalizing t with
  | zero =>
    have hlt : t < 8 := by omega
    rw [completedBytes_small hlt, Nat.mod_eq_of_lt hlt, bitsOf_mod (le_refl t)]; rfl
  | succ k ih =>
    obtain ⟨u, rfl⟩ : ∃ u, t = u + 8 := ⟨t - 8, by omega⟩
    rw [completedBytes_add, streamBits_cons, byteBits_ofNat, List.append_assoc, Nat.add_mod_right,
      ih u (by omega), Nat.add_comm u 8, bitsOf_split]

theorem codeBitsOf_cons (t : Table Code) (x : Nat) (xs : List Nat) :
    codeBitsOf t (x :: xs) = (codeAt t x).bitString ++ codeBitsOf t xs := rfl

theorem emitAll_append (s : State) (xs ys : List Byte) : emitAll s (xs ++ ys) = emitAll (emitAll s xs) ys := by
  simp [emitAll, List.foldl_append]

/-- `s` after a session has emitted `bytes` and holds `acc` of `nbits` bits. -/
def State.encoding (s : State) (bytes : List Byte) (count : BitVec 31) (acc : BitVec 7) (nbits : BitVec 3) : State :=
  { emitAll s bytes with encBytes := count, encAcc := acc, encNbits := nbits }

theorem emitAll_encoding (s : State) (xs ys : List Byte) (count : BitVec 31) (acc : BitVec 7) (nbits : BitVec 3) :
    emitAll (s.encoding xs count acc nbits) ys = s.encoding (xs ++ ys) count acc nbits := by
  induction ys generalizing xs with
  | nil => rw [List.append_nil]; rfl
  | cons y ys ih =>
    have h : emit (s.encoding xs count acc nbits) y = s.encoding (xs ++ [y]) count acc nbits := by
      rw [State.encoding, State.encoding, emitAll_append]; rfl
    rw [emitAll_cons, h, ih, List.append_assoc]; rfl

theorem appendCode_encoding (s : State) (xs : List Byte) (count : BitVec 31) (acc : BitVec 7) (nbits : BitVec 3)
    (c : Code) :
    (s.encoding xs count acc nbits).appendCode c =
      s.encoding (xs ++ completedBytes (acc.toNat * 2 ^ c.len.toNat + c.bits.toNat) (nbits.toNat + c.len.toNat))
        (BitVec.ofNat 31 (count.toNat + (nbits.toNat + c.len.toNat) / 8))
        (BitVec.ofNat 7 ((acc.toNat * 2 ^ c.len.toNat + c.bits.toNat) % 2 ^ ((nbits.toNat + c.len.toNat) % 8)))
        (BitVec.ofNat 3 ((nbits.toNat + c.len.toNat) % 8)) := by
  rw [State.appendCode, emitAll_encoding]; rfl

/-- The narrowed accumulator of R193 loses nothing. -/
theorem narrow_accumulator (x t : Nat) :
    (BitVec.ofNat 3 (t % 8)).toNat = t % 8 ∧ (BitVec.ofNat 7 (x % 2 ^ (t % 8))).toNat = x % 2 ^ (t % 8) := by
  have h8 : t % 8 < 8 := Nat.mod_lt _ (by norm_num)
  refine ⟨by rw [BitVec.toNat_ofNat]; exact Nat.mod_eq_of_lt h8, ?_⟩
  rw [BitVec.toNat_ofNat]
  refine Nat.mod_eq_of_lt (lt_of_lt_of_le (Nat.mod_lt _ (by positivity)) ?_)
  exact Nat.pow_le_pow_right (by norm_num) (by omega)

/-- A run of ENC.SYM commands appends the symbols' code bits, in order (R191). -/
theorem execAll_encSyms (s : State) (syms : List Nat) (xs : List Byte) (count : BitVec 31) (acc : BitVec 7)
    (nbits : BitVec 3) (hact : s.encActive = true) (hsyms : ∀ x ∈ syms, HasCode s x)
    (hacc : acc.toNat < 2 ^ nbits.toNat)
    (hfits : s.outPtr.toNat + xs.length + (nbits.toNat + (codeBitsOf s.codes syms).length) / 8 ≤ s.cfg.obufBytes)
    (hchunk : count.toNat + (nbits.toNat + (codeBitsOf s.codes syms).length) / 8 ≤ chunkMax) :
    ∃ ys acc' nbits', execAll (syms.map .encSym) (s.encoding xs count acc nbits)
        = .next (s.encoding (xs ++ ys) (BitVec.ofNat 31 (count.toNat + ys.length)) acc' nbits')
      ∧ streamBits ys ++ bitsOf acc'.toNat nbits'.toNat = bitsOf acc.toNat nbits.toNat ++ codeBitsOf s.codes syms
      ∧ acc'.toNat < 2 ^ nbits'.toNat := by
  induction syms generalizing xs count acc nbits with
  | nil =>
    exact ⟨[], acc, nbits, by simp [execAll], by simp [streamBits, codeBitsOf], hacc⟩
  | cons x syms ih =>
    obtain ⟨hx1, hx2, hx3⟩ := hsyms x List.mem_cons_self
    set c := codeAt s.codes x with hc
    have hb := obufBytes_le s.cfg
    have hlen : (codeBitsOf s.codes (x :: syms)).length = c.len.toNat + (codeBitsOf s.codes syms).length := by
      rw [codeBitsOf_cons, List.length_append, length_bitString]
    rw [hlen] at hfits hchunk
    set X := acc.toNat * 2 ^ c.len.toNat + c.bits.toNat with hX
    set T := nbits.toNat + c.len.toNat with hT
    obtain ⟨e3, e7⟩ := narrow_accumulator X T
    have hk : T / 8 ≤ (nbits.toNat + (c.len.toNat + (codeBitsOf s.codes syms).length)) / 8 :=
      Nat.div_le_div_right (by omega)
    have hcount : (BitVec.ofNat 31 (count.toNat + T / 8)).toNat = count.toNat + T / 8 := by
      rw [BitVec.toNat_ofNat]; unfold chunkMax at hchunk; exact Nat.mod_eq_of_lt (by omega)
    have hstep : exec (.encSym x) (s.encoding xs count acc nbits) =
        .next (s.encoding (xs ++ completedBytes X T) (BitVec.ofNat 31 (count.toNat + T / 8))
          (BitVec.ofNat 7 (X % 2 ^ (T % 8))) (BitVec.ofNat 3 (T % 8))) := by
      have g1 : (s.encoding xs count acc nbits).encActive = true := by simp [State.encoding, hact]
      have g2 : (s.encoding xs count acc nbits).cfg = s.cfg := by simp [State.encoding]
      have g3 : (s.encoding xs count acc nbits).codes = s.codes := by simp [State.encoding]
      have g4 : (s.encoding xs count acc nbits).outPtr.toNat = s.outPtr.toNat + xs.length := by
        simp only [State.encoding]; exact emitAll_outPtr (by omega)
      have g5 : encTotal (s.encoding xs count acc nbits) c = T := rfl
      have g6 : (s.encoding xs count acc nbits).encBytes = count := rfl
      show execEncSym x _ = _
      unfold execEncSym
      rw [g1, g2, g3, g4, g6, ← hc, g5, if_neg (by simp), if_neg (by push Not; exact ⟨hx1, hx2⟩), if_neg (by omega),
        if_neg (by omega), appendCode_encoding]
    have hbits : bitsOf X T = bitsOf acc.toNat nbits.toNat ++ c.bitString := bitsOf_add_mul hx3
    obtain ⟨ys, acc', nbits', h1, h2, h3⟩ := ih (xs ++ completedBytes X T) (BitVec.ofNat 31 (count.toNat + T / 8))
      (BitVec.ofNat 7 (X % 2 ^ (T % 8))) (BitVec.ofNat 3 (T % 8)) (fun y hy => hsyms y (List.mem_cons_of_mem _ hy))
      (by rw [e3, e7]; exact Nat.mod_lt _ (by positivity))
      (by rw [e3, List.length_append, length_completedBytes]; omega)
      (by rw [e3, hcount]; omega)
    refine ⟨completedBytes X T ++ ys, acc', nbits', ?_, ?_, h3⟩
    · rw [List.map_cons, execAll, hstep]
      simp only
      rw [h1, hcount, List.append_assoc, List.length_append, length_completedBytes, Nat.add_assoc]
    · rw [e3, e7] at h2
      rw [streamBits_append, List.append_assoc, h2, ← List.append_assoc, streamBits_completedBytes, hbits,
        codeBitsOf_cons, List.append_assoc]

/-- The last byte is the pending bits and then zero bits (R196). -/
theorem byteBits_paddedByte (s : State) :
    byteBits (paddedByte s) = bitsOf s.encAcc.toNat s.encNbits.toNat ++ List.replicate (8 - s.encNbits.toNat) false := by
  have hn : s.encNbits.toNat < 8 := s.encNbits.isLt
  have h0 : (0 : Nat) < 2 ^ (8 - s.encNbits.toNat) := by positivity
  have hz : bitsOf 0 (8 - s.encNbits.toNat) = List.replicate (8 - s.encNbits.toNat) false := by
    apply List.ext_getElem
    · simp
    · intro i h1 h2; simp [getElem_bitsOf]
  rw [paddedByte, byteBits_ofNat, Nat.shiftLeft_eq, ← hz, ← bitsOf_add_mul h0, Nat.add_zero]
  congr 1; omega

/-- What a whole session emits: the code bits in order, then the padding (R191). -/
theorem execAll_session {s : State} {syms : List Nat} (hcodes : s.codesValid = true) (hidle : s.encActive = false)
    (hsyms : ∀ x ∈ syms, HasCode s x)
    (hfits : s.outPtr.toNat + ((codeBitsOf s.codes syms).length + 7) / 8 ≤ s.cfg.obufBytes)
    (hchunk : ((codeBitsOf s.codes syms).length + 7) / 8 ≤ chunkMax) :
    ∃ ys, execAll (.encStart :: (syms.map .encSym ++ [.encFlush])) s
        = .next { emitAll s ys with encAcc := 0, encNbits := 0, encActive := false,
                                    encBytes := BitVec.ofNat 31 ys.length,
                                    encPad := BitVec.ofNat 3 ((8 - (codeBitsOf s.codes syms).length % 8) % 8) }
      ∧ streamBits ys = codeBitsOf s.codes syms
          ++ List.replicate ((8 - (codeBitsOf s.codes syms).length % 8) % 8) false := by
  have hb := obufBytes_le s.cfg
  set B := codeBitsOf s.codes syms with hB
  set s₁ : State := { s with encPad := 0, encActive := true } with hs₁
  have hstart : exec .encStart s = .next (s₁.encoding [] 0 0 0) := by
    show execEncStart s = _
    unfold execEncStart
    rw [if_neg (by simp [hcodes]), if_neg (by simp [hidle])]; rfl
  obtain ⟨ys, acc, nbits, h1, h2, h3⟩ := execAll_encSyms s₁ syms [] 0 0 0 rfl hsyms (by simp)
    (by show s.outPtr.toNat + 0 + (0 + B.length) / 8 ≤ s.cfg.obufBytes; omega)
    (by show 0 + (0 + B.length) / 8 ≤ chunkMax; omega)
  have h2' : streamBits ys ++ bitsOf acc.toNat nbits.toNat = B := by simpa [bitsOf_zero] using h2
  have hlen : 8 * ys.length + nbits.toNat = B.length := by
    rw [← h2', List.length_append, length_streamBits, length_bitsOf]
  have hn8 : nbits.toNat < 8 := nbits.isLt
  have hmod : B.length % 8 = nbits.toNat := by omega
  have run : ∀ (l : List Instr) (u v : State), execAll l u = .next v → ∀ l', execAll (l ++ l') u = execAll l' v := by
    intro l
    induction l with
    | nil => intro u v h l'; simp only [execAll] at h; cases h; rfl
    | cons i l ih =>
      intro u v h l'
      simp only [execAll, List.cons_append] at h ⊢
      cases he : exec i u with
      | next t => rw [he] at h; exact ih t v h l'
      | fault r => rw [he] at h; cases h
      | refused r => rw [he] at h; cases h
  have hflushAll : execAll (.encStart :: (syms.map .encSym ++ [.encFlush])) s =
      exec .encFlush (s₁.encoding ([] ++ ys) (BitVec.ofNat 31 ((0 : BitVec 31).toNat + ys.length)) acc nbits) := by
    rw [execAll, hstart]
    simp only
    rw [run _ _ _ h1, execAll]
    cases exec Instr.encFlush (s₁.encoding ([] ++ ys) (BitVec.ofNat 31 ((0 : BitVec 31).toNat + ys.length)) acc nbits) <;> rfl
  set u := s₁.encoding ([] ++ ys) (BitVec.ofNat 31 ((0 : BitVec 31).toNat + ys.length)) acc nbits with hu
  have u1 : u.encActive = true := by simp [hu, State.encoding, hs₁]
  have u2 : u.cfg = s.cfg := by simp [hu, State.encoding, hs₁]
  have u3 : u.outPtr.toNat = s.outPtr.toNat + ys.length := by
    simp only [hu, State.encoding, List.nil_append]
    rw [emitAll_outPtr (by simp only [hs₁]; omega)]
  have u4 : u.encBytes = BitVec.ofNat 31 ys.length := by simp [hu, State.encoding]
  have u5 : u.encNbits = nbits := rfl
  have u6 : u.encAcc = acc := rfl
  have field : ∀ zs : List Byte, emitAll s₁ zs = { emitAll s zs with encPad := 0, encActive := true } := by
    intro zs
    have : ∀ (zs : List Byte) (w : State), emitAll { w with encPad := 0, encActive := true } zs
        = { emitAll w zs with encPad := 0, encActive := true } := by
      intro zs
      induction zs with
      | nil => intro w; rfl
      | cons z zs ih => intro w; rw [emitAll_cons, emitAll_cons, ← ih]; rfl
    exact this zs s
  rw [hflushAll]
  by_cases h0 : nbits = 0
  · refine ⟨ys, ?_, ?_⟩
    · show execEncFlush u = _
      unfold execEncFlush
      rw [u1, u5, if_neg (by simp), if_pos h0, hmod, h0]
      simp [hu, State.encoding, State.closeEncoder, field]
    · rw [hmod, h0]
      simpa [h0, bitsOf_zero] using h2'
  · have hn0 : 0 < nbits.toNat := by
      rcases Nat.eq_zero_or_pos nbits.toNat with h | h
      · exact absurd (BitVec.eq_of_toNat_eq (by simpa using h)) h0
      · exact h
    have hpad : (8 - B.length % 8) % 8 = 8 - nbits.toNat := by omega
    have hy31 : (BitVec.ofNat 31 ys.length).toNat = ys.length := by
      rw [BitVec.toNat_ofNat]; exact Nat.mod_eq_of_lt (by unfold chunkMax at hchunk; omega)
    refine ⟨ys ++ [paddedByte u], ?_, ?_⟩
    · show execEncFlush u = _
      unfold execEncFlush
      rw [u1, u5, u2, u3, u4, hy31, if_neg (by simp), if_neg h0, if_neg (by omega), if_neg (by omega), hpad]
      have hem : emit u (paddedByte u) = { emitAll s (ys ++ [paddedByte u]) with
          encPad := 0, encActive := true, encBytes := BitVec.ofNat 31 ys.length, encAcc := acc, encNbits := nbits } := by
        have := emitAll_encoding s₁ ([] ++ ys) [paddedByte u] (BitVec.ofNat 31 ((0 : BitVec 31).toNat + ys.length)) acc nbits
        rw [← hu, emitAll_cons, emitAll_nil] at this
        rw [this]
        simp [State.encoding, field]
      rw [hem]
      simp [State.closeEncoder]
    · rw [streamBits_append, streamBits_cons, byteBits_paddedByte, u6, u5, hpad]
      rw [← h2']; simp [streamBits]

end Sys2Proof.Machine
end

