-- ==== Sys2Proof/Laws/Decoder.lean ====
section
/-! SUPPORT. The decoder's bit loop: it reads bits in order across bytes, follows the paths of the tree, and always finds a next node in a well-formed tree (R213 to R217). -/

namespace Sys2Proof.Machine

/-- The bit loop from a cursor, with the symbols found so far (R213). -/
def parseFrom (ts : TreeState) (arena : List Node) (root : Nat) (bits : BitString) (c : Nat) (out : List Byte) : Parse :=
  if ts = .single then parseSingle arena bits c out else parseMulti arena root bits c out

theorem parseBits_eq (s : State) (bits : BitString) :
    parseBits s bits = parseFrom s.treeState s.arena s.root.toNat bits s.decCursor.toNat [] := by
  unfold parseBits parseFrom; cases s.treeState <;> rfl

/-- A parse goes on from where the last one stopped. -/
def Parse.andThen (p : Parse) (f : Nat → List Byte → Parse) : Parse :=
  match p with
  | .done c out => f c out
  | .badBit => .badBit
  | .undefinedNode => .undefinedNode

theorem parseSingle_append (arena : List Node) (b₁ b₂ : BitString) (c : Nat) (out : List Byte) :
    parseSingle arena (b₁ ++ b₂) c out = (parseSingle arena b₁ c out).andThen fun c o => parseSingle arena b₂ c o := by
  induction b₁ generalizing c out with
  | nil => rfl
  | cons bit b₁ ih =>
    simp only [List.cons_append, parseSingle]
    split
    · rfl
    · split
      · exact ih _ _
      · rfl
      · rfl

theorem parseMulti_append (arena : List Node) (root : Nat) (b₁ b₂ : BitString) (c : Nat) (out : List Byte) :
    parseMulti arena root (b₁ ++ b₂) c out =
      (parseMulti arena root b₁ c out).andThen fun c o => parseMulti arena root b₂ c o := by
  induction b₁ generalizing c out with
  | nil => rfl
  | cons bit b₁ ih =>
    simp only [List.cons_append, parseMulti]
    split
    · rfl
    · split
      · exact ih _ _
      · exact ih _ _
      · rfl

theorem parseFrom_append (ts : TreeState) (arena : List Node) (root : Nat) (b₁ b₂ : BitString) (c : Nat)
    (out : List Byte) :
    parseFrom ts arena root (b₁ ++ b₂) c out =
      (parseFrom ts arena root b₁ c out).andThen fun c o => parseFrom ts arena root b₂ c o := by
  unfold parseFrom
  split
  · exact parseSingle_append _ _ _ _ _
  · exact parseMulti_append _ _ _ _ _ _

theorem parseSingle_out (arena : List Node) (bits : BitString) (c : Nat) (out : List Byte) :
    parseSingle arena bits c out = (parseSingle arena bits c []).andThen fun c o => .done c (out ++ o) := by
  induction bits generalizing c out with
  | nil => simp [parseSingle, Parse.andThen]
  | cons bit bits ih =>
    simp only [parseSingle]
    split
    · rfl
    · split
      · rw [ih, ih c ([] ++ _)]
        cases parseSingle arena bits c [] <;> simp [Parse.andThen]
      · rfl
      · rfl

theorem parseMulti_out (arena : List Node) (root : Nat) (bits : BitString) (c : Nat) (out : List Byte) :
    parseMulti arena root bits c out = (parseMulti arena root bits c []).andThen fun c o => .done c (out ++ o) := by
  induction bits generalizing c out with
  | nil => simp [parseMulti, Parse.andThen]
  | cons bit bits ih =>
    simp only [parseMulti]
    split
    · rfl
    · split
      · rw [ih, ih root ([] ++ _)]
        cases parseMulti arena root bits root [] <;> simp [Parse.andThen]
      · exact ih _ _
      · rfl

theorem parseFrom_out (ts : TreeState) (arena : List Node) (root : Nat) (bits : BitString) (c : Nat) (out : List Byte) :
    parseFrom ts arena root bits c out = (parseFrom ts arena root bits c []).andThen fun c o => .done c (out ++ o) := by
  unfold parseFrom
  split
  · exact parseSingle_out _ _ _ _
  · exact parseMulti_out _ _ _ _ _

/-- Reading the path of a leaf gives its symbol and returns to the root (R213). -/
theorem parseMulti_path {arena : List Node} {root c : Nat} {p : BitString} {sym : Byte} (hp : p ≠ [])
    (h : IsLeafPath arena c p sym) (rest : BitString) (out : List Byte) :
    parseMulti arena root (p ++ rest) c out = parseMulti arena root rest root (out ++ [sym]) := by
  obtain ⟨k, w, hd, hk⟩ := h
  induction p generalizing c with
  | nil => exact absurd rfl hp
  | cons bit p ih =>
    rw [descend_cons] at hd
    cases hc : childAt arena c bit with
    | none => rw [hc] at hd; simp at hd
    | some j =>
      rw [hc] at hd
      simp only [Option.bind_some] at hd
      simp only [List.cons_append, parseMulti, hc]
      by_cases hp' : p = []
      · subst hp'
        cases hd
        simp [hk]
      · cases hj : arena[j]? with
        | none =>
          cases p with
          | nil => exact absurd rfl hp'
          | cons b p => rw [descend_cons] at hd; simp [childAt, hj] at hd
        | some nd =>
          cases nd with
          | leaf sym' w' => exact absurd (descend_leaf hj hd).1 hp'
          | internal w' l r => exact ih hp' hd

/-- In a well-formed tree of two or more leaves the loop never lacks a node, and stops at an internal node (R216). -/
theorem parseMulti_done {c : Config} {n : Nat} {arena : List Node} (h : TreeWf c n arena) {root : Nat}
    (hr : n ≤ root ∧ root < arena.length) (bits : BitString) {cur : Nat} (hc : n ≤ cur ∧ cur < arena.length)
    (out : List Byte) :
    ∃ cur' o, parseMulti arena root bits cur out = .done cur' (out ++ o) ∧ n ≤ cur' ∧ cur' < arena.length
      ∧ o.length ≤ bits.length := by
  induction bits generalizing cur out with
  | nil => exact ⟨cur, [], by simp [parseMulti], hc.1, hc.2, le_refl _⟩
  | cons bit bits ih =>
    obtain ⟨k, hk⟩ := h.child_exists hc.1 hc.2 bit
    have hlt := h.child_lt hk
    simp only [parseMulti, hk]
    rcases Nat.lt_or_ge k n with hkn | hkn
    · obtain ⟨sym, w, h1, -⟩ := h.leaves k hkn
      obtain ⟨cur', o, h2, h3, h4, h5⟩ := ih (cur := root) hr (out ++ [sym])
      refine ⟨cur', sym :: o, by simp only [h1]; simpa using h2, h3, h4, by simpa using h5⟩
    · obtain ⟨l, r, h1, -, -⟩ := h.internals k hkn (by omega)
      obtain ⟨cur', o, h2, h3, h4, h5⟩ := ih (cur := k) ⟨hkn, by omega⟩ out
      exact ⟨cur', o, by simp only [h1]; exact h2, h3, h4, by simp only [List.length_cons]; omega⟩

/-- Under a single-symbol tree the loop gives the symbol once per bit, or meets a 1 bit (R214). -/
theorem parseSingle_done {sym : Byte} {w : Nat} (bits : BitString) (cur : Nat) (out : List Byte) :
    parseSingle [.leaf sym w] bits cur out =
      if true ∈ bits then .badBit else .done cur (out ++ List.replicate bits.length sym) := by
  induction bits generalizing out with
  | nil => simp [parseSingle]
  | cons bit bits ih =>
    cases bit with
    | true => simp [parseSingle]
    | false => simp [parseSingle, ih, List.replicate_succ]

/-- DEC.BYTE when its loop ends well, the chunk does not end inside a code, and the output fits (R213). -/
theorem execDecByte_done {s : State} {b : Byte} {cur : Nat} {out : List Byte} (hact : s.decActive = true)
    (hp : parseBits s (readBits s b) = .done cur out)
    (hend : s.decRem.toNat - usefulNow s = 0 → cur = s.root.toNat)
    (hfit : s.outPtr.toNat + out.length ≤ s.cfg.obufBytes) :
    exec (.decByte b) s = .next (s.takeByte cur out) := by
  show execDecByte b s = _
  unfold execDecByte
  rw [if_neg (by simp [hact]), hp]
  simp only
  rw [if_neg (by intro h; exact h.2 (hend h.1)), if_neg (by omega)]

/-- `s` after a decoder session has emitted `out`, stands at `cur` and has `rem` bits to read. -/
def State.decoding (s : State) (out : List Byte) (cur rem : Nat) : State :=
  { emitAll s out with decCursor := BitVec.ofNat 9 cur, decRem := BitVec.ofNat 34 rem, decActive := decide (0 < rem) }

theorem emitAll_decoding (s : State) (xs ys : List Byte) (cur rem : Nat) :
    emitAll (s.decoding xs cur rem) ys = s.decoding (xs ++ ys) cur rem := by
  induction ys generalizing xs with
  | nil => rw [List.append_nil]; rfl
  | cons y ys ih =>
    have h : emit (s.decoding xs cur rem) y = s.decoding (xs ++ [y]) cur rem := by
      rw [State.decoding, State.decoding, emitAll_append]; rfl
    rw [emitAll_cons, h, ih, List.append_assoc]; rfl

/-- Feeding the packed bytes one by one reads their useful bits as one string: if that string parses to `out` and ends
at the root, the DEC.BYTE commands emit `out` and close the session (R210, R213, R215). -/
theorem execAll_decBytes (s : State) (ys : List Byte) (xs : List Byte) (cur rem : Nat) (out : List Byte)
    (hsmall : ∀ bits o, ∀ c' o', parseFrom s.treeState s.arena s.root.toNat bits cur o = .done c' o' → c' < 512)
    (hcur : cur < 512) (hrem : rem < 2 ^ 34)
    (hlen : rem ≤ 8 * ys.length) (hlast : 8 * ys.length < rem + 8)
    (hparse : parseFrom s.treeState s.arena s.root.toNat ((streamBits ys).take rem) cur [] = .done s.root.toNat out)
    (hfit : s.outPtr.toNat + xs.length + out.length ≤ s.cfg.obufBytes) :
    execAll (ys.map .decByte) (s.decoding xs cur rem) = .next (s.decoding (xs ++ out) s.root.toNat 0) := by
  induction ys generalizing xs cur rem out with
  | nil =>
    have hr : rem = 0 := by simpa using hlen
    subst hr
    have hpe : parseFrom s.treeState s.arena s.root.toNat [] cur [] = .done cur [] := by
      unfold parseFrom; split <;> rfl
    rw [List.take_zero, hpe] at hparse
    cases hparse
    simp [execAll]
  | cons y ys ih =>
    rw [List.length_cons] at hlen hlast
    have hb := obufBytes_le s.cfg
    have hu : 0 < rem := by omega
    set u := min 8 rem with hu8
    have htake : (streamBits (y :: ys)).take rem = (byteBits y).take u ++ (streamBits ys).take (rem - u) := by
      rw [streamBits_cons, List.take_append, length_byteBits]
      congr 1
      · rcases Nat.le_total rem 8 with h | h
        · rw [hu8, Nat.min_eq_right h]
        · rw [hu8, Nat.min_eq_left h, List.take_of_length_le (by simpa using h),
            List.take_of_length_le (by simp)]
      · congr 1; omega
    rw [htake, parseFrom_append] at hparse
    cases hp1 : parseFrom s.treeState s.arena s.root.toNat ((byteBits y).take u) cur [] with
    | badBit => rw [hp1] at hparse; cases hparse
    | undefinedNode => rw [hp1] at hparse; cases hparse
    | done c₁ o₁ =>
      rw [hp1] at hparse
      simp only [Parse.andThen] at hparse
      rw [parseFrom_out] at hparse
      cases hp2 : parseFrom s.treeState s.arena s.root.toNat ((streamBits ys).take (rem - u)) c₁ [] with
      | badBit => rw [hp2] at hparse; cases hparse
      | undefinedNode => rw [hp2] at hparse; cases hparse
      | done c₂ o₂ =>
        rw [hp2] at hparse
        simp only [Parse.andThen, Parse.done.injEq] at hparse
        obtain ⟨rfl, rfl⟩ := hparse
        rw [List.length_append] at hfit
        have hc1 : c₁ < 512 := hsmall _ _ _ _ hp1
        set d := s.decoding xs cur rem with hd
        have d1 : d.decActive = true := by simp [hd, State.decoding, hu]
        have d2 : d.decRem.toNat = rem := by
          simp only [hd, State.decoding, BitVec.toNat_ofNat]; exact Nat.mod_eq_of_lt hrem
        have d3 : d.decCursor.toNat = cur := by
          simp only [hd, State.decoding, BitVec.toNat_ofNat]; exact Nat.mod_eq_of_lt hcur
        have d4 : d.treeState = s.treeState := by simp [hd, State.decoding]
        have d5 : d.arena = s.arena := by simp [hd, State.decoding]
        have d6 : d.root = s.root := by simp [hd, State.decoding]
        have d7 : d.outPtr.toNat = s.outPtr.toNat + xs.length := by
          simp only [hd, State.decoding]; exact emitAll_outPtr (by omega)
        have d8 : d.cfg = s.cfg := by simp [hd, State.decoding]
        have hun : usefulNow d = u := by rw [usefulNow, usefulInByte, d2]
        have hstep : exec (.decByte y) d = .next (d.takeByte c₁ o₁) := by
          refine execDecByte_done d1 ?_ ?_ (by rw [d7, d8]; omega)
          · rw [parseBits_eq, readBits, hun, d3, d4, d5, d6]; exact hp1
          · rw [d2, hun, d6]
            intro h0
            rw [h0, List.take_zero] at hp2
            have hpe : parseFrom s.treeState s.arena s.root.toNat [] c₁ [] = .done c₁ [] := by
              unfold parseFrom; split <;> rfl
            rw [hpe] at hp2
            cases hp2; rfl
        have hnext : d.takeByte c₁ o₁ = s.decoding (xs ++ o₁) c₁ (rem - u) := by
          rw [State.takeByte, hun, d2, hd, emitAll_decoding]; rfl
        rw [List.map_cons, execAll, hstep]
        simp only
        rw [hnext, ih (xs ++ o₁) c₁ (rem - u) o₂ ?_ hc1 (by omega) (by omega) (by omega) hp2
          (by rw [List.length_append]; omega), List.append_assoc]
        intro bits o c' o' hpc
        refine hsmall ((byteBits y).take u ++ bits) o c' (o ++ o₁ ++ (o'.drop o.length)) ?_
        rw [parseFrom_append, parseFrom_out _ _ _ _ cur o, hp1]
        simp only [Parse.andThen]
        rw [parseFrom_out] at hpc ⊢
        cases hq : parseFrom s.treeState s.arena s.root.toNat bits c₁ [] with
        | badBit => rw [hq] at hpc; cases hpc
        | undefinedNode => rw [hq] at hpc; cases hpc
        | done c₃ o₃ =>
          rw [hq] at hpc
          simp only [Parse.andThen, Parse.done.injEq] at hpc ⊢
          obtain ⟨rfl, rfl⟩ := hpc
          exact ⟨rfl, by simp⟩

/-- What the loop of R213 says against the parse of the same bits. -/
def SameParse : Option (Nat × List Byte) → Parse → Prop
  | some (c, out), p => p = .done c out
  | none, p => p = .badBit ∨ p = .undefinedNode

theorem take_byteBits (b : Byte) {t : Nat} (h : t < 8) :
    (byteBits b).take (t + 1) = (byteBits b).take t ++ [b.getLsbD (7 - t)] := by
  rw [List.take_succ_eq_append_getElem (by simpa using h)]
  congr 2
  simp only [byteBits]
  rw [getElem_bitsOf]; rfl

/-- The loop as R213 writes it, bit `b[7 − t]` in iteration t, and the parse of the byte's first bits agree. -/
theorem decLoop_parse (s : State) (b : Byte) {t : Nat} (ht : t ≤ 8) :
    SameParse (decLoop s b t) (parseBits s ((byteBits b).take t)) := by
  rw [parseBits_eq]
  induction t with
  | zero => unfold parseFrom; split <;> rfl
  | succ t ih =>
    have ih := ih (by omega)
    rw [take_byteBits b (by omega), parseFrom_append, decLoop]
    cases hl : decLoop s b t with
    | none =>
      rw [hl] at ih
      rcases ih with ih | ih <;> rw [ih] <;> simp [Parse.andThen, SameParse]
    | some co =>
      obtain ⟨c, out⟩ := co
      rw [hl] at ih
      rw [show _ = _ from ih]
      simp only [Parse.andThen]
      unfold parseFrom
      by_cases hs : s.treeState = .single
      · rw [if_pos hs, if_pos hs]
        simp only [parseSingle]
        cases b.getLsbD (7 - t)
        · cases ha : s.arena[(0 : Nat)]? with
          | none => simp [SameParse]
          | some nd => cases nd <;> simp [SameParse]
        · simp [SameParse]
      · rw [if_neg hs, if_neg hs]
        simp only [parseMulti, childAt]
        cases ha : s.arena[c]? with
        | none => simp [SameParse]
        | some nd =>
          cases nd with
          | leaf => simp [SameParse]
          | internal w l r =>
            simp only
            cases hb : s.arena[if b.getLsbD (7 - t) = true then r else l]? with
            | none => simp [SameParse]
            | some nd => cases nd <;> simp [SameParse]

end Sys2Proof.Machine
end

