-- ==== Sys2Proof/Laws/Invariant.lean ====
section
/-! SUPPORT. What each command does to the invariants of R64, one lemma per command, and that in a state that meets them every command ends in a next state. -/

namespace Sys2Proof.Machine

variable {s : State}

/-! ### What the invariant gives -/

theorem Inv.nsym_le (h : Inv s) : s.nsym.toNat ≤ s.cfg.alphaSize := h.tree.fits

theorem Inv.multi_two (h : Inv s) (hm : s.treeState = .multi) : 2 ≤ s.nsym.toNat := by
  have := h.treeKind.2 (by rw [hm]; decide)
  rw [hm] at this
  rcases Nat.lt_or_ge s.nsym.toNat 2 with hlt | hge
  · have h01 : s.nsym.toNat = 0 ∨ s.nsym.toNat = 1 := by omega
    rcases h01 with h0 | h0 <;> rw [h0] at this <;> simp [treeStateOf] at this
  · exact hge

theorem Inv.single_one (h : Inv s) (hs : s.treeState = .single) : s.nsym.toNat = 1 := by
  have := h.treeKind.2 (by rw [hs]; decide)
  rw [hs] at this
  match hn : s.nsym.toNat with
  | 0 => rw [hn] at this; simp [treeStateOf] at this
  | 1 => rfl
  | k + 2 => rw [hn] at this; simp [treeStateOf] at this

/-- The root of a MULTI tree is the last entry, an internal node. -/
theorem Inv.root_internal (h : Inv s) (hm : s.treeState = .multi) :
    s.nsym.toNat ≤ s.root.toNat ∧ s.root.toNat < s.arena.length := by
  have h2 := h.multi_two hm
  have hr := h.rootMulti hm
  have hs := h.tree.size
  omega

theorem Inv.cursor_internal (h : Inv s) (hm : s.treeState = .multi) :
    s.nsym.toNat ≤ s.decCursor.toNat ∧ s.decCursor.toNat < s.arena.length := by
  obtain ⟨w, l, r, hc⟩ := h.cursorMulti hm
  have hlt := (List.getElem?_eq_some_iff.mp hc).1
  refine ⟨?_, hlt⟩
  by_contra hc'
  obtain ⟨sym, w', h1, -⟩ := h.tree.leaves s.decCursor.toNat (by omega)
  rw [h1] at hc; cases hc

theorem Inv.arena_lt (h : Inv s) : s.arena.length < 512 := by
  have h1 := h.tree.size; have h2 := h.tree.fits; have h3 := alphaSize_le s.cfg; omega

theorem Inv.code_ok (h : Inv s) {x : Nat} (hx : (codeAt s.codes x).len ≠ 0) :
    x < s.cfg.alphaSize ∧ 0 < (codeAt s.codes x).len.toNat ∧ (codeAt s.codes x).len.toNat ≤ s.cfg.maxCodeLen
      ∧ (codeAt s.codes x).bits.toNat < 2 ^ (codeAt s.codes x).len.toNat :=
  h.codes.entries _ (codeAt_mem fun hc => hx (by rw [hc]; rfl))

/-! ### Updates -/

theorem Inv.recordError (h : Inv s) {code : ErrCode} (hc : code ≠ .none) (info : Word) :
    Inv (s.recordError code info) :=
  { h with errorRecord := fun he => absurd he hc }

theorem Inv.clearError (h : Inv s) : Inv s.clearError :=
  { h with errorRecord := fun _ => rfl }

theorem Inv.recordBusError (h : Inv s) (addr : BitVec 16) (isWrite : Bool) : Inv (s.recordBusError addr isWrite) := by
  unfold State.recordBusError
  split
  · exact h
  · exact h.recordError (by decide) _

theorem Inv.observe (h : Inv s) (a : Access) (r : Option Word) (e : Bool) : Inv (s.observe a r e) := { h with }

theorem Inv.withPending (h : Inv s) (p : List PortInput) : Inv { s with pending := p } := { h with }

theorem Inv.withArg (h : Inv s) (v : Word) : Inv { s with arg := v } := { h with }

theorem Inv.writeFreq (h : Inv s) {k : Nat} (hk : k < s.cfg.alphaSize) (v : Word) : Inv (s.writeFreq k v) :=
  { h with
    freq := ⟨Table.wf_write h.freq.1 k v, fun e he => by
      rcases Table.mem_write he with rfl | he
      · exact hk
      · exact h.freq.2 e he⟩ }

theorem emptyTreeWf (c : Config) : TreeWf c 0 [] :=
  { size := rfl, fits := Nat.zero_le _, leaves := fun k hk => absurd hk (by omega),
    internals := fun k _ hk => absurd hk (by simp), symbols := fun k k' sym w w' h => by simp at h,
    owned := List.Perm.refl _, weights := fun nd h => by simp at h }

theorem Inv.resetWith (c : Config) (draw : Nat) : Inv (State.resetWith c draw) :=
  { accumulator := (by decide : (0 : BitVec 7).toNat < 2 ^ (0 : BitVec 3).toNat)
    encNeedsCodes := by intro h; cases h
    decRemaining := by constructor <;> intro h <;> simp [State.resetWith] at h
    decNeedsTree := by intro h; cases h
    outFits := Nat.zero_le _
    cursorMulti := by intro h; cases h
    cursorOther := fun _ => ⟨rfl, rfl⟩
    treeKind := ⟨fun _ => rfl, fun h => absurd rfl h⟩
    rootMulti := by intro h; cases h
    tree := emptyTreeWf c
    errorRecord := fun _ => rfl
    codesCurrent := by intro h; cases h
    codes := ⟨Table.wf_nil _, fun e he => absurd he List.not_mem_nil⟩
    freq := ⟨Table.wf_nil _, fun e he => absurd he List.not_mem_nil⟩
    obuf := ⟨List.Pairwise.nil, fun e he => absurd he List.not_mem_nil⟩ }

theorem Inv.hardReset (_ : Inv s) : Inv s.hardReset :=
  { Inv.resetWith s.cfg (s.obufDraw + 1) with }

theorem Inv.softReset (h : Inv s) : Inv s.softReset :=
  { Inv.resetWith s.cfg s.obufDraw with obuf := h.obuf }

theorem Inv.withTree (h : Inv s) (he : s.encActive = false) (hd : s.decActive = false) : Inv s.withTree := by
  set n := (sortedLeaves s.cfg s.freq).length with hn
  have hle : n ≤ s.cfg.alphaSize := length_sortedLeaves_le _ _
  have ha := alphaSize_le s.cfg
  have hnsym : (BitVec.ofNat 9 n).toNat = n := by rw [BitVec.toNat_ofNat]; exact Nat.mod_eq_of_lt (by omega)
  have hroot : (BitVec.ofNat 9 (rootOf n)).toNat = rootOf n := by
    rw [BitVec.toNat_ofNat]; unfold rootOf; split <;> exact Nat.mod_eq_of_lt (by omega)
  have htree := buildArena_wf s.cfg s.freq
  rw [← hn] at htree
  have hkind : ∀ k, treeStateOf k = .multi ↔ 2 ≤ k := by
    intro k
    match k with
    | 0 => simp [treeStateOf]
    | 1 => simp [treeStateOf]
    | k + 2 => simp [treeStateOf]
  have hnone : treeStateOf n ≠ .none := by
    match n with
    | 0 => decide
    | 1 => decide
    | k + 2 => simp [treeStateOf]
  exact
    { accumulator := h.accumulator
      encNeedsCodes := fun hc => absurd hc (by simp [he])
      decRemaining := h.decRemaining
      decNeedsTree := fun hc => absurd hc (by simp [hd])
      outFits := h.outFits
      cursorMulti := fun hm => by
        have h2 : 2 ≤ n := (hkind n).mp hm
        have hs := htree.size
        obtain ⟨l, r, h1, -, -⟩ := htree.internals (rootOf n) (by unfold rootOf; split <;> omega) (by unfold rootOf; split <;> omega)
        refine ⟨weightAt (buildArena s.cfg s.freq) l + weightAt (buildArena s.cfg s.freq) r, l, r, ?_⟩
        simp only [withTree_arena, withTree_decCursor, ← hn, hroot]
        exact h1
      cursorOther := fun hm => by
        have h2 : ¬ 2 ≤ n := fun h2 => hm ((hkind n).mpr h2)
        have : rootOf n = 0 := by unfold rootOf; rw [if_neg h2]
        simp only [withTree_decCursor, withTree_root, ← hn, this]
        exact ⟨rfl, rfl⟩
      treeKind := ⟨fun hc => absurd hc hnone, fun _ => by simp only [withTree_treeState, withTree_nsym, ← hn, hnsym]⟩
      rootMulti := fun hm => by
        have h2 : 2 ≤ n := (hkind n).mp hm
        simp only [withTree_root, withTree_nsym, ← hn, hroot, hnsym]
        rw [rootOf, if_pos h2]
      tree := by simp only [withTree_nsym, ← hn, hnsym]; exact htree
      errorRecord := h.errorRecord
      codesCurrent := fun hc => by cases hc
      codes := h.codes
      freq := h.freq
      obuf := h.obuf }

/-- In a state that meets the invariants the code table of the tree exists and is well formed (R170 to R173). -/
theorem Inv.treeCodes_some (h : Inv s) (ht : s.treeState ≠ .none) :
    ∃ t, treeCodes s.treeState s.arena s.root.toNat = some t ∧ CodesWf s.cfg t := by
  cases hts : s.treeState with
  | none => exact absurd hts ht
  | empty => exact ⟨[], rfl, ⟨Table.wf_nil _, fun e he => absurd he List.not_mem_nil⟩⟩
  | single =>
    have h1 := h.single_one hts
    have htree := h.tree
    rw [h1] at htree
    obtain ⟨sym, w, t, -, h3, h4, -, -⟩ := treeCodes_single htree
    have hr : s.root = 0 := (h.cursorOther (by rw [hts]; decide)).2
    exact ⟨t, by rw [hr]; exact h3, h4⟩
  | multi =>
    obtain ⟨t, h3, h4, -, -⟩ := treeCodes_multi h.tree (h.multi_two hts)
    exact ⟨t, by rw [h.rootMulti hts]; exact h3, h4⟩

theorem Inv.withCodes (h : Inv s) (ht : s.treeState ≠ .none) {t : Table Code}
    (hc : treeCodes s.treeState s.arena s.root.toNat = some t) : Inv { s with codes := t, codesValid := true } := by
  obtain ⟨t', h1, h2⟩ := h.treeCodes_some ht
  rw [hc] at h1
  cases h1
  exact { h with encNeedsCodes := fun _ => rfl, codesCurrent := fun _ => ⟨ht, hc⟩, codes := h2 }

theorem Inv.startEncoder (h : Inv s) (hc : s.codesValid = true) :
    Inv { s with encAcc := 0, encNbits := 0, encBytes := 0, encPad := 0, encActive := true } :=
  { h with accumulator := (by decide : (0 : BitVec 7).toNat < 2 ^ (0 : BitVec 3).toNat), encNeedsCodes := fun _ => hc }

/-- Emitting bytes that fit keeps the invariants. -/
theorem Inv.emitAll (h : Inv s) {xs : List Byte} (hf : s.outPtr.toNat + xs.length ≤ s.cfg.obufBytes) :
    Inv (emitAll s xs) := by
  have hb := obufBytes_le s.cfg
  have ho : (Sys2Proof.Machine.emitAll s xs).outPtr.toNat = s.outPtr.toNat + xs.length := emitAll_outPtr (by omega)
  exact
    { accumulator := by simpa using h.accumulator
      encNeedsCodes := by simpa using h.encNeedsCodes
      decRemaining := by simpa using h.decRemaining
      decNeedsTree := by simpa using h.decNeedsTree
      outFits := by rw [ho]; simpa using hf
      cursorMulti := by simpa using h.cursorMulti
      cursorOther := by simpa using h.cursorOther
      treeKind := by simpa using h.treeKind
      rootMulti := by simpa using h.rootMulti
      tree := by simpa using h.tree
      errorRecord := by simpa using h.errorRecord
      codesCurrent := by simpa using h.codesCurrent
      codes := by simpa using h.codes
      freq := by simpa using h.freq
      obuf := ⟨emitAll_wf h.obuf.1 xs, by
        rw [emitAll_cfg]; exact emitAll_bound (by omega) hf h.obuf.2⟩ }

theorem Inv.appendCode (h : Inv s) {c : Code} (hf : s.outPtr.toNat + encTotal s c / 8 ≤ s.cfg.obufBytes) :
    Inv (s.appendCode c) := by
  obtain ⟨e3, e7⟩ := narrow_accumulator (encValue s c) (encTotal s c)
  have he := h.emitAll (xs := completedBytes (encValue s c) (encTotal s c)) (by rw [length_completedBytes]; exact hf)
  exact { he with
    accumulator := by
      simp only [appendCode_encAcc, appendCode_encNbits, e3, e7]
      exact Nat.mod_lt _ (by positivity) }

theorem Inv.closeEncoder (h : Inv s) : Inv s.closeEncoder :=
  { h with accumulator := (by decide : (0 : BitVec 7).toNat < 2 ^ (0 : BitVec 3).toNat),
           encNeedsCodes := fun hc => by cases hc }

theorem Inv.openDecoder (h : Inv s) {bits : Nat} (hb : bits < 2 ^ 34)
    (ht : 0 < bits → s.treeState = .single ∨ s.treeState = .multi) : Inv (s.openDecoder bits) := by
  have hr : (BitVec.ofNat 34 bits).toNat = bits := by rw [BitVec.toNat_ofNat]; exact Nat.mod_eq_of_lt hb
  exact { h with
    decRemaining := by simp only [openDecoder_decActive, openDecoder_decRem, hr, decide_eq_true_eq]
    decNeedsTree := fun hc => ht (by simpa using hc)
    cursorMulti := fun hm => by
      obtain ⟨r1, r2⟩ := h.root_internal hm
      obtain ⟨l, r, h1, -, -⟩ := h.tree.internals s.root.toNat r1 r2
      exact ⟨_, l, r, h1⟩
    cursorOther := fun hm => ⟨(h.cursorOther hm).2, (h.cursorOther hm).2⟩ }

theorem Inv.takeByte (h : Inv s) {cur : Nat} {out : List Byte}
    (hf : s.outPtr.toNat + out.length ≤ s.cfg.obufBytes) (hd : s.decActive = true)
    (hm : s.treeState = .multi → s.nsym.toNat ≤ cur ∧ cur < s.arena.length)
    (ho : s.treeState ≠ .multi → cur = 0) : Inv (s.takeByte cur out) := by
  have he := h.emitAll hf
  have hlt := s.decRem.isLt
  have hr : (BitVec.ofNat 34 (s.decRem.toNat - usefulNow s)).toNat = s.decRem.toNat - usefulNow s := by
    rw [BitVec.toNat_ofNat]; exact Nat.mod_eq_of_lt (by omega)
  exact { he with
    decRemaining := by simp only [takeByte_decActive, takeByte_decRem, hr, decide_eq_true_eq]
    decNeedsTree := fun _ => by simpa using h.decNeedsTree hd
    cursorMulti := fun hmm => by
      have hmm' : s.treeState = .multi := by simpa using hmm
      obtain ⟨c1, c2⟩ := hm hmm'
      have ha := h.arena_lt
      have hc : (BitVec.ofNat 9 cur).toNat = cur := by rw [BitVec.toNat_ofNat]; exact Nat.mod_eq_of_lt (by omega)
      obtain ⟨l, r, h1, -, -⟩ := h.tree.internals cur c1 c2
      exact ⟨_, l, r, by simpa [hc] using h1⟩
    cursorOther := fun hmm => by
      have hmm' : s.treeState ≠ .multi := by simpa using hmm
      have := ho hmm'
      subst this
      exact ⟨rfl, by simpa using (h.cursorOther hmm').2⟩ }

/-! ### DEC.BYTE's loop in a state that meets the invariants -/

/-- While a session is open the loop meets a 1 bit under a single-symbol tree, or ends at a node where the cursor may
stand, with at most as many symbols as bits (R213, R216). -/
theorem Inv.parse (h : Inv s) (hd : s.decActive = true) (bits : BitString) :
    (s.treeState = .single ∧ parseBits s bits = .badBit) ∨
    ∃ cur out, parseBits s bits = .done cur out ∧ out.length ≤ bits.length ∧
      (s.treeState = .multi → s.nsym.toNat ≤ cur ∧ cur < s.arena.length) ∧ (s.treeState ≠ .multi → cur = 0) := by
  rw [parseBits_eq]
  rcases h.decNeedsTree hd with ht | ht
  · have h1 := h.single_one ht
    have htree := h.tree
    rw [h1] at htree
    obtain ⟨sym, w, t, ha, -⟩ := treeCodes_single htree
    have hc : s.decCursor = 0 := (h.cursorOther (by rw [ht]; decide)).1
    rw [parseFrom, if_pos ht, ha, parseSingle_done]
    by_cases hb : true ∈ bits
    · exact .inl ⟨ht, by rw [if_pos hb]⟩
    · refine .inr ⟨0, List.replicate bits.length sym, by rw [if_neg hb, hc]; simp, by simp, ?_, fun _ => rfl⟩
      intro hm; rw [ht] at hm; cases hm
  · rw [parseFrom, if_neg (by rw [ht]; decide)]
    obtain ⟨cur, out, h1, h2, h3, h4⟩ := parseMulti_done h.tree (h.root_internal ht) bits (h.cursor_internal ht) []
    exact .inr ⟨cur, out, by simpa using h1, h4, fun _ => ⟨h2, h3⟩, fun hc => absurd ht hc⟩

/-- The codes of a sequence of symbols parse back into the symbols, from the root to the root (R174, R218). -/
theorem Inv.parse_codes (h : Inv s) (hv : s.codesValid = true) {syms : List Nat} (hs : ∀ x ∈ syms, HasCode s x)
    (out : List Byte) :
    parseFrom s.treeState s.arena s.root.toNat (codeBitsOf s.codes syms) s.root.toNat out
      = .done s.root.toNat (out ++ syms.map (BitVec.ofNat 8)) := by
  obtain ⟨c1, c2⟩ := h.codesCurrent hv
  induction syms generalizing out with
  | nil => simp [codeBitsOf, parseFrom, parseSingle, parseMulti]
  | cons x syms ih =>
    have ih := ih (fun y hy => hs y (List.mem_cons_of_mem _ hy))
    obtain ⟨-, hx2, -⟩ := hs x List.mem_cons_self
    have hne : codeAt s.codes x ≠ noCode := fun he => hx2 (by rw [he]; rfl)
    have hstep : ∀ rest out, parseFrom s.treeState s.arena s.root.toNat ((codeAt s.codes x).bitString ++ rest)
        s.root.toNat out = parseFrom s.treeState s.arena s.root.toNat rest s.root.toNat (out ++ [BitVec.ofNat 8 x]) := by
      intro rest out
      cases hts : s.treeState with
      | none => exact absurd hts c1
      | empty =>
        rw [hts] at c2
        simp only [treeCodes, Option.some.injEq] at c2
        rw [← c2] at hne
        exact absurd rfl hne
      | single =>
        have htree := h.tree
        rw [h.single_one hts] at htree
        obtain ⟨sym, w, t, a1, a2, -, a4, a5⟩ := treeCodes_single htree
        rw [hts, (h.cursorOther (by rw [hts]; decide)).2] at c2
        obtain rfl : t = s.codes := Option.some.inj (a2.symm.trans c2)
        have e : x = sym.toNat := by by_contra hc; exact hne (a5 x hc)
        rw [e, a4, BitVec.ofNat_toNat, BitVec.setWidth_eq]
        simp [parseFrom, Code.bitString, bitsOf, parseSingle, a1]
      | multi =>
        obtain ⟨t, a1, -, a3, a4⟩ := treeCodes_multi h.tree (h.multi_two hts)
        have hr := h.rootMulti hts
        rw [hts, hr] at c2
        obtain rfl : t = s.codes := Option.some.inj (a1.symm.trans c2)
        obtain ⟨p, sx, hp, rfl⟩ := a4 x hne
        have hb : (codeOfPath p).bitString = p := by
          obtain ⟨k, w, hd, -⟩ := hp
          have := h.tree.depth_le hd; have := h.tree.fits; have := alphaSize_le s.cfg
          exact bitString_codeOfPath (by omega)
        have hp0 : p ≠ [] := by
          rintro rfl
          rw [a3 _ sx hp] at hx2; exact hx2 rfl
        rw [a3 p sx hp, hb, BitVec.ofNat_toNat, BitVec.setWidth_eq]
        rw [← hr] at hp
        simp only [parseFrom, if_neg (show ¬ TreeState.multi = TreeState.single by decide)]
        rw [parseMulti_path hp0 hp]
    rw [codeBitsOf_cons, hstep, ih]
    simp

end Sys2Proof.Machine
end

