-- ==== Sys2Proof/Laws/Commands.lean ====
section
/-! SUPPORT. What a command can do, said once: one inversion lemma for all twelve, and that in a state that meets the invariants every command answers a next state that meets them. -/

namespace Sys2Proof.Machine

/-- The ways a command can go from `s` to a next state: one of its errors, or its effect with what its checks say of the
output buffer. -/
inductive Effect (s : State) : Instr → State → Prop
  | error (i : Instr) (c : ErrCode) : c ∈ errorsOf i → Effect s i (s.recordError c (encode i))
  | nop : Effect s .nop s
  | clrerr : Effect s .clrerr s.clearError
  | sreset : Effect s .sreset s.softReset
  | fclr : Effect s .fclr { s with freq := [] }
  | outClear : Effect s .outClear { s with outPtr := 0 }
  | build : s.encActive = false → s.decActive = false → Effect s .build s.withTree
  | extract (t : Table Code) : s.treeState ≠ .none → s.encActive = false →
      treeCodes s.treeState s.arena s.root.toNat = some t → Effect s .extract { s with codes := t, codesValid := true }
  | encStart : s.codesValid = true → s.encActive = false →
      Effect s .encStart { s with encAcc := 0, encNbits := 0, encBytes := 0, encPad := 0, encActive := true }
  | encSym (x : Nat) : s.encActive = true → s.outPtr.toNat + encTotal s (codeAt s.codes x) / 8 ≤ s.cfg.obufBytes →
      Effect s (.encSym x) (s.appendCode (codeAt s.codes x))
  | encFlushEven : s.encActive = true → s.encNbits = 0 → Effect s .encFlush { s with encPad := 0 }.closeEncoder
  | encFlushOdd : s.encActive = true → s.encNbits ≠ 0 → s.outPtr.toNat + 1 ≤ s.cfg.obufBytes →
      Effect s .encFlush { emit s (paddedByte s) with
        encBytes := BitVec.ofNat 31 (s.encBytes.toNat + 1)
        encPad := BitVec.ofNat 3 (8 - s.encNbits.toNat) }.closeEncoder
  | decStart (p : Nat) : s.treeState ≠ .none → s.decActive = false → s.arg.getLsbD 31 = false →
      ¬ (0 < chunkBits s p ∧ s.treeState = .empty) → Effect s (.decStart p) (s.openDecoder (chunkBits s p))
  | decByte (b : Byte) (cursor : Nat) (out : List Byte) : s.decActive = true →
      parseBits s (readBits s b) = .done cursor out → s.outPtr.toNat + out.length ≤ s.cfg.obufBytes →
      Effect s (.decByte b) (s.takeByte cursor out)

theorem raiseError_effect {s t : State} {i : Instr} {c : ErrCode} (h : raiseError c i s = .next t)
    (hc : c ∈ errorsOf i) : Effect s i t := by
  unfold raiseError at h; cases h; exact .error i c hc

/-- A command that answers a next state does one of the things `Effect` lists. -/
theorem exec_effect {i : Instr} {s t : State} (h : exec i s = .next t) : Effect s i t := by
  cases i <;> simp only [exec] at h
  case nop => cases h; exact .nop
  case clrerr => cases h; exact .clrerr
  case sreset => cases h; exact .sreset
  case fclr => cases h; exact .fclr
  case outClear => cases h; exact .outClear
  case build =>
    unfold execBuild at h
    split at h
    · exact raiseError_effect h (by simp [errorsOf])
    · next hc => cases h; push Not at hc; exact .build (by simpa using hc.1) (by simpa using hc.2)
  case extract =>
    unfold execExtract at h
    split at h
    · exact raiseError_effect h (by simp [errorsOf])
    · next h1 =>
      split at h
      · exact raiseError_effect h (by simp [errorsOf])
      · next h2 =>
        split at h
        · cases h
        · next t hc => cases h; exact .extract t h1 (by simpa using h2) hc
  case encStart =>
    unfold execEncStart at h
    split at h
    · exact raiseError_effect h (by simp [errorsOf])
    · next h1 =>
      split at h
      · exact raiseError_effect h (by simp [errorsOf])
      · next h2 => cases h; exact .encStart (by simpa using h1) (by simpa using h2)
  case encSym x =>
    unfold execEncSym at h
    split at h
    · exact raiseError_effect h (by simp [errorsOf])
    · next h1 =>
      split at h
      · exact raiseError_effect h (by simp [errorsOf])
      · split at h
        · exact raiseError_effect h (by simp [errorsOf])
        · next hf =>
          split at h
          · exact raiseError_effect h (by simp [errorsOf])
          · cases h; exact .encSym x (by simpa using h1) (by omega)
  case encFlush =>
    unfold execEncFlush at h
    split at h
    · exact raiseError_effect h (by simp [errorsOf])
    · next h1 =>
      have h1 : s.encActive = true := by simpa using h1
      split at h
      · next h0 => cases h; exact .encFlushEven h1 h0
      · next h0 =>
        split at h
        · exact raiseError_effect h (by simp [errorsOf])
        · next hf =>
          split at h
          · exact raiseError_effect h (by simp [errorsOf])
          · cases h; exact .encFlushOdd h1 h0 (by omega)
  case decStart p =>
    unfold execDecStart at h
    split at h
    · exact raiseError_effect h (by simp [errorsOf])
    · next h1 =>
      split at h
      · exact raiseError_effect h (by simp [errorsOf])
      · next h2 =>
        split at h
        · exact raiseError_effect h (by simp [errorsOf])
        · next h3 =>
          split at h
          · exact raiseError_effect h (by simp [errorsOf])
          · split at h
            · exact raiseError_effect h (by simp [errorsOf])
            · next h5 => cases h; exact .decStart p h1 (by simpa using h2) (by simpa using h3) h5
  case decByte b =>
    unfold execDecByte at h
    split at h
    · exact raiseError_effect h (by simp [errorsOf])
    · next h1 =>
      split at h
      · cases h
      · exact raiseError_effect h (by simp [errorsOf])
      · next cursor out hp =>
        split at h
        · exact raiseError_effect h (by simp [errorsOf])
        · split at h
          · exact raiseError_effect h (by simp [errorsOf])
          · cases h; exact .decByte b cursor out (by simpa using h1) hp (by omega)

/-- Bit 31 of ARG, as R211 (3) reads it. -/
theorem getLsbD_31 (w : Word) : w.getLsbD 31 = true ↔ 2 ^ 31 ≤ w.toNat := by
  rw [← BitVec.msb_eq_getLsbD_last (w := 32) w, BitVec.msb_eq_decide]; simp

theorem errorsOf_ne_none {i : Instr} {c : ErrCode} (h : c ∈ errorsOf i) : c ≠ .none := by
  rintro rfl
  cases i <;> simp [errorsOf] at h

/-- Every effect of a command keeps the invariants (R64). -/
theorem Effect.keeps {s t : State} {i : Instr} (h : Effect s i t) (hi : Inv s) : Inv t := by
  cases h with
  | error i c hc => exact hi.recordError (errorsOf_ne_none hc) _
  | nop => exact hi
  | clrerr => exact hi.clearError
  | sreset => exact hi.softReset
  | fclr => exact { hi with freq := ⟨Table.wf_nil _, fun e he => absurd he List.not_mem_nil⟩ }
  | outClear => exact { hi with outFits := Nat.zero_le _ }
  | build he hd => exact hi.withTree he hd
  | extract t ht he hc => exact hi.withCodes ht hc
  | encStart hc he => exact hi.startEncoder hc
  | encSym x he hf => exact hi.appendCode hf
  | encFlushEven he h0 => exact Inv.closeEncoder (s := { s with encPad := 0 }) { hi with }
  | encFlushOdd he h0 hf =>
    have hm : Inv (emit s (paddedByte s)) := hi.emitAll (xs := [paddedByte s]) hf
    exact Inv.closeEncoder { hm with }
  | decStart p ht hd h31 he =>
    refine hi.openDecoder ?_ ?_
    · have hlt : s.arg.toNat < 2 ^ 31 := by
        by_contra hc
        rw [(getLsbD_31 s.arg).mpr (by omega)] at h31; cases h31
      unfold chunkBits usefulBits; omega
    · intro hb
      cases hts : s.treeState with
      | none => exact absurd hts ht
      | empty => exact absurd ⟨hb, hts⟩ he
      | single => exact .inl rfl
      | multi => exact .inr rfl
  | decByte b cursor out hd hp hf =>
    rcases hi.parse hd (readBits s b) with ⟨-, h2⟩ | ⟨cur, o, h1, -, h3, h4⟩
    · rw [h2] at hp; cases hp
    · rw [h1] at hp; cases hp; exact hi.takeByte hf hd h3 h4

/-- In a state that meets the invariants every command answers a next state: the model's fault is out of reach (R157,
R216). -/
theorem Inv.exec_answers {s : State} (hi : Inv s) (i : Instr) : ∃ t, exec i s = .next t := by
  have r : ∀ c, ∃ t, raiseError c i s = .next t := fun c => ⟨_, rfl⟩
  cases i <;> simp only [exec]
  case nop => exact ⟨_, rfl⟩
  case clrerr => exact ⟨_, rfl⟩
  case sreset => exact ⟨_, rfl⟩
  case fclr => exact ⟨_, rfl⟩
  case outClear => exact ⟨_, rfl⟩
  case build => unfold execBuild; split <;> exact ⟨_, rfl⟩
  case extract =>
    unfold execExtract
    split
    · exact r _
    · next h =>
      split
      · exact r _
      · obtain ⟨t, h1, -⟩ := hi.treeCodes_some h
        rw [h1]; exact ⟨_, rfl⟩
  case encStart => unfold execEncStart; split; exact r _; split <;> exact ⟨_, rfl⟩
  case encSym x => unfold execEncSym; repeat' split
                   all_goals exact ⟨_, rfl⟩
  case encFlush => unfold execEncFlush; repeat' split
                   all_goals exact ⟨_, rfl⟩
  case decStart p => unfold execDecStart; repeat' split
                     all_goals exact ⟨_, rfl⟩
  case decByte b =>
    unfold execDecByte
    split
    · exact r _
    · next h =>
      rcases hi.parse (by simpa using h) (readBits s b) with ⟨-, h2⟩ | ⟨cur, out, h1, -⟩
      · rw [h2]; exact r _
      · rw [h1]; simp only; repeat' split
        all_goals exact ⟨_, rfl⟩

end Sys2Proof.Machine
end

