-- ==== Sys2Proof/Laws/Decode.lean ====
section
/-! SUPPORT. The fields of a command word, and what a successful decoding says (R100 to R104). -/

namespace Sys2Proof

theorem toNat_append {n m : Nat} (a : BitVec n) (b : BitVec m) : (a ++ b).toNat = a.toNat * 2 ^ m + b.toNat := by
  rw [BitVec.toNat_append, Nat.shiftLeft_eq, Nat.mul_comm, Nat.two_pow_add_eq_or_of_lt b.isLt]

theorem opcField_toNat (w : Word) : (opcField w).toNat = w.toNat / 2 ^ 24 := by
  have := w.isLt
  simp only [opcField, BitVec.extractLsb'_toNat, Nat.shiftRight_eq_div_pow]
  omega

theorem rsvField_toNat (w : Word) : (rsvField w).toNat = w.toNat / 2 ^ 8 % 2 ^ 16 := by
  simp only [rsvField, BitVec.extractLsb'_toNat, Nat.shiftRight_eq_div_pow]

theorem immField_toNat (w : Word) : (immField w).toNat = w.toNat % 2 ^ 8 := by
  simp only [immField, BitVec.extractLsb'_toNat, Nat.shiftRight_eq_div_pow, Nat.pow_zero, Nat.div_one]

/-- The word with a given opcode and immediate and RSV = 0 (R100). -/
theorem wordOf_toNat (opc imm : BitVec 8) :
    (opc ++ (0 : BitVec 16) ++ imm).toNat = opc.toNat * 2 ^ 24 + imm.toNat := by
  simp only [toNat_append]
  show (opc.toNat * 2 ^ 16 + 0) * 2 ^ 8 + imm.toNat = _
  omega

@[simp] theorem opcField_wordOf (opc imm : BitVec 8) : opcField (opc ++ (0 : BitVec 16) ++ imm) = opc := by
  apply BitVec.eq_of_toNat_eq
  rw [opcField_toNat, wordOf_toNat]
  have := imm.isLt; omega

@[simp] theorem rsvField_wordOf (opc imm : BitVec 8) : rsvField (opc ++ (0 : BitVec 16) ++ imm) = 0 := by
  apply BitVec.eq_of_toNat_eq
  rw [rsvField_toNat, wordOf_toNat]
  have := imm.isLt
  show _ = 0
  omega

@[simp] theorem immField_wordOf (opc imm : BitVec 8) : immField (opc ++ (0 : BitVec 16) ++ imm) = imm := by
  apply BitVec.eq_of_toNat_eq
  rw [immField_toNat, wordOf_toNat]
  have := imm.isLt; omega

/-- A word with RSV = 0 is its opcode and its immediate. -/
theorem wordOf_fields {w : Word} (h : rsvField w = 0) : opcField w ++ (0 : BitVec 16) ++ immField w = w := by
  apply BitVec.eq_of_toNat_eq
  have hr := congrArg BitVec.toNat h
  rw [rsvField_toNat] at hr
  rw [wordOf_toNat, opcField_toNat, immField_toNat]
  have := w.isLt
  change _ = 0 at hr
  omega

/-- A row of the opcode map: its opcode, and its immediate by format (R101, R104). -/
theorem opcodeMap_some {opc imm : BitVec 8} {f : Format} {i : Instr} (h : opcodeMap opc imm = some (f, i)) :
    i.opcode = opc ∧ i.wellFormed = true ∧ (f = .i → i.immediate = imm) ∧ (f = .n → i.immediate = 0) := by
  have hi := imm.isLt
  unfold opcodeMap at h
  split at h <;> simp only [Option.some.injEq, Prod.mk.injEq, reduceCtorEq] at h <;> obtain ⟨rfl, rfl⟩ := h <;>
    simp_all [Instr.opcode, Instr.wellFormed, Instr.immediate, ← BitVec.toNat_inj]

/-- What the decoder has checked when it gives a command (R102). -/
theorem decode_command {w : Word} {i : Instr} (h : decode w = .command i) :
    ∃ f, opcodeMap (opcField w) (immField w) = some (f, i) ∧ rsvField w = 0 ∧ (f = .n → immField w = 0) := by
  unfold decode at h
  split at h
  · cases h
  · next f j hm =>
    split at h
    · cases h
    · split at h
      · cases h
      · next h1 h2 =>
        cases h
        push Not at h1 h2
        exact ⟨f, hm, h1, h2⟩

/-- The word `OPC_00_00_00 | imm` of the format-I rows (R104). -/
theorem orForm (opc imm : BitVec 8) : (opc ++ (0 : BitVec 24)) ||| imm.setWidth 32 = opc ++ (0 : BitVec 16) ++ imm := by
  apply BitVec.eq_of_toNat_eq
  have h := imm.isLt
  rw [wordOf_toNat, BitVec.toNat_or, toNat_append, BitVec.toNat_setWidth, Nat.mod_eq_of_lt (by omega)]
  show opc.toNat * 2 ^ 24 + 0 ||| imm.toNat = _
  rw [Nat.add_zero, Nat.mul_comm, Nat.two_pow_add_eq_or_of_lt (lt_trans h (by norm_num))]

/-- The mask of the format-I rows (R104). -/
theorem and_highMask (w : Word) : (w &&& 0xFFFFFF00).toNat = w.toNat / 2 ^ 8 * 2 ^ 8 := by
  have : w &&& (0xFFFFFF00 : Word) = (w >>> 8) <<< 8 := by
    ext i hi
    simp only [BitVec.getElem_and, BitVec.getElem_shiftLeft]
    interval_cases i <;> simp [BitVec.getLsbD_eq_getElem]
  rw [this]
  have := w.isLt
  simp [Nat.shiftRight_eq_div_pow, Nat.shiftLeft_eq]; omega

/-- A word spells a format-I row exactly when its opcode is the row's and RSV = 0 (R104). -/
theorem spells_formatI (w : Word) (m : String) (opc : BitVec 8) :
    (⟨m, opc ++ (0 : BitVec 24), 0xFFFFFF00⟩ : OpcodeRow).spells w = true ↔ opcField w = opc ∧ rsvField w = 0 := by
  simp only [OpcodeRow.spells, beq_iff_eq, ← BitVec.toNat_inj, and_highMask, toNat_append, opcField_toNat, rsvField_toNat]
  have := w.isLt
  simp only [BitVec.toNat_ofNat, BitVec.ofNat_eq_ofNat, Nat.zero_mod]
  omega

end Sys2Proof
end

