-- ==== Sys2Proof/Laws/Merge.lean ====
section
/-! SUPPORT. The merge seen from the arena alone: the unmerged nodes are those without a parent, and each internal node's children are the two least of them (R157, R158). -/

namespace Sys2Proof.Machine

theorem mem_unmergedIn {arena : List Node} {x : Nat} :
    x ∈ unmergedIn arena ↔ x < arena.length ∧ x ∉ childrenOf arena := by simp [unmergedIn]

theorem unmergedIn_sorted (arena : List Node) : (unmergedIn arena).Pairwise (· < ·) :=
  List.Pairwise.filter _ List.pairwise_lt_range

theorem mem_mergedIndices {n : Nat} {m : MergeState} {x : Nat} :
    x ∈ mergedIndices n m ↔ x < m.i ∨ (n ≤ x ∧ x < n + (m.j - n)) := by
  simp [mergedIndices, List.mem_range'_1]

variable {L : List Node} {t : Nat} {m : MergeState}

/-- A node is unmerged exactly when no internal node has it as a child (R152). -/
theorem MergeInv.mem_unmerged (hm : MergeInv L t m) (hL : childrenOf L = []) (x : Nat) :
    x ∈ unmergedIn m.arena ↔ Unmerged L.length m x := by
  obtain ⟨h1, h2, h3⟩ := hm.fronts
  have hc := hm.merged.mem_iff (a := x)
  rw [hL, List.nil_append, mem_mergedIndices] at hc
  rw [mem_unmergedIn, hc]
  have := hm.len
  unfold Unmerged
  omega

/-- At the start of iteration t the queues hold n − t nodes (R157). -/
theorem MergeInv.length_unmerged (hm : MergeInv L t m) (hL : childrenOf L = []) (ht : t < L.length) :
    (unmergedIn m.arena).length = L.length - t := by
  obtain ⟨h1, h2, h3⟩ := hm.fronts
  have hp : (unmergedIn m.arena).Perm (List.range' m.i (L.length - m.i) ++ List.range' m.j (m.arena.length - m.j)) := by
    refine (List.perm_ext_iff_of_nodup ?_ ?_).mpr fun x => ?_
    · exact (unmergedIn_sorted _).imp fun h => Nat.ne_of_lt h
    · refine List.nodup_append.mpr ⟨List.nodup_range', List.nodup_range', ?_⟩
      intro a ha b hb
      rw [List.mem_range'_1] at ha hb
      omega
    · rw [hm.mem_unmerged hL, List.mem_append, List.mem_range'_1, List.mem_range'_1]
      unfold Unmerged
      omega
  rw [hp.length_eq, List.length_append, List.length_range', List.length_range']
  have := hm.len; have := hm.count
  omega

/-- The arena only grows: its first n + t entries are those it had after t iterations. -/
theorem take_mergeTimes (hL : LeavesAscend L) {T : Nat} (hT : T < L.length) (ht : t ≤ T) :
    (mergeTimes L.length T { arena := L, i := 0, j := L.length }).arena.take (L.length + t)
      = (mergeTimes L.length t { arena := L, i := 0, j := L.length }).arena := by
  induction T with
  | zero =>
    obtain rfl : t = 0 := by omega
    exact List.take_of_length_le (le_refl _)
  | succ T ih =>
    have hm := mergeInv_times hL T (by omega)
    rcases Nat.eq_or_lt_of_le ht with rfl | hlt
    · have hm' := mergeInv_times hL (T + 1) hT
      exact List.take_of_length_le (by rw [hm'.len])
    · rw [mergeTimes_succ]
      obtain ⟨a, b, m₁, m₂, -, -, heq⟩ := mergeOnce_spec hm hT
      rw [heq]
      simp only
      rw [List.take_append_of_le_length (by rw [hm.len]; omega)]
      exact ih (by omega) (by omega)

/-- The node made in iteration t: its children are the least unmerged node and the least of the rest (R152, R158). -/
theorem mergeTimes_node (hL : LeavesAscend L) (hc : childrenOf L = []) (ht : t + 1 < L.length) :
    ∃ a b, (mergeTimes L.length (t + 1) { arena := L, i := 0, j := L.length }).arena[L.length + t]?
        = some (.internal
            (weightAt (mergeTimes L.length t { arena := L, i := 0, j := L.length }).arena a
              + weightAt (mergeTimes L.length t { arena := L, i := 0, j := L.length }).arena b) a b) ∧
      IsLeastIn (mergeTimes L.length t { arena := L, i := 0, j := L.length }).arena
        (unmergedIn (mergeTimes L.length t { arena := L, i := 0, j := L.length }).arena) a ∧
      IsLeastIn (mergeTimes L.length t { arena := L, i := 0, j := L.length }).arena
        ((unmergedIn (mergeTimes L.length t { arena := L, i := 0, j := L.length }).arena).filter
          fun x => decide (x ≠ a)) b := by
  have hm := mergeInv_times hL t (by omega)
  rw [mergeTimes_succ]
  generalize mergeTimes L.length t { arena := L, i := 0, j := L.length } = m at hm ⊢
  obtain ⟨a, b, m₁, m₂, p1, p2, heq⟩ := mergeOnce_spec hm ht
  refine ⟨a, b, ?_, ⟨(hm.mem_unmerged hc a).mpr p1.unmerged, fun x hx => p1.least x ((hm.mem_unmerged hc x).mp hx)⟩, ?_, ?_⟩
  · rw [heq]; simp only
    rw [List.getElem?_append_right (by rw [hm.len]), hm.len, Nat.sub_self]; rfl
  · have := (p1.rest b).mp p2.unmerged
    exact List.mem_filter.mpr ⟨(hm.mem_unmerged hc b).mpr this.1, by simpa using this.2⟩
  · intro x hx
    obtain ⟨h1, h2⟩ := List.mem_filter.mp hx
    have := p2.least x ((p1.rest x).mpr ⟨(hm.mem_unmerged hc x).mp h1, by simpa using h2⟩)
    rwa [p1.arena] at this

/-- After the last iteration one node is unmerged, and it carries the whole weight. -/
theorem MergeInv.last (hm : MergeInv L t m) (hL : childrenOf L = []) (ht : t + 1 = L.length) :
    unmergedIn m.arena = [2 * L.length - 2] ∧
      weightAt m.arena (2 * L.length - 2) = ∑ k ∈ Finset.Ico 0 L.length, weightAt L k := by
  obtain ⟨h1, h2, h3⟩ := hm.fronts
  have hlen := hm.len
  have hcount := hm.count
  have hmem : ∀ x, Unmerged L.length m x ↔ x = 2 * L.length - 2 := by
    intro x
    unfold Unmerged
    rcases Nat.eq_zero_or_pos t with rfl | hp
    · omega
    · have := hm.newest hp; omega
  refine ⟨?_, ?_⟩
  · have hl := hm.length_unmerged hL (by omega)
    match hu : unmergedIn m.arena with
    | [] => rw [hu] at hl; simp at hl; omega
    | [x] =>
      have := (hmem x).mp ((hm.mem_unmerged hL x).mp (by rw [hu]; simp))
      rw [this]
    | x :: y :: rest => rw [hu] at hl; simp at hl; omega
  · rw [← hm.weight]
    unfold unmergedWeight
    rcases Nat.eq_zero_or_pos t with rfl | hp
    · have e1 : m.i = 0 := by omega
      have e2 : m.j = m.arena.length := by omega
      rw [e1, e2, ← ht]; simp
    · have := hm.newest hp
      have e1 : m.i = L.length := by omega
      have e2 : m.j = 2 * L.length - 2 := by omega
      have e3 : m.arena.length = 2 * L.length - 2 + 1 := by omega
      rw [e1, e2, e3]; simp

end Sys2Proof.Machine
end

