-- ==== Sys2Proof/Laws/Optimality.lean ====
section
/-! SUPPORT. Why the greedy merge is optimal (R159): the exchange of labels, the merge of the two deepest siblings, and the sum of weight times depth as the sum of the merges' weights. -/

namespace Sys2Proof.Machine

/-! ### Depth lists -/

/-- The depths of the leaves of a strict binary tree, left to right. -/
inductive IsShape : List Nat → Prop
  | leaf : IsShape [0]
  | node {a b : List Nat} : IsShape a → IsShape b → IsShape ((a ++ b).map (· + 1))

/-- Σ depth × weight. -/
def dot (ds ws : List Nat) : Nat := (List.zipWith (· * ·) ds ws).sum

theorem dot_cons (d w : Nat) (ds ws : List Nat) : dot (d :: ds) (w :: ws) = d * w + dot ds ws := by simp [dot]

theorem dot_append {p u : List Nat} (h : p.length = u.length) (q v : List Nat) :
    dot (p ++ q) (u ++ v) = dot p u + dot q v := by
  simp [dot, List.zipWith_append h]

theorem dot_succ {ds ws : List Nat} (h : ds.length = ws.length) : dot (ds.map (· + 1)) ws = dot ds ws + ws.sum := by
  induction ds generalizing ws with
  | nil => cases ws with
    | nil => rfl
    | cons w ws => simp at h
  | cons d ds ih => cases ws with
    | nil => simp at h
    | cons w ws =>
      rw [List.map_cons, dot_cons, dot_cons, ih (by simpa using h), List.sum_cons]; ring

/-- A tree that is no leaf has two sibling leaves at the greatest depth; taking them away leaves a tree with their parent
as a leaf. -/
theorem IsShape.deepest {ds : List Nat} (h : IsShape ds) : ds = [0] ∨ ∃ p d q, ds = p ++ (d + 1) :: (d + 1) :: q ∧
    (∀ x ∈ ds, x ≤ d + 1) ∧ IsShape (p ++ d :: q) := by
  induction h with
  | leaf => exact .inl rfl
  | @node a b ha hb iha ihb =>
    refine .inr ?_
    have left : ∀ p d q, a = p ++ (d + 1) :: (d + 1) :: q → (∀ x ∈ a, x ≤ d + 1) → IsShape (p ++ d :: q) →
        (∀ x ∈ b, x ≤ d + 1) → ∃ p d q, (a ++ b).map (· + 1) = p ++ (d + 1) :: (d + 1) :: q ∧
          (∀ x ∈ (a ++ b).map (· + 1), x ≤ d + 1) ∧ IsShape (p ++ d :: q) := by
      intro p d q h1 h2 h3 h4
      refine ⟨p.map (· + 1), d + 1, (q ++ b).map (· + 1), by simp [h1], ?_, ?_⟩
      · intro x hx
        simp only [List.mem_map, List.mem_append] at hx
        obtain ⟨y, hy | hy, rfl⟩ := hx
        · have := h2 y hy; omega
        · have := h4 y hy; omega
      · have := IsShape.node h3 hb
        simpa using this
    have right : ∀ p d q, b = p ++ (d + 1) :: (d + 1) :: q → (∀ x ∈ b, x ≤ d + 1) → IsShape (p ++ d :: q) →
        (∀ x ∈ a, x ≤ d + 1) → ∃ p d q, (a ++ b).map (· + 1) = p ++ (d + 1) :: (d + 1) :: q ∧
          (∀ x ∈ (a ++ b).map (· + 1), x ≤ d + 1) ∧ IsShape (p ++ d :: q) := by
      intro p d q h1 h2 h3 h4
      refine ⟨(a ++ p).map (· + 1), d + 1, q.map (· + 1), by simp [h1], ?_, ?_⟩
      · intro x hx
        simp only [List.mem_map, List.mem_append] at hx
        obtain ⟨y, hy | hy, rfl⟩ := hx
        · have := h4 y hy; omega
        · have := h2 y hy; omega
      · have := IsShape.node ha h3
        simpa using this
    rcases iha with rfl | ⟨p, d, q, h1, h2, h3⟩
    · rcases ihb with rfl | ⟨p, d, q, h1, h2, h3⟩
      · exact ⟨[], 0, [], rfl, by simp, IsShape.leaf⟩
      · exact right p d q h1 h2 h3 (by simp)
    · rcases ihb with rfl | ⟨p', d', q', h1', h2', h3'⟩
      · exact left p d q h1 h2 h3 (by simp)
      · rcases Nat.le_total d' d with hd | hd
        · exact left p d q h1 h2 h3 fun x hx => by have := h2' x hx; omega
        · exact right p' d' q' h1' h2' h3' fun x hx => by have := h2 x hx; omega

/-- Giving the least label to a deepest place, in exchange for the label there, does not raise the sum. -/
theorem exchange {p q u v : List Nat} {c x a : Nat} (hp : p.length = u.length) (hq : q.length = v.length)
    (hc : ∀ d ∈ p ++ q, d ≤ c) (ha : a ∈ u ++ x :: v) (hmin : ∀ w ∈ u ++ x :: v, a ≤ w) :
    ∃ u' v', u'.length = u.length ∧ v'.length = v.length ∧ (a :: (u' ++ v')).Perm (u ++ x :: v) ∧
      dot (p ++ c :: q) (u' ++ a :: v') ≤ dot (p ++ c :: q) (u ++ x :: v) := by
  have hax : a ≤ x := hmin x (by simp)
  rw [List.mem_append, List.mem_cons] at ha
  rcases ha with ha | rfl | ha
  · obtain ⟨u₁, u₂, rfl⟩ := List.append_of_mem ha
    obtain ⟨p₁, e, p₂, rfl, h1, h2⟩ : ∃ p₁ e p₂, p = p₁ ++ e :: p₂ ∧ p₁.length = u₁.length ∧ p₂.length = u₂.length := by
      refine ⟨p.take u₁.length, p[u₁.length]'(by rw [hp]; simp), p.drop (u₁.length + 1), ?_, ?_, ?_⟩
      · rw [List.getElem_cons_drop, List.take_append_drop]
      · rw [List.length_take]; simp at hp; omega
      · rw [List.length_drop]; simp at hp; omega
    have he : e ≤ c := hc e (by simp)
    refine ⟨u₁ ++ x :: u₂, v, by simp, rfl, ?_, ?_⟩
    · have e1 : (u₁ ++ a :: u₂ ++ x :: v).Perm (a :: x :: (u₁ ++ u₂ ++ v)) := by
        have := @List.perm_middle _ a u₁ u₂
        exact (this.append_right _).trans (by simpa using (@List.perm_middle _ x (u₁ ++ u₂) v).cons a)
      have e2 : (a :: (u₁ ++ x :: u₂ ++ v)).Perm (a :: x :: (u₁ ++ u₂ ++ v)) :=
        ((@List.perm_middle _ x u₁ u₂).append_right v).cons a
      exact e2.trans e1.symm
    · have l1 : (p₁ ++ e :: p₂).length = (u₁ ++ x :: u₂).length := by simp [h1, h2]
      rw [dot_append l1, dot_append hp, dot_append h1, dot_append h1, dot_cons, dot_cons, dot_cons, dot_cons]
      have := Nat.mul_le_mul_left (c - e) hax
      rw [Nat.sub_mul, Nat.sub_mul] at this
      have k1 : e * x ≤ c * x := Nat.mul_le_mul_right x he
      have k2 : e * a ≤ c * a := Nat.mul_le_mul_right a he
      omega
  · exact ⟨u, v, rfl, rfl, (List.perm_middle).symm, le_refl _⟩
  · obtain ⟨v₁, v₂, rfl⟩ := List.append_of_mem ha
    obtain ⟨q₁, e, q₂, rfl, h1, h2⟩ : ∃ q₁ e q₂, q = q₁ ++ e :: q₂ ∧ q₁.length = v₁.length ∧ q₂.length = v₂.length := by
      refine ⟨q.take v₁.length, q[v₁.length]'(by rw [hq]; simp), q.drop (v₁.length + 1), ?_, ?_, ?_⟩
      · rw [List.getElem_cons_drop, List.take_append_drop]
      · rw [List.length_take]; simp at hq; omega
      · rw [List.length_drop]; simp at hq; omega
    have he : e ≤ c := hc e (by simp)
    refine ⟨u, v₁ ++ x :: v₂, rfl, by simp, ?_, ?_⟩
    · have e1 : (u ++ x :: (v₁ ++ a :: v₂)).Perm (x :: a :: (u ++ (v₁ ++ v₂))) := by
        refine (@List.perm_middle _ x u _).trans (List.Perm.cons x ?_)
        have := @List.perm_middle _ a (u ++ v₁) v₂
        simpa using this
      have e2 : (a :: (u ++ (v₁ ++ x :: v₂))).Perm (a :: x :: (u ++ (v₁ ++ v₂))) := by
        refine List.Perm.cons a ?_
        have := @List.perm_middle _ x (u ++ v₁) v₂
        simpa using this
      exact e2.trans ((List.Perm.swap x a _).trans e1.symm)
    · have l1 : (c :: (q₁ ++ e :: q₂)).length = (a :: (v₁ ++ x :: v₂)).length := by simp [h1, h2]
      rw [dot_append hp, dot_append hp, dot_cons, dot_cons, dot_append h1, dot_append h1, dot_cons, dot_cons]
      have := Nat.mul_le_mul_left (c - e) hax
      rw [Nat.sub_mul, Nat.sub_mul] at this
      have k1 : e * x ≤ c * x := Nat.mul_le_mul_right x he
      have k2 : e * a ≤ c * a := Nat.mul_le_mul_right a he
      omega

/-- Merging the two least labels: some tree with the merged label costs less by at least their sum. -/
theorem mergeLeast {ds ws M : List Nat} {a b : Nat} (hs : IsShape ds) (hl : ds.length = ws.length)
    (hw : ws.Perm (a :: b :: M)) (ha : ∀ w ∈ ws, a ≤ w) (hb : ∀ w ∈ M, b ≤ w) :
    ∃ ds' ws', IsShape ds' ∧ ds'.length = ws'.length ∧ ws'.Perm ((a + b) :: M) ∧ dot ds' ws' + (a + b) ≤ dot ds ws := by
  rcases hs.deepest with rfl | ⟨p, d, q, rfl, hmax, hshape⟩
  · have := hw.length_eq; rw [← hl] at this; simp at this
  · obtain ⟨u, x, y, v, rfl, hu, hv⟩ : ∃ u x y v, ws = u ++ x :: y :: v ∧ p.length = u.length ∧ q.length = v.length := by
      simp only [List.length_append, List.length_cons] at hl
      refine ⟨ws.take p.length, ws[p.length]'(by omega), ws[p.length + 1]'(by omega), ws.drop (p.length + 2), ?_, ?_, ?_⟩
      · rw [List.getElem_cons_drop, List.getElem_cons_drop, List.take_append_drop]
      · rw [List.length_take]; omega
      · rw [List.length_drop]; omega
    obtain ⟨u₁, v₁, g1, g2, g3, g4⟩ := exchange (p := p) (q := (d + 1) :: q) (u := u) (v := y :: v) (c := d + 1) (x := x)
      (a := a) hu (by simp [hv]) (fun e he => hmax e (by
        simp only [List.mem_append, List.mem_cons] at he ⊢; tauto)) (hw.mem_iff.mpr (by simp)) ha
    obtain ⟨y₁, v₂, rfl⟩ : ∃ y₁ v₂, v₁ = y₁ :: v₂ := by
      cases v₁ with
      | nil => simp at g2
      | cons y₁ v₂ => exact ⟨y₁, v₂, rfl⟩
    have hM : (u₁ ++ y₁ :: v₂).Perm (b :: M) := (List.perm_cons a).mp (g3.trans hw)
    obtain ⟨u₂, v₃, k1, k2, k3, k4⟩ := exchange (p := p) (q := q) (u := u₁) (v := v₂) (c := d + 1) (x := y₁) (a := b)
      (hu.trans g1.symm) (by simp at g2; omega) (fun e he => hmax e (by
        simp only [List.mem_append, List.mem_cons] at he ⊢; tauto)) (hM.mem_iff.mpr (by simp)) (fun w hw' => by
        rcases List.mem_cons.mp (hM.mem_iff.mp hw') with rfl | h
        · exact le_refl _
        · exact hb w h)
    refine ⟨p ++ d :: q, u₂ ++ (a + b) :: v₃, hshape, ?_, ?_, ?_⟩
    · simp only [List.length_append, List.length_cons, k1, g1, k2, hu, hv]
      simp at g2; omega
    · exact (List.perm_middle).trans (((List.perm_cons b).mp (k3.trans hM)).cons (a + b))
    · have l2 : p.length = u₂.length := by rw [k1, g1, hu]
      have l1 : p.length = u₁.length := by rw [g1, hu]
      rw [dot_append hu] at g4
      rw [dot_append l1] at g4
      rw [dot_append l1, dot_append l2] at k4
      rw [dot_append l2, dot_append hu]
      simp only [dot_cons] at *
      have e1 : d * (a + b) = d * a + d * b := Nat.mul_add d a b
      have e2 : (d + 1) * a = d * a + a := Nat.succ_mul d a
      have e3 : (d + 1) * b = d * b + b := Nat.succ_mul d b
      omega

/-! ### The arena's tree -/

/-- Σ weight × depth of the leaves below entry `i`, by the recursion of the tree: each internal node adds the weights of
its children. -/
def subCost (arena : List Node) : Nat → Nat → Nat
  | 0, _ => 0
  | fuel + 1, i =>
    match arena[i]? with
    | some (.internal _ l r) => subCost arena fuel l + subCost arena fuel r + weightAt arena l + weightAt arena r
    | some (.leaf _ _) => 0
    | none => 0

variable {c : Config} {n : Nat} {arena : List Node}

theorem TreeWf.subCost_fuel (h : TreeWf c n arena) {f g i : Nat} (hf : i < f) (hg : i < g) :
    subCost arena f i = subCost arena g i := by
  induction i using Nat.strong_induction_on generalizing f g with
  | _ i ih =>
    obtain ⟨f, rfl⟩ : ∃ k, f = k + 1 := ⟨f - 1, by omega⟩
    obtain ⟨g, rfl⟩ : ∃ k, g = k + 1 := ⟨g - 1, by omega⟩
    simp only [subCost]
    cases hi : arena[i]? with
    | none => rfl
    | some nd =>
      cases nd with
      | leaf sym w => rfl
      | internal w l r =>
        have hlt := (List.getElem?_eq_some_iff.mp hi).1
        have hn : n ≤ i := by
          by_contra hc
          obtain ⟨sym, w', h1, -⟩ := h.leaves i (by omega)
          rw [h1] at hi; cases hi
        obtain ⟨l', r', h1, h2, h3⟩ := h.internals i hn hlt
        rw [h1] at hi; cases hi
        simp only
        rw [ih l h2 (f := f) (g := g) (by omega) (by omega), ih r h3 (f := f) (g := g) (by omega) (by omega)]

/-- The walk's leaves: their weights add up to the entry's, and weight times path length is the recursion's sum. -/
theorem TreeWf.walk_cost (h : TreeWf c n arena) (g : Nat → Nat)
    (hg : ∀ (k : Nat) (sym : Byte) (w : Nat), arena[k]? = some (Node.leaf sym w) → g sym.toNat = w) {fuel i : Nat} {p : BitString}
    {es : List (Nat × BitString)} (hw : walk arena fuel i p = some es) :
    (es.map fun e => g e.1).sum = weightAt arena i ∧
      (es.map fun e => g e.1 * e.2.length).sum = subCost arena fuel i + p.length * weightAt arena i := by
  induction fuel generalizing i p es with
  | zero => simp [walk] at hw
  | succ fuel ih =>
    simp only [walk] at hw
    cases hi : arena[i]? with
    | none => rw [hi] at hw; cases hw
    | some nd =>
      rw [hi] at hw
      cases nd with
      | leaf sym w =>
        cases hw
        have := hg i sym w hi
        simp [subCost, hi, weightAt, Node.weight, this, Nat.mul_comm]
      | internal w l r =>
        have hlt := (List.getElem?_eq_some_iff.mp hi).1
        have hn : n ≤ i := by
          by_contra hc
          obtain ⟨sym, w', h1, -⟩ := h.leaves i (by omega)
          rw [h1] at hi; cases hi
        obtain ⟨l', r', h1, h2, h3⟩ := h.internals i hn hlt
        rw [h1] at hi
        cases hi
        simp only at hw
        cases hwl : walk arena fuel l (p ++ [false]) with
        | none => rw [hwl] at hw; cases hw
        | some ls =>
          cases hwr : walk arena fuel r (p ++ [true]) with
          | none => rw [hwl, hwr] at hw; cases hw
          | some rs =>
            rw [hwl, hwr] at hw
            cases hw
            obtain ⟨a1, a2⟩ := ih hwl
            obtain ⟨b1, b2⟩ := ih hwr
            have hwi : weightAt arena i = weightAt arena l + weightAt arena r := weightAt_of h1
            simp only [List.map_append, List.sum_append, a1, a2, b1, b2, hwi, subCost, h1, List.length_append,
              List.length_singleton]
            exact ⟨trivial, by ring⟩

/-! ### The greedy bound -/

/-- The unmerged nodes after one more entry (R152). -/
theorem unmergedIn_succ (h : TreeWf c n arena) {k w l r : Nat} (hk : arena[k]? = some (.internal w l r))
    (hl : l ∈ unmergedIn (arena.take k)) (hr : r ∈ (unmergedIn (arena.take k)).filter fun x => decide (x ≠ l)) :
    ∃ U, (unmergedIn (arena.take k)).Perm (l :: r :: U) ∧ (unmergedIn (arena.take (k + 1))).Perm (k :: U) := by
  have hlt := (List.getElem?_eq_some_iff.mp hk).1
  have hr' := List.mem_filter.mp hr
  have hne : r ≠ l := by simpa using hr'.2
  have nodup : ∀ A : List Node, (unmergedIn A).Nodup := fun A => (unmergedIn_sorted A).imp fun h => Nat.ne_of_lt h
  have htake : arena.take (k + 1) = arena.take k ++ [.internal w l r] := by
    rw [List.take_add_one, hk]; rfl
  have hch : childrenOf (arena.take (k + 1)) = childrenOf (arena.take k) ++ [l, r] := by
    rw [htake, childrenOf_append]; rfl
  have hlen : (arena.take k).length = k := by rw [List.length_take]; omega
  have hlen' : (arena.take (k + 1)).length = k + 1 := by rw [List.length_take]; omega
  have hlk : l < k := by have := (mem_unmergedIn.mp hl).1; omega
  have hrk : r < k := by have := (mem_unmergedIn.mp hr'.1).1; omega
  have hknot : k ∉ childrenOf (arena.take k) := by
    intro hmem
    obtain ⟨a, bit, hc⟩ := childAt_of_mem_childrenOf hmem
    obtain ⟨w', l', r', hi, -⟩ := childAt_eq_some hc
    have hak : a < k := by have := (List.getElem?_eq_some_iff.mp hi).1; omega
    have hc' : childAt arena a bit = some k := by
      rw [childAt, ← List.getElem?_take_of_lt hak]; exact hc
    have := h.child_lt hc'
    omega
  refine ⟨((unmergedIn (arena.take k)).erase l).erase r, ?_, ?_⟩
  · have e1 := List.perm_cons_erase hl
    have hmem : r ∈ (unmergedIn (arena.take k)).erase l := ((nodup _).mem_erase_iff).mpr ⟨hne, hr'.1⟩
    exact e1.trans ((List.perm_cons_erase hmem).cons l)
  · refine (List.perm_ext_iff_of_nodup (nodup _) ?_).mpr fun x => ?_
    · refine List.nodup_cons.mpr ⟨fun hm => ?_, ((nodup _).erase _).erase _⟩
      have := (mem_unmergedIn.mp (List.mem_of_mem_erase (List.mem_of_mem_erase hm))).1
      omega
    · rw [mem_unmergedIn, hch, hlen', List.mem_cons, ((nodup _).erase _).mem_erase_iff, (nodup _).mem_erase_iff,
        mem_unmergedIn, hlen]
      simp only [List.mem_append, List.mem_cons, List.not_mem_nil, or_false, not_or]
      constructor
      · rintro ⟨hx, hc, h1, h2⟩
        by_cases hxk : x = k
        · exact .inl hxk
        · exact .inr ⟨h2, h1, by omega, hc⟩
      · rintro (rfl | ⟨h2, h1, hx, hc⟩)
        · exact ⟨by omega, hknot, by omega, by omega⟩
        · exact ⟨by omega, hc, h1, h2⟩

/-- If every internal node's children are the least unmerged node and the least of the rest, no tree over the same
weights has a smaller sum of weight times depth (R159). -/
theorem TreeWf.greedy_optimal (h : TreeWf c n arena) (hn : 0 < n)
    (hg : ∀ k, n ≤ k → k < arena.length → ∃ l r,
      arena[k]? = some (.internal (weightAt arena l + weightAt arena r) l r) ∧
      IsLeastIn arena (unmergedIn (arena.take k)) l ∧
      IsLeastIn arena ((unmergedIn (arena.take k)).filter fun x => decide (x ≠ l)) r)
    (hroot : unmergedIn arena = [arena.length - 1]) {ds ws : List Nat} (hs : IsShape ds) (hl : ds.length = ws.length)
    (hw : ws.Perm ((List.range n).map (weightAt arena))) :
    subCost arena arena.length (arena.length - 1) ≤ dot ds ws := by
  have hsize := h.size
  have key : ∀ m k, k + m = arena.length → n ≤ k → ∀ ds ws, IsShape ds → ds.length = ws.length →
      ws.Perm ((unmergedIn (arena.take k)).map (weightAt arena)) →
      subCost arena arena.length (arena.length - 1)
        ≤ ((unmergedIn (arena.take k)).map (subCost arena arena.length)).sum + dot ds ws := by
    intro m
    induction m with
    | zero =>
      intro k hk _ ds ws _ _ _
      rw [List.take_of_length_le (by omega), hroot]
      simp
    | succ m ih =>
      intro k hk hnk ds ws hs hl hw
      obtain ⟨l, r, h1, h2, h3⟩ := hg k hnk (by omega)
      obtain ⟨U, hU, hU'⟩ := unmergedIn_succ h h1 h2.1 h3.1
      obtain ⟨l', r', h1', hl', hr'⟩ := h.internals k hnk (by omega)
      rw [h1'] at h1
      have heq := Option.some.inj h1
      rw [Node.internal.injEq] at heq
      obtain ⟨-, el, er⟩ := heq
      rw [el] at h1' hl'
      rw [er] at h1' hr'
      have hmem : ∀ x ∈ U, x ∈ (unmergedIn (arena.take k)).filter fun x => decide (x ≠ l) := by
        intro x hx
        have hnd : (l :: r :: U).Nodup :=
          hU.nodup_iff.mp ((unmergedIn_sorted _).imp fun h => Nat.ne_of_lt h)
        refine List.mem_filter.mpr ⟨hU.mem_iff.mpr (by simp [hx]), ?_⟩
        have : l ∉ r :: U := (List.nodup_cons.mp hnd).1
        simp only [decide_eq_true_eq]
        rintro rfl
        exact this (by simp [hx])
      have hwM : ws.Perm (weightAt arena l :: weightAt arena r :: U.map (weightAt arena)) := hw.trans (hU.map _)
      obtain ⟨ds', ws', e1, e2, e3, e4⟩ := mergeLeast hs hl hwM
        (fun w hw' => by
          obtain ⟨x, hx, rfl⟩ := List.mem_map.mp (hw.mem_iff.mp hw')
          have := h2.2 x hx; omega)
        (fun w hw' => by
          obtain ⟨x, hx, rfl⟩ := List.mem_map.mp hw'
          have := h3.2 x (hmem x hx); omega)
      have hwk : weightAt arena k = weightAt arena l + weightAt arena r := weightAt_of h1'
      have := ih (k + 1) (by omega) (by omega) ds' ws' e1 e2 (e3.trans (by
        have := (hU'.map (weightAt arena)).symm
        rw [List.map_cons, hwk] at this
        exact this))
      have hsk : subCost arena arena.length k =
          subCost arena arena.length l + subCost arena arena.length r + weightAt arena l + weightAt arena r := by
        obtain ⟨f, hf⟩ : ∃ f, arena.length = f + 1 := ⟨arena.length - 1, by omega⟩
        rw [h.subCost_fuel (f := arena.length) (g := k + 1) (by omega) (by omega), subCost, h1']
        simp only
        rw [h.subCost_fuel (f := k) (g := arena.length) hl' (by omega),
          h.subCost_fuel (f := k) (g := arena.length) hr' (by omega)]
      rw [(hU'.map _).sum_eq, List.map_cons, List.sum_cons, hsk] at this
      rw [(hU.map _).sum_eq, List.map_cons, List.map_cons, List.sum_cons, List.sum_cons]
      omega
  have hstart : unmergedIn (arena.take n) = List.range n := by
    have hc : childrenOf (arena.take n) = [] := by
      rw [List.eq_nil_iff_forall_not_mem]
      intro x hx
      obtain ⟨a, bit, hc⟩ := childAt_of_mem_childrenOf hx
      obtain ⟨w', l', r', hi, -⟩ := childAt_eq_some hc
      have hlt := (List.getElem?_eq_some_iff.mp hi).1
      rw [List.length_take] at hlt
      have han : a < n := by omega
      obtain ⟨sym, w, h1, -⟩ := h.leaves a han
      rw [List.getElem?_take_of_lt han, h1] at hi
      cases hi
    simp only [unmergedIn, hc, List.length_take]
    rw [Nat.min_eq_left (by omega)]
    simp
  have := key (arena.length - n) n (by omega) (le_refl _) ds ws hs hl (by rw [hstart]; exact hw)
  rw [hstart] at this
  have hz : ((List.range n).map (subCost arena arena.length)).sum = 0 := by
    rw [List.sum_eq_zero]
    intro x hx
    obtain ⟨k, hk, rfl⟩ := List.mem_map.mp hx
    obtain ⟨sym, w, h1, -⟩ := h.leaves k (by simpa using hk)
    obtain ⟨f, hf⟩ : ∃ f, arena.length = f + 1 := ⟨arena.length - 1, by omega⟩
    rw [hf, subCost, h1]
  omega

/-! ### Trees over symbols -/

theorem BinTree.costFrom_eq (f : Nat → Nat) (τ : BinTree) (d : Nat) :
    τ.costFrom f d = τ.costFrom f 0 + d * (τ.symbols.map f).sum := by
  induction τ generalizing d with
  | leaf sym => simp [BinTree.costFrom, BinTree.symbols, Nat.mul_comm]
  | node l r ihl ihr =>
    simp only [BinTree.costFrom, BinTree.symbols, List.map_append, List.sum_append]
    rw [ihl (d + 1), ihr (d + 1), ihl 1, ihr 1]; ring

/-- The depths of a tree's leaves are a shape, and its cost is their product with the weights. -/
theorem BinTree.shape (f : Nat → Nat) (τ : BinTree) :
    ∃ ds, IsShape ds ∧ ds.length = (τ.symbols.map f).length ∧ τ.costFrom f 0 = dot ds (τ.symbols.map f) := by
  induction τ with
  | leaf sym => exact ⟨[0], .leaf, rfl, by simp [BinTree.costFrom, BinTree.symbols, dot]⟩
  | node l r ihl ihr =>
    obtain ⟨a, a1, a2, a3⟩ := ihl
    obtain ⟨b, b1, b2, b3⟩ := ihr
    refine ⟨_, .node a1 b1, by simp [BinTree.symbols] at *; omega, ?_⟩
    simp only [BinTree.costFrom, BinTree.symbols, List.map_append]
    rw [BinTree.costFrom_eq f l, BinTree.costFrom_eq f r, dot_append (by simpa using a2), dot_succ a2, dot_succ b2, a3, b3]
    ring

end Sys2Proof.Machine
end

