-- ==== Sys2Proof/Laws/Params.lean ====
section
/-! SUPPORT. The table of R15, row by row: what the parameters can be, and that the types of State and of the port carry the fixed widths. -/

namespace Sys2Proof.Machine

/-- ALPHA and ALPHA_LOG2. -/
theorem alpha_rows (c : Config) :
    (c.alphaSize = 128 ∧ c.alphaLog2 = 7) ∨ (c.alphaSize = 256 ∧ c.alphaLog2 = 8) := by
  unfold Config.alphaSize Config.alphaLog2; cases c.alpha <;> decide

/-- OBUF_BYTES: a power of two, 64 to 32768; and each of them is some configuration's. -/
theorem obufBytes_row (c : Config) : c.obufBytes = 2 ^ c.obufLog2 ∧ 64 ≤ c.obufBytes ∧ c.obufBytes ≤ 32768 :=
  ⟨rfl, obufBytes_ge c, obufBytes_le c⟩

theorem obufBytes_onto (c : Config) {k : Nat} (h6 : 6 ≤ k) (h15 : k ≤ 15) :
    ∃ sel : Fin 10, { c with obufSel := sel }.obufBytes = 2 ^ k :=
  ⟨⟨k - 6, by omega⟩, by simp only [Config.obufBytes, Config.obufLog2]; congr 1; omega⟩

/-- FREQ_W. -/
theorem freqW_row (t : Table Word) (k : Nat) : (freqAt t k).toNat < 2 ^ freqW := (freqAt t k).isLt

/-- WEIGHT_W: what it is, and that every weight of the arena fits. -/
theorem weightW_row {s : State} (h : Inv s) :
    s.cfg.weightW = 32 + s.cfg.alphaLog2 ∧ ∀ nd ∈ s.arena, nd.weight < 2 ^ s.cfg.weightW :=
  ⟨rfl, h.tree.weights⟩

/-- NODE_MAX: the arena holds no more. -/
theorem nodeMax_row {s : State} (h : Inv s) : s.cfg.nodeMax = 2 * s.cfg.alphaSize - 1 ∧ s.arena.length ≤ s.cfg.nodeMax := by
  have h1 := h.tree.size; have h2 := h.tree.fits
  refine ⟨rfl, ?_⟩
  unfold Config.nodeMax; omega

/-- MAX_CODE_LEN: no code is longer, and it fits CLEN and the pattern store. -/
theorem maxCodeLen_row {s : State} (h : Inv s) (x : Nat) :
    s.cfg.maxCodeLen = s.cfg.alphaSize - 1 ∧ (codeAt s.codes x).len.toNat ≤ s.cfg.maxCodeLen ∧
    s.cfg.maxCodeLen < 2 ^ codeLenW ∧ s.cfg.maxCodeLen < codeStoreW := by
  have ha := alphaSize_le s.cfg
  refine ⟨rfl, ?_, ?_, ?_⟩
  · by_cases hx : (codeAt s.codes x).len = 0
    · rw [hx]; exact Nat.zero_le _
    · exact (h.code_ok hx).2.2.1
  · unfold Config.maxCodeLen codeLenW; omega
  · have := alphaSize_ge s.cfg; unfold Config.maxCodeLen codeStoreW; omega

/-- The pattern store of a symbol. -/
theorem codeStoreW_row (c : Code) : c.bits.toNat < 2 ^ codeStoreW := c.bits.isLt

/-- CHUNK_MAX: ENC_BYTES goes no further, and it is the last value of its 31 bits. -/
theorem chunkMax_row (s : State) : s.encBytes.toNat ≤ chunkMax := by
  have := s.encBytes.isLt; unfold chunkMax; omega

/-- The port's address and data widths. -/
theorem port_rows (a : Access) (w : Word) : a.addr.toNat < 2 ^ portAddrW ∧ w.toNat < 2 ^ portDataW := ⟨a.addr.isLt, w.isLt⟩

/-- DEC_REM: its width, and that the longest chunk's bits fit (R57). -/
theorem decRemW_row (s : State) : s.decRem.toNat < 2 ^ decRemW ∧ 8 * chunkMax < 2 ^ decRemW :=
  ⟨s.decRem.isLt, by decide⟩

end Sys2Proof.Machine
end

