-- ==== Sys2Proof/Laws/PerInstr.lean ====
section
/-! SUPPORT. The shape of every command's word: RSV is 0, the opcode and the immediate stand in their fields, and only the format-I commands have an operand (R100, R101, R103). -/

namespace Sys2Proof.Laws.WordShape

/-- The commands with an operand (R104, format I). -/
def hasOperand : Instr → Bool
  | .nop        => false
  | .clrerr     => false
  | .sreset     => false
  | .fclr       => false
  | .outClear   => false
  | .build      => false
  | .extract    => false
  | .encStart   => false
  | .encSym _   => true
  | .encFlush   => false
  | .decStart _ => true
  | .decByte _  => true

/-- The word of `i` has `i`'s opcode and immediate, RSV = 0, and IMM8 = 0 unless `i` is of format I. -/
def Statement (i : Instr) : Prop :=
  opcField (encode i) = i.opcode ∧ rsvField (encode i) = 0 ∧ immField (encode i) = i.immediate ∧
    (hasOperand i = false → immField (encode i) = 0)

/-- The three fields of the word of any command. -/
theorem fields (i : Instr) :
    opcField (encode i) = i.opcode ∧ rsvField (encode i) = 0 ∧ immField (encode i) = i.immediate :=
  ⟨opcField_wordOf _ _, rsvField_wordOf _ _, immField_wordOf _ _⟩

theorem of_fields {i : Instr} (h : hasOperand i = false → i.immediate = 0) : Statement i := by
  obtain ⟨h1, h2, h3⟩ := fields i
  exact ⟨h1, h2, h3, fun hi => h3.trans (h hi)⟩

theorem nop : Statement .nop := of_fields fun _ => rfl
theorem clrerr : Statement .clrerr := of_fields fun _ => rfl
theorem sreset : Statement .sreset := of_fields fun _ => rfl
theorem fclr : Statement .fclr := of_fields fun _ => rfl
theorem outClear : Statement .outClear := of_fields fun _ => rfl
theorem build : Statement .build := of_fields fun _ => rfl
theorem extract : Statement .extract := of_fields fun _ => rfl
theorem encStart : Statement .encStart := of_fields fun _ => rfl
theorem encSym (s : Nat) : Statement (.encSym s) := of_fields fun h => by cases h
theorem encFlush : Statement .encFlush := of_fields fun _ => rfl
theorem decStart (p : Nat) : Statement (.decStart p) := of_fields fun h => by cases h
theorem decByte (b : Byte) : Statement (.decByte b) := of_fields fun h => by cases h

end Sys2Proof.Laws.WordShape
end

