-- ==== Sys2Proof/Laws/PersistedFile.lean ====
section
/-! SUPPORT. Reading the persisted file: each reader gives back what its writer wrote (R92 to R94). -/

namespace Sys2Proof.Machine

theorem length_int32Bytes (o : ByteOrder) (w : Word) : (int32Bytes o w).length = 4 := by cases o <;> simp [int32Bytes]

/-- An int32 reads back in the order that wrote it (R93). -/
theorem int32OfBytes_int32Bytes (o : ByteOrder) (w : Word) : int32OfBytes o (int32Bytes o w) = w := by
  apply BitVec.eq_of_toNat_eq
  have := w.isLt
  cases o <;>
    simp [int32OfBytes, int32Bytes, List.range_succ, BitVec.extractLsb'_toNat, Nat.shiftRight_eq_div_pow] <;> omega

theorem splitBytes_append {n : Nat} {xs : List Byte} (h : xs.length = n) (ys : List Byte) :
    splitBytes n (xs ++ ys) = some (xs, ys) := by
  subst h
  rw [splitBytes, if_pos (by simp), List.take_left, List.drop_left]

theorem ChunkRecord.wellFormed_iff (r : ChunkRecord) : r.wellFormed = true ↔
    r.packed.length = r.byteLength.toNat ∧ r.byteLength.toNat ≤ chunkMax ∧ r.padding.toNat ≤ 7 := by
  simp [ChunkRecord.wellFormed]

/-- A well-formed chunk reads back, and the reader stops right after it (R92). -/
theorem readChunk_bytes (o : ByteOrder) {r : ChunkRecord} (h : r.wellFormed = true) (ys : List Byte) :
    readChunk o (r.bytes o ++ ys) = some (r, ys) := by
  have hb : r.bytes o ++ ys = int32Bytes o r.byteLength ++ r.padding :: (r.packed ++ ys) := by simp [ChunkRecord.bytes]
  rw [readChunk, hb, splitBytes_append (length_int32Bytes o _)]
  simp only [int32OfBytes_int32Bytes]
  rw [splitBytes_append (r.wellFormed_iff.mp h).1]
  simp only [h, if_true]

/-- Well-formed chunks read back, in order (R92). -/
theorem readChunks_bytes (o : ByteOrder) {rs : List ChunkRecord} (h : ∀ r ∈ rs, r.wellFormed = true) (ys : List Byte) :
    readChunks o rs.length ((rs.map (ChunkRecord.bytes o)).flatten ++ ys) = some (rs, ys) := by
  induction rs with
  | nil => rfl
  | cons r rs ih =>
    simp only [List.map_cons, List.flatten_cons, List.append_assoc, List.length_cons, readChunks]
    rw [readChunk_bytes o (h r (by simp))]
    simp only [ih fun x hx => h x (by simp [hx])]

/-- The x-th int32 of a row of int32s. -/
theorem int32_of_row (o : ByteOrder) (ws : List Word) {x : Nat} (hx : x < ws.length) (ys : List Byte) :
    int32OfBytes o ((((ws.map (int32Bytes o)).flatten ++ ys).drop (4 * x)).take 4) = ws[x] := by
  induction ws generalizing x with
  | nil => simp at hx
  | cons w ws ih =>
    simp only [List.map_cons, List.flatten_cons, List.append_assoc]
    have e4 := length_int32Bytes o w
    cases x with
    | zero => rw [Nat.mul_zero, List.drop_zero, ← e4, List.take_left, int32OfBytes_int32Bytes, List.getElem_cons_zero]
    | succ x =>
      rw [Nat.mul_succ, Nat.add_comm, ← List.drop_drop]
      conv_lhs => rw [← e4, List.drop_left]
      rw [e4, List.getElem_cons_succ]
      exact ih (by simpa using hx)

/-- Writing a value at each index of a list, in order. -/
theorem read_writes (f : Nat → Word) (l : List Nat) (hl : l.Nodup) {t : Table Word} (ht : Table.wf 0 t) (k : Nat) :
    Table.read 0 (l.foldl (fun t x => Table.write 0 t x (f x)) t) k = if k ∈ l then f k else Table.read 0 t k := by
  induction l generalizing t with
  | nil => simp
  | cons x l ih =>
    have hx := List.nodup_cons.mp hl
    rw [List.foldl_cons, ih hx.2 (Table.wf_write ht _ _), Table.read_write ht]
    by_cases h : k ∈ l
    · simp [h]
    · by_cases hk : k = x <;> simp [h, hk]

/-- The header gives each symbol's frequency (R92, R94). -/
theorem freqAt_readFreq (c : Config) (freq : Table Word) {x : Nat} (hx : x < c.alphaSize) (ys : List Byte) :
    freqAt (readFreq c (((List.range c.alphaSize).map fun s => int32Bytes c.fileOrder (freqAt freq s)).flatten ++ ys)) x
      = freqAt freq x := by
  rw [freqAt, readFreq, read_writes (fun x => int32OfBytes _ _) _ List.nodup_range (Table.wf_nil 0),
    if_pos (List.mem_range.mpr hx)]
  have h := int32_of_row c.fileOrder ((List.range c.alphaSize).map (freqAt freq)) (x := x) (by simpa using hx) ys
  rw [List.map_map] at h
  simpa [Function.comp_def] using h

/-- The chunk of a closed session is well formed once its ENC_BYTES bytes have been drained (R91). -/
theorem wellFormed_chunkRecord (s : State) {packed : List Byte} (h : packed.length = s.encBytes.toNat) :
    (s.chunkRecord packed).wellFormed = true := by
  have h1 := s.encBytes.isLt
  have h2 := s.encPad.isLt
  rw [ChunkRecord.wellFormed_iff]
  simp only [State.chunkRecord, BitVec.toNat_setWidth, chunkMax]
  omega

end Sys2Proof.Machine
end

