-- ==== Sys2Proof/Laws/Port.lean ====
section
/-! SUPPORT. The port: where each register lies, what a read of it returns, what an access error does, and that one access changes the block as its command or register says and adds one answer (R33 to R36, R71 to R76, R240, R244). -/

namespace Sys2Proof.Machine

theorem err_eq_true (s : State) : s.err = true ↔ s.errCode ≠ .none := by simp [State.err]

/-! ### Reads -/

theorem readAt_of {s : State} {off : Nat} {r : Reg} (h4 : off % 4 = 0) (h : addressMap s.cfg off = some r) :
    readAt s off = some (readReg s r) := by rw [readAt, if_pos h4, h]; rfl

theorem addressMap_freq (c : Config) {k : Nat} (hk : k < c.alphaSize) : addressMap c (0x0400 + 4 * k) = some (.freq k) := by
  have ha := alphaSize_le c
  unfold addressMap; rw [if_neg (by omega), if_pos (by omega)]; congr 2; omega

theorem addressMap_codeLen (c : Config) {k : Nat} (hk : k < c.alphaSize) :
    addressMap c (0x0800 + 4 * k) = some (.codeLen k) := by
  have ha := alphaSize_le c
  unfold addressMap; rw [if_neg (by omega), if_neg (by omega), if_pos (by omega)]; congr 2; omega

theorem addressMap_codeBits (c : Config) {k w : Nat} (hk : k < c.alphaSize) (hw : w < 8) :
    addressMap c (0x1000 + 32 * k + 4 * w) = some (.codeBits k w) := by
  have ha := alphaSize_le c
  unfold addressMap
  rw [if_neg (by omega), if_neg (by omega), if_neg (by omega), if_pos (by omega)]; congr 2 <;> omega

theorem addressMap_node (c : Config) {i f : Nat} (hi : i < 2 * c.alphaSize) (hf : f < 4) :
    addressMap c (0x4000 + 16 * i + 4 * f) = some (.node i f) := by
  have ha := alphaSize_le c
  unfold addressMap
  rw [if_neg (by omega), if_neg (by omega), if_neg (by omega), if_neg (by omega), if_pos (by omega)]; congr 2 <;> omega

theorem addressMap_obuf (c : Config) {k : Nat} (hk : 4 * k < c.obufBytes) :
    addressMap c (0x8000 + 4 * k) = some (.obufWord k) := by
  have ha := alphaSize_le c
  unfold addressMap
  rw [if_neg (by omega), if_neg (by omega), if_neg (by omega), if_neg (by omega), if_neg (by omega), if_pos (by omega)]
  congr 2; omega

/-- OBUF_BYTES is a multiple of 4 (R11). -/
theorem obufBytes_mod (c : Config) : c.obufBytes % 4 = 0 := by
  unfold Config.obufBytes Config.obufLog2
  rw [show 6 + c.obufSel.val = 2 + (4 + c.obufSel.val) by omega, pow_add]; omega

/-- A FREQ register of the map is one of a symbol (R33). -/
theorem lt_of_addressMap_freq {c : Config} {off k : Nat} (h : addressMap c off = some (.freq k)) : k < c.alphaSize := by
  unfold addressMap at h
  split at h
  · have h16 : off / 4 < 16 := by omega
    generalize off / 4 = q at *
    interval_cases q <;> simp [scalarReg] at h
  · split at h
    · cases h; omega
    · repeat' split at h
      all_goals cases h

/-- Only offset 8 is CMD (R33). -/
theorem eq_of_addressMap_cmd {c : Config} {off : Nat} (h4 : off % 4 = 0) (h : addressMap c off = some .cmd) : off = 8 := by
  unfold addressMap at h
  split at h
  · have h16 : off / 4 < 16 := by omega
    generalize hq : off / 4 = q at *
    interval_cases q <;> simp [scalarReg] at h
    omega
  · repeat' split at h
    all_goals cases h

theorem setWidth_eq_ofNat {n : Nat} (x : BitVec n) : x.setWidth 32 = BitVec.ofNat 32 x.toNat := by
  apply BitVec.eq_of_toNat_eq; simp

theorem ofBool_toNat (b : Bool) : (BitVec.ofBool b).toNat = b.toNat := by cases b <;> rfl

/-! ### Access errors -/

/-- The access descriptor of R49. -/
theorem descriptor_eq (addr : BitVec 16) (b : Bool) :
    (0 : BitVec 15) ++ BitVec.ofBool b ++ addr = BitVec.ofNat 32 (addr.toNat + b.toNat * 2 ^ 16) := by
  apply BitVec.eq_of_toNat_eq
  rw [toNat_append, toNat_append, BitVec.toNat_ofNat, ofBool_toNat]
  have := addr.isLt
  cases b <;> simp <;> omega

/-- An access error changes the error record, if it is empty, and adds an error answer (R74, R244). -/
theorem refuseAccess_eq (a : Access) (s : State) : refuseAccess a s = { s with
    errCode := if s.errCode = .none then .busAccess else s.errCode
    errInfo := if s.errCode = .none then BitVec.ofNat 32 (a.addr.toNat + a.isWrite.toNat * 2 ^ 16) else s.errInfo
    observed := s.observed ++
      [{ access := a, returned := if a.isWrite = true then none else some 0, error := true }] } := by
  have h := err_eq_true s
  by_cases hs : s.errCode = .none
  · have he : ¬ s.err = true := by rw [h]; simpa using hs
    simp only [refuseAccess, State.recordBusError, if_neg he, if_pos hs, descriptor_eq]
    rfl
  · simp only [refuseAccess, State.recordBusError, if_pos (h.mpr hs), if_neg hs]
    rfl

/-! ### Commands at the gate -/

/-- A word that decodes runs its command unless the gate is closed to it (R240). -/
theorem runCommand_command {w : Word} {i : Instr} (h : decode w = .command i) (s : State) :
    runCommand w s = if s.err = true ∧ passesClosedGate i = false then .next s else exec i s := by
  unfold runCommand; rw [h]

/-- An ILLEGAL word (R240). -/
theorem runCommand_illegal {w : Word} {why : IllegalReason} (h : decode w = .illegal why) (s : State) :
    runCommand w s = if s.err = true then .next s else .next (s.recordError .illegalCmd w) := by
  unfold runCommand; rw [h]

/-! ### One access -/

/-- No command reads the host's side: `pending` goes through it. -/
theorem exec_pending (i : Instr) (s : State) (p : List PortInput) :
    exec i { s with pending := p } = andThen (exec i s) fun t => { t with pending := p } := by
  have em : ∀ (xs : List Byte) (s : State), emitAll { s with pending := p } xs = { emitAll s xs with pending := p } := by
    intro xs
    induction xs with
    | nil => intro s; rfl
    | cons x xs ih => intro s; rw [emitAll_cons, emitAll_cons, ← ih]; rfl
  cases i <;> simp only [exec]
  case nop => rfl
  case clrerr => rfl
  case sreset => rfl
  case fclr => rfl
  case outClear => rfl
  case build => unfold execBuild; simp only; split <;> rfl
  case extract =>
    unfold execExtract; simp only
    split
    · rfl
    · split
      · rfl
      · split <;> rfl
  case encStart => unfold execEncStart; simp only; split; rfl; split <;> rfl
  case encSym x =>
    have e1 : ∀ c, encTotal { s with pending := p } c = encTotal s c := fun _ => rfl
    have e2 : ∀ c, State.appendCode { s with pending := p } c = { s.appendCode c with pending := p } := by
      intro c; unfold State.appendCode; simp only [e1]; rw [em]; rfl
    unfold execEncSym; simp only [e1]; rw [e2]; repeat' split
    all_goals rfl
  case encFlush => unfold execEncFlush; simp only; repeat' split
                   all_goals rfl
  case decStart q =>
    have e1 : chunkBits { s with pending := p } q = chunkBits s q := rfl
    unfold execDecStart; simp only [e1]; repeat' split
    all_goals rfl
  case decByte b =>
    have e1 : usefulNow { s with pending := p } = usefulNow s := rfl
    have e2 : readBits { s with pending := p } b = readBits s b := rfl
    have e3 : ∀ bits, parseBits { s with pending := p } bits = parseBits s bits := fun _ => rfl
    have e4 : ∀ c o, State.takeByte { s with pending := p } c o = { s.takeByte c o with pending := p } := by
      intro c o; unfold State.takeByte; rw [em]; rfl
    unfold execDecByte; simp only [e1, e2]; rw [e3]
    split
    · rfl
    · split
      · rfl
      · rfl
      · split
        · rfl
        · split
          · rfl
          · rw [e4]; rfl

theorem runCommand_pending (w : Word) (s : State) (p : List PortInput) :
    runCommand w { s with pending := p } = andThen (runCommand w s) fun t => { t with pending := p } := by
  have e : State.err { s with pending := p } = s.err := rfl
  unfold runCommand
  rw [e]
  split
  · split
    · rfl
    · exact exec_pending _ _ _
  · split <;> rfl

theorem performAccess_pending (a : Access) (s : State) (p : List PortInput) :
    performAccess a { s with pending := p } = andThen (performAccess a s) fun t => { t with pending := p } := by
  have hr : refuseAccess a { s with pending := p } = { refuseAccess a s with pending := p } := by
    rw [refuseAccess_eq, refuseAccess_eq]
  unfold performAccess
  split
  · rw [hr]; rfl
  · simp only
    split
    · rw [hr]; rfl
    · next r hm =>
      split
      · have : readReg { s with pending := p } r = readReg s r := by cases r <;> rfl
        rw [this]; rfl
      · next v hk =>
        unfold writeReg
        cases r <;> simp only
        case cmd => rw [runCommand_pending]; cases runCommand v s <;> rfl
        case arg => rfl
        case freq => rfl
        all_goals rw [hr]; rfl

end Sys2Proof.Machine
end

