-- ==== Sys2Proof/Laws/Safety.lean ====
section
/-! SUPPORT. The launch premises of R285: each implies Clean, and what they say of OBUF. -/

namespace Sys2Proof.Machine

theorem clean_resetWith (c : Config) (draw : Nat) : Clean (State.resetWith c draw) := ⟨rfl, rfl, rfl, rfl⟩

/-- "`AfterReset` and `AfterSReset` each imply `Clean`" (R285). -/
theorem AfterReset.clean {s : State} (h : AfterReset s) : Clean s := by
  rw [h]; exact ⟨rfl, rfl, rfl, rfl⟩

theorem AfterSReset.clean {s : State} {ob : Nat → Byte} (h : AfterSReset s ob) : Clean s := by
  rw [h.1]; exact ⟨rfl, rfl, rfl, rfl⟩

/-- A state after a hardware reset is one after an SRESET over what its OBUF reads (R273). -/
theorem AfterReset.afterSReset {s : State} (h : AfterReset s) : AfterSReset s (obufByte s) := by
  refine ⟨?_, fun _ _ => rfl⟩
  have ho : s.obuf = [] := by rw [h]; rfl
  rw [ho]
  exact h

theorem obufByte_softReset (s : State) (k : Nat) : obufByte s.softReset k = obufByte s k := rfl

/-- SRESET launches over the OBUF contents before it, every byte of them (R132, R273). -/
theorem softReset_afterSReset (s : State) : AfterSReset s.softReset (obufByte s) := ⟨rfl, fun _ _ => rfl⟩

end Sys2Proof.Machine
end

