-- ==== Sys2Proof/Tests/Slice0.lean ====
section
/-! SUPPORT. Tests against the spec's own vectors (spec/95_test_vectors.md, named below) and rules, the WellFormed smoke tests, and a witness for the hypotheses of every statement. -/

namespace Sys2Proof.Tests

open Sys2Proof.Machine

/-! ### Helpers and small states -/

/-- The next state of an outcome, if it is one. -/
def nextOf (o : Host.Outcome State Fault Refusal) : Option State :=
  match o with
  | .next t => some t
  | .fault _ => none
  | .refused _ => none

/-- The state after the word `w` is written to CMD. -/
def afterWord (w : Nat) (s : State) : Option State := nextOf (step (s.withFetchWord 32 w))

/-- The state after one access. -/
def afterAccess (a : Access) (s : State) : Option State := nextOf (performAccess a s)

/-- FREQ = AAAB of 95_test_vectors.md. -/
def aaabFreq : State := { State.reset with freq := [(0x61, 3), (0x62, 1)] }

/-- After B1. -/
def aaab : State :=
  { aaabFreq with
    arena := [.leaf 0x62 1, .leaf 0x61 3, .internal 4 0 1], nsym := 2, treeState := .multi, root := 2, decCursor := 2 }

/-- After X1. -/
def coded : State :=
  { aaab with codes := [(0x61, { len := 1, bits := 1 }), (0x62, { len := 1, bits := 0 })], codesValid := true }

/-- After the ENC.START of E1. -/
def encoding : State := { coded with encActive := true }

/-- After DT1. -/
def decoding : State := { aaab with arg := 1, decRem := 4, decActive := true }

/-- After B5 (FREQ = Q3). -/
def sole : State :=
  { State.reset with freq := [(0x51, 3)], arena := [.leaf 0x51 3], nsym := 1, treeState := .single }

/-- The start of DT22. -/
def soleDecoding : State := { sole with arg := 1, decRem := 3, decActive := true }

/-- After B6 (FREQ = NONE). -/
def emptyTree : State := { State.reset with treeState := .empty }

/-- A state with an error recorded (GT9). -/
def failed : State := { State.reset with errCode := .illegalCmd, errInfo := 0x40000000 }

/-- The smallest parameters (PT12, E10, E14). -/
def small : State := State.resetWith Config.smallest 0

/-! ### Encodings (R101, R103, R104) -/

theorem test_wellFormed_refuses_encSym_256 : (Instr.encSym 256).wellFormed = false := by decide
theorem test_wellFormed_refuses_decStart_256 : (Instr.decStart 256).wellFormed = false := by decide

-- OPC in the first eight bits, RSV in the next sixteen, IMM8 in the last eight.
theorem test_decode_nop : decode 0b00000000_0000000000000000_00000000 = .command .nop := by decide
theorem test_decode_clrerr : decode 0b00000001_0000000000000000_00000000 = .command .clrerr := by decide
theorem test_decode_sreset : decode 0b00000010_0000000000000000_00000000 = .command .sreset := by decide
theorem test_decode_fclr : decode 0b00000011_0000000000000000_00000000 = .command .fclr := by decide
theorem test_decode_outClear : decode 0b00000100_0000000000000000_00000000 = .command .outClear := by decide
theorem test_decode_build : decode 0b00010000_0000000000000000_00000000 = .command .build := by decide
theorem test_decode_extract : decode 0b00010001_0000000000000000_00000000 = .command .extract := by decide
theorem test_decode_encStart : decode 0b00100000_0000000000000000_00000000 = .command .encStart := by decide
theorem test_decode_encSym : decode 0b00100001_0000000000000000_01100001 = .command (.encSym 0x61) := by decide
theorem test_decode_encFlush : decode 0b00100010_0000000000000000_00000000 = .command .encFlush := by decide
theorem test_decode_decStart : decode 0b00110000_0000000000000000_00000100 = .command (.decStart 4) := by decide
theorem test_decode_decByte : decode 0b00110001_0000000000000000_11100000 = .command (.decByte 0xE0) := by decide

/-- GT1, GT2, GT3, GT7. -/
theorem test_decode_illegal :
    decode 0b00010000_0000000000000000_00000001 = .illegal .operandInFormatN ∧
    decode 0b00100001_0000000000000001_01100001 = .illegal .reservedBits ∧
    decode 0b01000000_0000000000000000_00000000 = .illegal .reservedOpcode ∧
    decode 0b00000010_0000000000000001_00000000 = .illegal .reservedBits := by decide

/-- The pattern of every row of spec/opcode_table.json runs as the first word after reset. -/
theorem test_decodeTableWord : decodeTableWord 32 0x21000061 = some (.encSym 0x61) ∧ decodeTableWord 32 0x40000000 = none := by
  decide

/-! ### Commands -/

/-- GT8. -/
theorem test_nop : (afterWord 0x00000000 State.reset).map (fun t => (statusWord t, t.errInfo)) = some (0x00000020, 0) := by
  decide

/-- K1. -/
theorem test_clrerr :
    (afterWord 0x01000000 { State.reset with encActive := true, errCode := .obufFull, encAcc := 5, encNbits := 3 }).map
      (fun t => (statusWord t, t.encAcc, t.encNbits)) = some (0x00000328, 5, 3) := by decide

/-- K2. -/
theorem test_sreset :
    (afterWord 0x02000000 { failed with obuf := [(0, 0xE0)], outPtr := 1, freq := [(0x61, 3)] }).map
      (fun t => (statusWord t, t.errInfo, t.outPtr, freqAt t.freq 0x61, obufByte t 0)) = some (0x00000020, 0, 0, 0, 0xE0) := by
  decide

/-- K3. -/
theorem test_fclr : (afterWord 0x03000000 aaab).map (fun t => (statusWord t, t.nnodes, t.freq)) = some (0x00000023, 3, []) := by
  decide

/-- K4. -/
theorem test_outClear :
    (afterWord 0x04000000 { State.reset with outPtr := 3, obuf := [(0, 0xE0)] }).map (fun t => (t.outPtr, t.obuf))
      = some (0, [(0, 0xE0)]) := by decide

/-- B1. -/
theorem test_build : (afterWord 0x10000000 aaabFreq).map (fun t => (t.arena, t.nsym, t.root, statusWord t))
    = some ([.leaf 0x62 1, .leaf 0x61 3, .internal 4 0 1], 2, 2, 0x00000023) := by decide

/-- B3: a leaf is taken before an internal node of the same weight (D11). -/
theorem test_build_tie :
    (afterWord 0x10000000 { State.reset with freq := [(0x78, 3), (0x79, 1), (0x7A, 2)] }).map (fun t => t.arena)
      = some [.leaf 0x79 1, .leaf 0x7A 2, .leaf 0x78 3, .internal 3 0 1, .internal 6 2 3] := by decide

/-- X1. -/
theorem test_extract : (afterWord 0x11000000 aaab).map
    (fun t => (codeAt t.codes 0x61, codeAt t.codes 0x62, codeAt t.codes 0x63, statusWord t))
    = some ({ len := 1, bits := 1 }, { len := 1, bits := 0 }, { len := 0, bits := 0 }, 0x00000027) := by decide

/-- X9. -/
theorem test_extract_noTree : (afterWord 0x11000000 State.reset).map (fun t => (statusWord t, t.errInfo))
    = some (0x80020020, 0x11000000) := by decide

/-- E1, its first line. -/
theorem test_encStart : (afterWord 0x20000000 coded).map statusWord = some 0x0000002F := by decide

/-- E1, its fifth line: the pending bits 111 and the code "0". -/
theorem test_encSym :
    (afterWord 0x21000062 { encoding with encNbits := 3, encAcc := 7 }).map (fun t => (t.encNbits, t.encAcc, t.outPtr))
      = some (4, 0xE, 0) := by decide

/-- E3, its eighth ENC.SYM: the byte is complete. -/
theorem test_encSym_emits :
    (afterWord 0x21000061 { encoding with encNbits := 7, encAcc := 0x7F }).map
      (fun t => (t.encNbits, t.encAcc, t.outPtr, t.obuf)) = some (0, 0, 1, [(0, 0xFF)]) := by decide

/-- E1, its last line. -/
theorem test_encFlush :
    (afterWord 0x22000000 { encoding with encNbits := 4, encAcc := 0xE }).map
      (fun t => (t.obuf, t.encBytes, t.encPad, statusWord t)) = some ([(0, 0xE0)], 1, 4, 0x00000027) := by decide

/-- E17. -/
theorem test_encFlush_chunkTooLong :
    (afterWord 0x22000000 { encoding with encNbits := 7, encAcc := 0x7F, encBytes := 0x7FFFFFFF }).map statusWord
      = some 0x8008072F := by decide

/-- DT10. -/
theorem test_decStart : (afterWord 0x30000007 { aaab with arg := 0x7FFFFFFF }).map
    (fun t => (readReg t .decRemLo, readReg t .decRemHi, statusWord t)) = some (0xFFFFFFF1, 3, 0x00000033) := by decide

/-- DT6. -/
theorem test_decStart_badPadding : (afterWord 0x30000001 aaab).map (fun t => (statusWord t, t.errInfo))
    = some (0x800A0023, 0x30000001) := by decide

/-- DT14: the four padding bits are not looked at. -/
theorem test_decByte : (afterWord 0x310000EF decoding).map (fun t => (readReg t (.obufWord 0), t.outPtr, statusWord t))
    = some (0x62616161, 4, 0x00000023) := by decide

/-- DT24. -/
theorem test_decByte_badBit : (afterWord 0x31000020 soleDecoding).map (fun t => (statusWord t, t.errInfo, t.decRem))
    = some (0x800C0032, 0x31000020, 3) := by decide

/-! ### The port -/

/-- PT9. -/
theorem test_write_readOnly : (afterAccess (memWrite 0x0010 0) State.reset).map (fun t => (statusWord t, t.errInfo))
    = some (0x800E0020, 0x00010010) := by decide

/-- PT10. -/
theorem test_read_unmapped :
    (afterAccess (memRead 0x0040) State.reset).map
      (fun t => (t.errInfo, t.observed.map fun o => (o.returned, o.error))) = some (0x00000040, [(some 0, true)]) := by decide

/-- PT12. -/
theorem test_write_freq_128 : (afterAccess (memWrite 0x0600 1) small).map (fun t => (t.errInfo, t.freq))
    = some (0x00010600, []) := by decide

/-- The windows after B1 (R53). -/
theorem test_nodeWindow : [readAt aaab 0x4008, readAt aaab 0x4020, readAt aaab 0x402C, readAt aaab 0x4030]
    = [some 0x00006201, some 4, some 0x00010000, some 0] := by decide

/-- A hardware reset (R270). -/
theorem test_hardReset : (nextOf (step { encoding with pending := [.hardReset] })).map (fun t => (statusWord t, t.arena, t.freq))
    = some (0x00000020, [], []) := by decide

/-- A line of host notation (R108, R110). -/
theorem test_quoted : (HostLine.commandImm "ENC.SYM" (.quoted 'a')).expand Config.examples
    = some [(memWrite 0x0008 0x21000061, .nothing)] := by decide

/-- A chunk record in the file (R92): the first chunk of E1. -/
theorem test_chunkRecord : ({ byteLength := 1, padding := 4, packed := [0xE0] } : ChunkRecord).bytes .littleEndian
    = [1, 0, 0, 0, 4, 0xE0] := by decide

/-- R92: a length field that claims more bytes than there are, and a padding of 8. -/
theorem test_wellFormed_refuses_chunks :
    ({ byteLength := 2, padding := 4, packed := [0xE0] } : ChunkRecord).wellFormed = false ∧
    ({ byteLength := 1, padding := 8, packed := [0xE0] } : ChunkRecord).wellFormed = false := by decide

/-- R92: the reader goes by the length field. -/
theorem test_readChunk : readChunk .littleEndian [1, 0, 0, 0, 4, 0xE0, 0x55]
    = some ({ byteLength := 1, padding := 4, packed := [0xE0] }, [0x55]) := by decide

/-! ### States that meet the invariant -/

theorem inv_reset : Inv State.reset := Inv.resetWith Config.examples 0

theorem inv_aaab : Inv aaab := by
  have h := (((inv_reset.writeFreq (k := 0x61) (by decide) 3).writeFreq (k := 0x62) (by decide) 1).withTree rfl rfl)
  have e : ((State.reset.writeFreq 0x61 3).writeFreq 0x62 1).withTree = aaab := by decide
  rwa [e] at h

theorem inv_coded : Inv coded := inv_aaab.withCodes (by decide) (by decide)

theorem inv_encoding : Inv encoding := inv_coded.startEncoder rfl

theorem inv_decoding : Inv decoding := by
  have h := (inv_aaab.withArg 1).openDecoder (bits := 4) (by decide) (fun _ => .inr rfl)
  have e : ({ aaab with arg := 1 } : State).openDecoder 4 = decoding := by decide
  rwa [e] at h

theorem inv_sole : Inv sole := by
  have h := (inv_reset.writeFreq (k := 0x51) (by decide) 3).withTree rfl rfl
  have e : (State.reset.writeFreq 0x51 3).withTree = sole := by decide
  rwa [e] at h

theorem inv_soleDecoding : Inv soleDecoding := by
  have h := (inv_sole.withArg 1).openDecoder (bits := 3) (by decide) (fun _ => .inl rfl)
  have e : ({ sole with arg := 1 } : State).openDecoder 3 = soleDecoding := by decide
  rwa [e] at h

theorem inv_emptyTree : Inv emptyTree := by
  have h := inv_reset.withTree rfl rfl
  have e : State.reset.withTree = emptyTree := by decide
  rwa [e] at h

/-! ### Witnesses: states and operands that meet the hypotheses of each statement, a line for each of its clauses -/

/-- A full-word write of `w` to CMD is the next input. -/
def writing (w : Word) (s : State) : State :=
  { s with pending := [.access { addr := 0x0008, lanes := 0xF, kind := .write w }] }

theorem witness_DecodeInvertsEncode : (Instr.encSym 255).wellFormed = true ∧ (Instr.decStart 0).wellFormed = true := by decide

theorem witness_LegalWordIsItsEncoding : decode 0x310000FF = .command (.decByte 0xFF) := by decide

theorem witness_DecoderFollowsOpcodeTable : decode 0x210000FF = .command (.encSym 255) ∧
    (⟨"ENC.SYM", 0x21000000, 0xFFFFFF00⟩ : OpcodeRow) ∈ opcodeTable ∧
    (⟨"ENC.SYM", 0x21000000, 0xFFFFFF00⟩ : OpcodeRow).spells 0x210000FF = true := by decide

theorem witness_StepRunsDecodedCommand :
    (writing 0x10000000 aaabFreq).pending = [.access { addr := 0x0008, lanes := 0xF, kind := .write 0x10000000 }] ∧
    decode 0x10000000 = .command .build ∧ (writing 0x10000000 aaabFreq).errCode = .none ∧
    decode 0x01000000 = .command .clrerr ∧ (writing 0x01000000 failed).errCode ≠ .none := by decide

theorem witness_CommandGate : decode 0x10000000 = .command .build ∧ State.reset.errCode = .none ∧
    decode 0x02000000 = .command .sreset ∧ failed.errCode ≠ .none ∧
    decode 0x40000000 = .illegal .reservedOpcode := by decide

theorem witness_ReadsChangeNothing :
    ({ aaab with pending := [.access { addr := 0x402C, lanes := 0xF, kind := .read }] } : State).pending
      = [.access { addr := 0x402C, lanes := 0xF, kind := .read }] ∧ readAt aaab 0x402C = some 0x00010000 := by decide

theorem witness_AccessErrorsAreRecorded :
    (0x0402 : BitVec 16).toNat % 4 ≠ 0 ∧ (0x7 : BitVec 4) ≠ 0xF ∧
    addressMap State.reset.cfg (0x0040 : BitVec 16).toNat = none ∧
    addressMap State.reset.cfg (0x0010 : BitVec 16).toNat = some .status := by decide

theorem witness_ArgAndFreqWritesStore : Table.wf 0 aaab.freq ∧ 255 < aaab.cfg.alphaSize := by decide

theorem witness_RegisterMapIsOneToOne :
    (Reg.obufWord 15).exists Config.smallest = true ∧ (Reg.codeBits 127 7).exists Config.smallest = true ∧
    0x803C % 4 = 0 ∧ addressMap Config.smallest 0x803C = some (.obufWord 15) := by decide

theorem witness_UnmappedAccessesAreRefused : failed.errCode ≠ .none ∧ small.errCode = .none ∧
    (0x8040 : BitVec 16).toNat % 4 = 0 ∧ addressMap small.cfg (0x8040 : BitVec 16).toNat = none ∧
    addressMap small.cfg (0x803C : BitVec 16).toNat ≠ none ∧ addressMap small.cfg (0x0600 : BitVec 16).toNat = none ∧
    addressMap small.cfg (0x05FC : BitVec 16).toNat ≠ none ∧ addressMap small.cfg (0xFFFC : BitVec 16).toNat = none := by
  decide

theorem witness_IdentityRegistersRead : State.reset.cfg.alphaSize = 256 ∧ State.reset.cfg.obufBytes = 4096 := by decide

theorem witness_ScalarRegistersRead : aaab.arena.length < 2 ^ 10 ∧ 255 < aaab.cfg.alphaSize := by decide

theorem witness_NodeWindowReadsTheArena : 511 < 2 * aaab.cfg.alphaSize ∧
    aaab.arena[(1 : Nat)]? = some (.leaf 0x61 3) ∧ 3 < 2 ^ aaab.cfg.weightW ∧
    aaab.arena[(2 : Nat)]? = some (.internal 4 0 1) ∧ aaab.arena.length ≤ 3 := by decide

theorem witness_CodeWindowsReadTheTable : 255 < coded.cfg.alphaSize ∧ coded.codesValid = true ∧
    (codeAt coded.codes 0x61).len.toNat = 1 ∧ aaab.codesValid = false := by decide

theorem witness_ObufWindowIsLittleEndian : 4 * 1023 < State.reset.cfg.obufBytes := by decide

theorem witness_ResetValues : small = State.resetWith Config.smallest 0 ∧ 127 < Config.smallest.alphaSize ∧
    255 < 2 * Config.smallest.alphaSize := by decide

theorem witness_HardResetGivesTheResetState : ({ encoding with pending := [.hardReset] } : State).pending = [.hardReset] := by
  decide

theorem witness_NopAndClrerr : (0x00000001 : Word).toNat / 2 ^ 24 = 0 ∧ (0x00000001 : Word) ≠ 0 ∧
    State.reset.errCode = .none ∧ State.reset.errInfo = 0 := by decide

/-- Also of `Obligations.SoftResetKeepsObuf`, whose only bound is on the symbol. -/
theorem witness_FclrEmptiesFreq : aaab.errCode = .none ∧ aaab.encActive = false ∧ aaab.decActive = false ∧
    failed.errCode ≠ .none ∧ 255 < aaab.cfg.alphaSize := by decide

theorem witness_OutClearEmptiesTheBuffer : aaab.errCode = .none ∧ failed.errCode ≠ .none := by decide

/-- Of the statements about BUILD and of BUILD then EXTRACT: closed sessions with two present symbols, with one, with
none; an open encoder session; an open decoder session. -/
theorem witness_Build :
    (aaabFreq.encActive = false ∧ aaabFreq.decActive = false ∧ aaabFreq.cfg = Config.examples ∧
      aaabFreq.freq = [(0x61, 3), (0x62, 1)]) ∧
    (sole.encActive = false ∧ sole.decActive = false) ∧ (emptyTree.encActive = false ∧ emptyTree.decActive = false) ∧
    encoding.encActive = true ∧ decoding.decActive = true := by decide

/-- Of `Obligations.BuildIsOptimal`: a tree over the present symbols, and two leaves. -/
theorem witness_BuildIsOptimal :
    (BinTree.node (.leaf 0x61) (.leaf 0x62)).symbols
      = (List.range aaabFreq.cfg.alphaSize).filter (fun x => decide (freqAt aaabFreq.freq x ≠ 0)) ∧
    (nextOf (execAll [.build, .extract] aaabFreq)).map (fun t => t.nsym) = some 2 := by decide

theorem witness_ExtractChecksAndWrites : State.reset.treeState = .none ∧
    (encoding.treeState ≠ .none ∧ encoding.encActive = true) ∧
    (Inv aaab ∧ aaab.treeState ≠ .none ∧ aaab.encActive = false) :=
  ⟨by decide, by decide, inv_aaab, by decide, by decide⟩

theorem witness_ExtractOnDegenerateTrees : (Inv sole ∧ sole.encActive = false ∧ sole.treeState = .single) ∧
    (Inv emptyTree ∧ emptyTree.encActive = false ∧ emptyTree.treeState = .empty) :=
  ⟨⟨inv_sole, by decide, by decide⟩, inv_emptyTree, by decide, by decide⟩

theorem witness_ExtractAssignsPaths : Inv aaab ∧ aaab.treeState = .multi ∧ aaab.encActive = false ∧
    IsLeafPath aaab.arena aaab.root.toNat [true] 0x61 :=
  ⟨inv_aaab, by decide, by decide, 1, 3, by decide, by decide⟩

theorem witness_CodesArePrefixFree : Inv coded ∧ coded.codesValid = true ∧ (0x61 : Nat) ≠ 0x62 ∧
    0 < (codeAt coded.codes 0x61).len.toNat ∧ 0 < (codeAt coded.codes 0x62).len.toNat :=
  ⟨inv_coded, by decide, by decide, by decide, by decide⟩

theorem witness_EncStartOpensASession : aaab.codesValid = false ∧ (encoding.codesValid = true ∧ encoding.encActive = true) ∧
    (coded.codesValid = true ∧ coded.encActive = false) := by decide

/-- An encoder session that holds `nb` bits, with `op` bytes in OBUF and `eb` bytes emitted. -/
def holding (nb : BitVec 3) (op : BitVec 16) (eb : BitVec 31) : State :=
  { encoding with encNbits := nb, outPtr := op, encBytes := eb }

/-- 4096 bytes fill OBUF; 0x7FFFFFFF bytes are the most a chunk can have. -/
theorem witness_EncSymAppendsTheCode :
    255 < 256 ∧ coded.encActive = false ∧
    (encoding.encActive = true ∧ (codeAt encoding.codes 0x63).len.toNat = 0) ∧
    (small.cfg.alphaSize ≤ 128) ∧
    ((holding 7 4096 0).encActive = true ∧ 0x61 < (holding 7 4096 0).cfg.alphaSize ∧
      (codeAt (holding 7 4096 0).codes 0x61).len.toNat ≠ 0 ∧ (holding 7 4096 0).cfg.obufBytes < 4096 + (7 + 1) / 8) ∧
    ((holding 7 0 0x7FFFFFFF).outPtr.toNat + (7 + 1) / 8 ≤ (holding 7 0 0x7FFFFFFF).cfg.obufBytes ∧
      0x7FFFFFFF < (holding 7 0 0x7FFFFFFF).encBytes.toNat + (7 + 1) / 8) ∧
    ((holding 7 4095 0).outPtr.toNat + (7 + 1) / 8 ≤ (holding 7 4095 0).cfg.obufBytes ∧
      (holding 7 4095 0x7FFFFFFE).encBytes.toNat + (7 + 1) / 8 ≤ 0x7FFFFFFF) := by decide

theorem witness_EncFlushClosesTheSession :
    coded.encActive = false ∧ ((holding 0 0 0).encActive = true ∧ (holding 0 0 0).encNbits = 0) ∧
    ((holding 1 4096 0).encNbits ≠ 0 ∧ (holding 1 4096 0).cfg.obufBytes < (holding 1 4096 0).outPtr.toNat + 1) ∧
    ((holding 1 4095 0x7FFFFFFF).outPtr.toNat + 1 ≤ (holding 1 4095 0x7FFFFFFF).cfg.obufBytes ∧
      0x7FFFFFFF < (holding 1 4095 0x7FFFFFFF).encBytes.toNat + 1) ∧
    ((holding 1 4095 0x7FFFFFFE).outPtr.toNat + 1 ≤ (holding 1 4095 0x7FFFFFFE).cfg.obufBytes ∧
      (holding 1 4095 0x7FFFFFFE).encBytes.toNat + 1 ≤ 0x7FFFFFFF) := by decide

theorem hasCode_61 : HasCode coded 0x61 := by unfold HasCode; decide

theorem hasCode_62 : HasCode coded 0x62 := by unfold HasCode; decide

/-- The symbols of E1. -/
theorem witness_EncodingSessionPacksTheCodes :
    coded.codesValid = true ∧ coded.encActive = false ∧ (∀ x ∈ [0x61, 0x61, 0x61, 0x62], HasCode coded x) ∧
    codeBitsOf coded.codes [0x61, 0x61, 0x61, 0x62] = [true, true, true, false] ∧
    coded.outPtr.toNat + (4 + 7) / 8 ≤ coded.cfg.obufBytes :=
  ⟨by decide, by decide, by
    intro x hx
    simp only [List.mem_cons, List.not_mem_nil, or_false] at hx
    rcases hx with rfl | rfl | rfl | rfl
    · exact hasCode_61
    · exact hasCode_61
    · exact hasCode_61
    · exact hasCode_62, by decide, by decide⟩

theorem witness_DecStartOpensASession :
    255 < 256 ∧ State.reset.treeState = .none ∧ (decoding.treeState ≠ .none ∧ decoding.decActive = true) ∧
    (aaab.treeState ≠ .none ∧ aaab.decActive = false ∧ 2 ^ 31 ≤ (0x80000000 : Word).toNat) ∧
    ((0x7FFFFFFF : Word).toNat < 2 ^ 31 ∧ 7 < 8) ∧ (aaab.arg = 0 ∧ 1 ≠ 0) ∧
    (emptyTree.treeState = .empty ∧ emptyTree.decActive = false ∧ (1 : Word) ≠ 0) ∧
    (emptyTree.arg = 0 ∧ (emptyTree.treeState = .empty → emptyTree.arg = 0)) := by decide

/-- DEC_INCOMPLETE needs a code of more than one bit: the tree of B3, one bit into a code. -/
def shortOfALeaf : State :=
  { State.reset with
    freq := [(0x78, 3), (0x79, 1), (0x7A, 2)]
    arena := [.leaf 0x79 1, .leaf 0x7A 2, .leaf 0x78 3, .internal 3 0 1, .internal 6 2 3]
    nsym := 3, treeState := .multi, root := 4, decCursor := 4, arg := 1, decRem := 1, decActive := true }

theorem inv_shortOfALeaf : Inv shortOfALeaf := by
  have h := (((((inv_reset.writeFreq (k := 0x78) (by decide) 3).writeFreq (k := 0x79) (by decide) 1).writeFreq (k := 0x7A)
    (by decide) 2).withTree rfl rfl).withArg 1).openDecoder (bits := 1) (by decide) (fun _ => .inr (by decide))
  have e : ({ (((State.reset.writeFreq 0x78 3).writeFreq 0x79 1).writeFreq 0x7A 2).withTree with arg := 1 } : State).openDecoder 1
      = shortOfALeaf := by decide
  rwa [e] at h

/-- A full OBUF (DT25, with 4096 bytes). -/
def noRoom : State := { decoding with outPtr := 4093 }

theorem inv_noRoom : Inv noRoom := { inv_decoding with outFits := by decide }

theorem witness_DecByteReadsTheUsefulBits :
    (Inv aaab ∧ aaab.decActive = false) ∧
    (Inv soleDecoding ∧ soleDecoding.decActive = true ∧ decLoop soleDecoding 0x20 3 = none) ∧
    (Inv shortOfALeaf ∧ shortOfALeaf.decActive = true ∧ decLoop shortOfALeaf 0x80 1 = some (3, []) ∧
      shortOfALeaf.decRem.toNat - 1 = 0 ∧ 3 ≠ shortOfALeaf.root.toNat) ∧
    (Inv noRoom ∧ decLoop noRoom 0xE0 4 = some (2, [0x61, 0x61, 0x61, 0x62]) ∧ 2 = noRoom.root.toNat ∧
      noRoom.cfg.obufBytes < noRoom.outPtr.toNat + 4) ∧
    (Inv decoding ∧ decLoop decoding 0xEF 4 = some (2, [0x61, 0x61, 0x61, 0x62]) ∧ 2 = decoding.root.toNat ∧
      decoding.outPtr.toNat + 4 ≤ decoding.cfg.obufBytes) :=
  ⟨⟨inv_aaab, by decide⟩, ⟨inv_soleDecoding, by decide⟩, ⟨inv_shortOfALeaf, by decide⟩, ⟨inv_noRoom, by decide⟩,
    inv_decoding, by decide⟩

theorem witness_DecoderReadsSingleSymbolTrees :
    Inv soleDecoding ∧ soleDecoding.treeState = .single ∧ soleDecoding.decActive = true ∧ 3 = min 8 soleDecoding.decRem.toNat ∧
    (2 < 3 ∧ (0x20 : Byte).getLsbD (7 - 2) = true) ∧ (∀ i, i < 3 → (0x1F : Byte).getLsbD (7 - i) = false) ∧
    soleDecoding.outPtr.toNat + 3 ≤ soleDecoding.cfg.obufBytes :=
  ⟨inv_soleDecoding, by decide⟩

/-- DT12 and DT14. -/
theorem witness_PaddingBitsAreIgnored : Inv decoding ∧
    ∀ i, i < min 8 decoding.decRem.toNat → (0xE0 : Byte).getLsbD (7 - i) = (0xEF : Byte).getLsbD (7 - i) :=
  ⟨inv_decoding, by decide⟩

/-- E1, then P2 on an instance that only has the tree. -/
theorem witness_DecodingInvertsEncoding :
    Inv coded ∧ coded.encActive = false ∧ coded.codesValid = true ∧ (∀ x ∈ [0x61, 0x61, 0x61, 0x62], HasCode coded x) ∧
    (nextOf (execAll [.encStart, .encSym 0x61, .encSym 0x61, .encSym 0x61, .encSym 0x62, .encFlush] coded)).map
      (fun t => (t.encBytes, t.encPad, obufByte t 0)) = some (1, 4, 0xE0) ∧
    ({ aaab with arg := 1 } : State).treeState = coded.treeState ∧ ({ aaab with arg := 1 } : State).arena = coded.arena ∧
    ({ aaab with arg := 1 } : State).root = coded.root ∧ ({ aaab with arg := 1 } : State).decActive = false ∧
    ({ aaab with arg := 1 } : State).outPtr.toNat + 4 ≤ ({ aaab with arg := 1 } : State).cfg.obufBytes :=
  ⟨inv_coded, by decide, by decide, witness_EncodingSessionPacksTheCodes.2.2.1, by decide, by decide, by decide, by decide,
    by decide, by decide⟩

/-- Of `ErrorsAreAllOrNothing`, `CommandsRaiseOnlyTheirErrors` and `FailedCommandCanBeRetried`: EXTRACT without a tree;
and a word dropped by the closed gate. -/
theorem witness_ErrorsAreAllOrNothing :
    State.reset.errCode = .none ∧ State.reset.errInfo = 0 ∧
    runCommand 0x11000000 State.reset = .next { State.reset with errCode := .noTree, errInfo := 0x11000000 } ∧
    exec .extract State.reset = .next { State.reset with errCode := .noTree, errInfo := 0x11000000 } ∧
    runCommand 0x11000000 failed = .next failed := ⟨by decide, by decide, rfl, rfl, rfl⟩

theorem witness_FirstErrorIsKept : failed.errCode ≠ .none ∧
    (nextOf (performAccess (memWrite 0x0008 0x10000000) failed)).map State.errCode = some .illegalCmd ∧
    ¬ ((memWrite 0x0008 0x10000000).addr = 0x0008 ∧ (memWrite 0x0008 0x10000000).lanes = 0xF ∧
      ((memWrite 0x0008 0x10000000).kind = .write 0x01000000 ∨ (memWrite 0x0008 0x10000000).kind = .write 0x02000000)) := by
  decide

/-- Of `StepKeepsTheInvariant`, `EveryStepCompletes` and `StepTakesOneInput`: a command, a read, a reset pulse, and no input. -/
theorem witness_StepKeepsTheInvariant :
    Inv (writing 0x10000000 aaab) ∧ (nextOf (step (writing 0x10000000 aaab))).map State.pending = some [] ∧
    Inv { aaab with pending := [.hardReset] } ∧ (nextOf (step { aaab with pending := [.hardReset] })).isSome = true ∧
    aaab.pending = [] ∧ (nextOf (step aaab)) = some aaab :=
  ⟨inv_aaab.withPending _, by decide, inv_aaab.withPending _, by decide, by decide, by decide⟩

theorem witness_OnlyEmitWritesObuf : encoding.outPtr.toNat ≤ encoding.cfg.obufBytes ∧
    (nextOf (exec (.encSym 0x61) (holding 7 4095 0))).map (fun t => t.outPtr.toNat) = some 4096 := by decide

theorem witness_CommandsWriteOnlyTheirState :
    ∀ i ∈ [Instr.nop, .clrerr, .sreset, .fclr, .outClear, .build, .extract, .encStart, .encSym 0x61, .encFlush, .decStart 4,
      .decByte 0xE0], (nextOf (exec i coded)).isSome = true := by decide

theorem witness_OnlyDecStartReadsArg : ∀ p, Instr.decByte 0xE0 ≠ .decStart p := by intro p h; cases h

theorem witness_OnlyBuildReadsFreq : Instr.extract ≠ .build := by decide

theorem witness_RunIsItsAccesses : (writing 0x10000000 aaab).pending = [memWrite 0x0008 0x10000000].map .access ++ [] := by
  decide

/-- A chunk of two packed bytes. -/
def twoByteChunk : ChunkRecord := { byteLength := 2, padding := 4, packed := [0xE0, 0x80] }

/-- The second of two chunks, right after the seven bytes of the first. -/
theorem witness_PersistedFileLayout : 127 < Config.smallest.alphaSize ∧
    ({ freq := [], chunks := [twoByteChunk, twoByteChunk] } : PersistedFile).chunks = [twoByteChunk] ++ twoByteChunk :: [] ∧
    523 = 4 + 4 * Config.smallest.alphaSize + ([twoByteChunk].map fun r => 5 + r.packed.length).sum ∧
    523 = 4 + 4 * Config.smallest.alphaSize + ([twoByteChunk].map fun r => 5 + r.byteLength.toNat).sum ∧
    ({ freq := [], chunks := [twoByteChunk, twoByteChunk] } : PersistedFile).wellFormed = true ∧
    [(0xE0 : Byte)].length = ({ coded with encBytes := 1, encPad := 4 } : State).encBytes.toNat := by decide

end Sys2Proof.Tests
end

section
/-! PROOFS. One input, one answer (R25, R30, R73). A command writes none of the parameters, the waiting inputs and the
answers; completing an access adds one answer to them; a step is one such completion or a reset pulse. -/

namespace Sys2Proof.Machine

/-- `t` has the parameters, the waiting inputs and the answers of `s` (logs 1 to 3). -/
structure SameHostSide (s t : State) : Prop where
  cfg : t.cfg = s.cfg
  pending : t.pending = s.pending
  observed : t.observed = s.observed

theorem SameHostSide.refl (s : State) : SameHostSide s s := ⟨rfl, rfl, rfl⟩

/-- Whatever a command does, it leaves the host's side alone. -/
theorem Effect.sameHostSide {s t : State} {i : Instr} (h : Effect s i t) : SameHostSide s t := by
  cases h <;> constructor <;> simp

theorem exec_sameHostSide {i : Instr} {s t : State} (h : exec i s = .next t) : SameHostSide s t :=
  (exec_effect h).sameHostSide

/-- So does a full-word write to CMD, before its answer: run, dropped or ILLEGAL (R240). -/
theorem runCommand_sameHostSide {w : Word} {s t : State} (h : runCommand w s = .next t) : SameHostSide s t := by
  cases hd : decode w with
  | command i =>
    rw [runCommand_command hd] at h
    split at h
    · cases h; exact .refl s
    · exact exec_sameHostSide h
  | illegal why =>
    rw [runCommand_illegal hd] at h
    split at h
    · cases h; exact .refl s
    · cases h; exact ⟨rfl, rfl, rfl⟩

theorem andThen_eq_next {o : Host.Outcome State Fault Refusal} {f : State → State} {t : State}
    (h : andThen o f = .next t) : ∃ u, o = .next u ∧ t = f u := by
  cases o with
  | next u => cases h; exact ⟨u, rfl, rfl⟩
  | fault r => cases h
  | refused r => cases h

/-- A read is answered with a value and a write without one (R25). -/
def Access.Admits (a : Access) (returned : Option Word) : Prop :=
  (a.kind = .read → returned ≠ none) ∧ (a.kind ≠ .read → returned = none)

theorem Access.admits_some {a : Access} (h : a.kind = .read) (v : Word) : a.Admits (some v) :=
  ⟨fun _ => Option.some_ne_none v, fun hn => absurd h hn⟩

theorem Access.admits_none {a : Access} {v : Word} (h : a.kind = .write v) : a.Admits none :=
  ⟨fun hr => by simp [h] at hr, fun _ => rfl⟩

/-- `t` has the parameters and the waiting inputs of `s`, and one answer more: to `a`. -/
structure Answered (a : Access) (s t : State) : Prop where
  cfg : t.cfg = s.cfg
  pending : t.pending = s.pending
  answer : ∃ o : Observation, t.observed = s.observed ++ [o] ∧ o.access = a ∧ a.Admits o.returned

/-- An answer after any change of the block's own state. -/
theorem SameHostSide.observe {s u : State} (h : SameHostSide s u) {a : Access} {r : Option Word} (hr : a.Admits r)
    (e : Bool) : Answered a s (u.observe a r e) where
  cfg := h.cfg
  pending := h.pending
  answer := ⟨⟨a, r, e⟩, by rw [observe_observed, h.observed], rfl, hr⟩

theorem recordBusError_sameHostSide (s : State) (addr : BitVec 16) (isWrite : Bool) :
    SameHostSide s (s.recordBusError addr isWrite) := by
  unfold State.recordBusError
  split
  · exact .refl s
  · exact ⟨rfl, rfl, rfl⟩

/-- An access error is one answer (R74): 0 to a read, none to a write. -/
theorem refuseAccess_answered (a : Access) (s : State) : Answered a s (refuseAccess a s) := by
  refine (recordBusError_sameHostSide s a.addr a.isWrite).observe ?_ true
  cases hk : a.kind with
  | read => simpa [Access.isWrite, hk] using Access.admits_some hk 0
  | write v => simpa [Access.isWrite, hk] using Access.admits_none hk

/-- A write to CMD, ARG or FREQ adds its answer to what it stores; a write to any other register is an access error
(R34, R81). -/
theorem writeReg_answered {a : Access} {r : Reg} {v : Word} {s t : State} (hk : a.kind = .write v)
    (h : writeReg a r v s = .next t) : Answered a s t := by
  have hr := Access.admits_none hk
  cases r
  case cmd =>
    obtain ⟨u, hu, rfl⟩ := andThen_eq_next h
    exact (runCommand_sameHostSide hu).observe hr false
  case arg =>
    cases h
    have hs : SameHostSide s { s with arg := v } := ⟨rfl, rfl, rfl⟩
    exact hs.observe hr false
  case freq k =>
    cases h
    have hs : SameHostSide s (s.writeFreq k v) := ⟨rfl, rfl, rfl⟩
    exact hs.observe hr false
  all_goals cases h; exact refuseAccess_answered a s

/-- Every access that completes, with or without an error, is answered once (R73, R74). -/
theorem performAccess_answered {a : Access} {s t : State} (h : performAccess a s = .next t) : Answered a s t := by
  unfold performAccess at h
  split at h
  · cases h; exact refuseAccess_answered a s
  · split at h
    · cases h; exact refuseAccess_answered a s
    · next r _ =>
      split at h
      · next hk => cases h; exact (SameHostSide.refl s).observe (Access.admits_some hk _) false
      · next v hk => exact writeReg_answered hk h

theorem step_of_pending_nil {s : State} (h : s.pending = []) : step s = .next s := by
  unfold step; rw [h]

theorem step_of_pending_cons {s : State} {x : PortInput} {rest : List PortInput} (h : s.pending = x :: rest) :
    step s = performInput x { s with pending := rest } := by
  unfold step; rw [h]

/-- Settles O53, by the input the step takes: none, a pulse of the reset input, or an access, which is answered once. -/
theorem stepTakesOneInput : Obligations.StepTakesOneInput := by
  refine ⟨fun s => step_of_pending_nil, fun s t h => ?_⟩
  cases hp : s.pending with
  | nil =>
    rw [step_of_pending_nil hp] at h
    cases h
    exact ⟨rfl, hp, fun a rest h => by simp at h, fun _ => rfl⟩
  | cons x rest =>
    rw [step_of_pending_cons hp] at h
    cases x with
    | hardReset =>
      cases h
      exact ⟨rfl, rfl, fun a rest h => by simp at h, fun _ => rfl⟩
    | access a =>
      obtain ⟨hcfg, hpending, o, hobs, hacc, hread, hwrite⟩ := performAccess_answered h
      refine ⟨hcfg, hpending, fun b rest' hb => ?_, fun hn => absurd rfl (hn a rest)⟩
      cases hb
      exact ⟨o, hobs, hacc, hread, hwrite⟩

end Sys2Proof.Machine
end

section
/-! PROOFS. The invariant R64 at reset and under every step: what a write to CMD, an access and a pulse of the reset
input do to it, over the per-command lemma `Effect.keeps`. -/

namespace Sys2Proof.Machine

/-- A full-word write to CMD keeps the invariant: run, dropped or ILLEGAL (R240). -/
theorem runCommand_keeps {w : Word} {s t : State} (hi : Inv s) (h : runCommand w s = .next t) : Inv t := by
  cases hd : decode w with
  | command i =>
    rw [runCommand_command hd] at h
    split at h
    · cases h; exact hi
    · exact (exec_effect h).keeps hi
  | illegal why =>
    rw [runCommand_illegal hd] at h
    split at h
    · cases h; exact hi
    · cases h; exact hi.recordError (by decide) w

theorem refuseAccess_keeps {s : State} (hi : Inv s) (a : Access) : Inv (refuseAccess a s) :=
  (hi.recordBusError a.addr a.isWrite).observe a _ true

/-- A write to a register of the map keeps the invariant. The map holds FREQ[k] for k below ALPHA only, which is what
the clause on FREQ needs (R33, R59). -/
theorem writeReg_keeps {a : Access} {r : Reg} {v : Word} {s t : State} (hi : Inv s)
    (hr : ∀ k, r = .freq k → k < s.cfg.alphaSize) (h : writeReg a r v s = .next t) : Inv t := by
  cases r
  case cmd =>
    obtain ⟨u, hu, rfl⟩ := andThen_eq_next h
    exact (runCommand_keeps hi hu).observe a none false
  case arg => cases h; exact (hi.withArg v).observe a none false
  case freq k => cases h; exact (hi.writeFreq (hr k rfl) v).observe a none false
  all_goals cases h; exact refuseAccess_keeps hi a

/-- Every access keeps the invariant: refused, a read, or a write to a register of the map. -/
theorem performAccess_keeps {a : Access} {s t : State} (hi : Inv s) (h : performAccess a s = .next t) : Inv t := by
  unfold performAccess at h
  split at h
  · cases h; exact refuseAccess_keeps hi a
  · split at h
    · cases h; exact refuseAccess_keeps hi a
    · next r hm =>
      split at h
      · cases h; exact hi.observe a _ false
      · exact writeReg_keeps hi (fun k hk => lt_of_addressMap_freq (hk ▸ hm)) h

/-- Settles O51, by the input the step takes: none, a pulse of the reset input, or an access. -/
theorem stepKeepsTheInvariant : Obligations.StepKeepsTheInvariant := by
  intro s t hi h
  cases hp : s.pending with
  | nil => rw [step_of_pending_nil hp] at h; cases h; exact hi
  | cons x rest =>
    rw [step_of_pending_cons hp] at h
    have hrest : Inv { s with pending := rest } := hi.withPending rest
    cases x with
    | hardReset => cases h; exact hrest.hardReset
    | access a => exact performAccess_keeps hrest h

/-- Settles O50: the reset states of all parameters, `State.reset` among them, meet the invariant. -/
theorem resetMeetsTheInvariant : Obligations.ResetMeetsTheInvariant :=
  ⟨Inv.resetWith, Inv.resetWith Config.examples 0⟩

end Sys2Proof.Machine
end

section
/-! PROOFS. The port's accesses (R31 to R36, R40, R59, R74): the register map and its gaps, what a full-word access does
at a mapped and at an unmapped offset, and the statements on reads, on writes of ARG and FREQ, and on the gaps. -/

namespace Sys2Proof.Machine

/-! ### The register map -/

/-- The scalar registers stand one word after another and exist with all parameters (R33). -/
theorem offset_of_scalarReg {q : Nat} {r : Reg} (h : scalarReg q = some r) :
    r.offset = 4 * q ∧ ∀ c, r.exists c = true := by
  unfold scalarReg at h
  split at h <;> cases h <;> exact ⟨rfl, fun _ => rfl⟩

theorem scalarReg_ne_none : ∀ q, q < 16 → scalarReg q ≠ none := by decide

/-- Every register lies at a word of the 64 KiB window (R31). -/
theorem offset_inWindow {c : Config} {r : Reg} (h : r.exists c = true) : r.offset < 2 ^ 16 ∧ r.offset % 4 = 0 := by
  have ha := alphaSize_le c
  have hb := obufBytes_le c
  cases r
  case freq | codeLen | codeBits | node | obufWord =>
    simp only [Reg.exists, decide_eq_true_eq] at h
    simp only [Reg.offset]
    omega
  all_goals exact ⟨by decide, by decide⟩

/-- The map finds each register that exists at its own offset (R33). -/
theorem addressMap_offset {c : Config} {r : Reg} (h : r.exists c = true) : addressMap c r.offset = some r := by
  cases r
  case freq k => exact addressMap_freq c (by simpa [Reg.exists] using h)
  case codeLen k => exact addressMap_codeLen c (by simpa [Reg.exists] using h)
  case codeBits k w =>
    obtain ⟨hk, hw⟩ : k < c.alphaSize ∧ w < 8 := by simpa [Reg.exists] using h
    exact addressMap_codeBits c hk hw
  case node i f =>
    obtain ⟨hi, hf⟩ : i < 2 * c.alphaSize ∧ f < 4 := by simpa [Reg.exists] using h
    exact addressMap_node c hi hf
  case obufWord k =>
    have hk : k < c.obufBytes / 4 := by simpa [Reg.exists] using h
    exact addressMap_obuf c (by omega)
  all_goals rfl

/-- An aligned offset that maps to a register is that register's (R31, R33). -/
theorem offset_of_addressMap {c : Config} {off : Nat} {r : Reg} (h4 : off % 4 = 0) (h : addressMap c off = some r) :
    r.exists c = true ∧ r.offset = off := by
  have hb := obufBytes_mod c
  unfold addressMap at h
  split at h
  · obtain ⟨ho, he⟩ := offset_of_scalarReg h
    exact ⟨he c, by omega⟩
  · repeat' split at h
    all_goals cases h
    all_goals exact ⟨by simp only [Reg.exists, decide_eq_true_eq]; omega, by simp only [Reg.offset]; omega⟩

/-- Settles O11: the map and the offsets are inverse to each other. -/
theorem registerMapIsOneToOne : Obligations.RegisterMapIsOneToOne :=
  fun _ => ⟨fun _ h => ⟨(offset_inWindow h).1, (offset_inWindow h).2, addressMap_offset h⟩,
    fun _ _ => offset_of_addressMap⟩

/-- The gaps of the map (R33, R35). -/
theorem addressMap_eq_none_iff (c : Config) {off : Nat} (h4 : off % 4 = 0) (h16 : off < 2 ^ 16) :
    addressMap c off = none ↔
      (0x0040 ≤ off ∧ off ≤ 0x03FC) ∨
      (0x0400 + 4 * c.alphaSize ≤ off ∧ off ≤ 0x07FC) ∨
      (0x0800 + 4 * c.alphaSize ≤ off ∧ off ≤ 0x0FFC) ∨
      (0x1000 + 32 * c.alphaSize ≤ off ∧ off ≤ 0x3FFC) ∨
      (0x4000 + 32 * c.alphaSize ≤ off ∧ off ≤ 0x7FFC) ∨
      (0x8000 + c.obufBytes ≤ off ∧ off ≤ 0xFFFC) := by
  have ha := alphaSize_le c
  have hb := obufBytes_mod c
  unfold addressMap
  split
  · have := scalarReg_ne_none (off / 4) (by omega)
    simp only [this, false_iff]; omega
  · repeat' split
    all_goals simp only [reduceCtorEq, true_iff, false_iff]; omega

/-! ### Full-word accesses -/

theorem wellFormed_full {off : BitVec 16} {kind : AccessKind} (h4 : off.toNat % 4 = 0) :
    ({ addr := off, lanes := 0xF, kind := kind } : Access).wellFormed = true := by
  simp [Access.wellFormed, h4]

theorem performAccess_read {s : State} {off : BitVec 16} {r : Reg} (h4 : off.toNat % 4 = 0)
    (hm : addressMap s.cfg off.toNat = some r) :
    performAccess { addr := off, lanes := 0xF, kind := .read } s
      = .next (s.observe { addr := off, lanes := 0xF, kind := .read } (some (readReg s r)) false) := by
  rw [performAccess, if_neg (ne_false_of_eq_true (wellFormed_full h4))]
  simp only [hm]

theorem performAccess_write {s : State} {off : BitVec 16} {r : Reg} {v : Word} (h4 : off.toNat % 4 = 0)
    (hm : addressMap s.cfg off.toNat = some r) :
    performAccess { addr := off, lanes := 0xF, kind := .write v } s
      = writeReg { addr := off, lanes := 0xF, kind := .write v } r v s := by
  rw [performAccess, if_neg (ne_false_of_eq_true (wellFormed_full h4))]
  simp only [hm]

theorem performAccess_unmapped {s : State} {a : Access} (hm : addressMap s.cfg a.addr.toNat = none) :
    performAccess a s = .next (refuseAccess a s) := by
  simp [performAccess, hm]

/-! ### Reads -/

theorem readAt_eq_some_iff {s : State} {off : Nat} {v : Word} :
    readAt s off = some v ↔ off % 4 = 0 ∧ ∃ r, addressMap s.cfg off = some r ∧ readReg s r = v := by
  simp [readAt]

/-- No register shows the waiting inputs or the answers (logs 2, 3). -/
theorem readReg_hostSide (s : State) (p : List PortInput) (o : List Observation) (r : Reg) :
    readReg { s with pending := p, observed := o } r = readReg s r := by
  cases r <;> rfl

theorem readAt_hostSide (s : State) (p : List PortInput) (o : List Observation) (off : Nat) :
    readAt { s with pending := p, observed := o } off = readAt s off := by
  have : readReg { s with pending := p, observed := o } = readReg s := funext (readReg_hostSide s p o)
  simp only [readAt, this]

/-- Settles O8: a read of a mapped offset answers the register's word and writes the host's side alone. -/
theorem readsChangeNothing : Obligations.ReadsChangeNothing := by
  intro s rest off v hp hv
  obtain ⟨h4, r, hm, rfl⟩ := readAt_eq_some_iff.mp hv
  refine ⟨_, ?_, rfl, readAt_hostSide s _ _⟩
  rw [step_of_pending_cons hp]
  exact performAccess_read (s := { s with pending := rest }) h4 hm

/-! ### Writes of ARG and FREQ -/

theorem freqOffset_toNat {c : Config} {k : Nat} (hk : k < c.alphaSize) :
    (BitVec.ofNat 16 (0x0400 + 4 * k)).toNat = 0x0400 + 4 * k := by
  have ha := alphaSize_le c
  rw [BitVec.toNat_ofNat]; exact Nat.mod_eq_of_lt (by omega)

theorem performAccess_writeFreq (s : State) {k : Nat} (v : Word) (hk : k < s.cfg.alphaSize) :
    performAccess { addr := BitVec.ofNat 16 (0x0400 + 4 * k), lanes := 0xF, kind := .write v } s
      = .next ((s.writeFreq k v).observe
          { addr := BitVec.ofNat 16 (0x0400 + 4 * k), lanes := 0xF, kind := .write v } none false) := by
  have ho := freqOffset_toNat hk
  exact performAccess_write (r := .freq k) (by rw [ho]; omega) (by rw [ho]; exact addressMap_freq _ hk)

/-- Settles O10: the access stores the word by `writeReg`'s arms for ARG and FREQ; FREQ reads back by its canonical
form. -/
theorem argAndFreqWritesStore : Obligations.ArgAndFreqWritesStore := by
  refine ⟨fun s v => performAccess_write (r := .arg) rfl rfl, fun s k v hwf hk => ?_⟩
  refine ⟨_, performAccess_writeFreq s v hk, rfl, ?_, fun j hj => ?_⟩
  · rw [observe_freq, freqAt_writeFreq hwf, if_pos rfl]
  · rw [observe_freq, freqAt_writeFreq hwf, if_neg hj]

/-! ### Accesses to the gaps -/

/-- Settles O12: the gaps by the map's ranges, and an access to one by what every access error does. -/
theorem unmappedAccessesAreRefused : Obligations.UnmappedAccessesAreRefused := by
  intro s off v h4
  refine ⟨addressMap_eq_none_iff s.cfg h4 off.isLt, fun hm kind hkind => ⟨_, performAccess_unmapped hm, ?_⟩⟩
  rw [refuseAccess_eq]
  rcases hkind with rfl | rfl <;> simp [Access.isWrite]

end Sys2Proof.Machine
end

section
/-! PROOFS. What reads return (R37 to R62): each register's word from its fields. -/

namespace Sys2Proof.Machine

/-! ### ID and CONFIG -/

theorem configWord_toNat (c : Config) :
    (configWord c).toNat = c.alphaLog2 + 2 ^ 8 * c.obufLog2 + 2 ^ 24 * 0x01 := by
  have ha : c.alphaLog2 < 2 ^ 4 := by rcases alpha_rows c with ⟨-, h⟩ | ⟨-, h⟩ <;> omega
  have hb : c.obufLog2 < 2 ^ 4 := by unfold Config.obufLog2; omega
  simp only [configWord, toNat_append, BitVec.ofNat_eq_ofNat, BitVec.toNat_ofNat, Nat.mod_eq_of_lt ha,
    Nat.mod_eq_of_lt hb]
  omega

theorem readAt_config (s : State) : readAt s 0x0004 = some (configWord s.cfg) := rfl

/-- Settles O14: ID is one word, CONFIG the parameters at their places; the example by the two logarithms. -/
theorem identityRegistersRead : Obligations.IdentityRegistersRead := by
  intro s
  refine ⟨rfl, ⟨_, readAt_config s, configWord_toNat s.cfg⟩, ?_, by unfold Config.obufLog2; omega,
    by unfold Config.obufLog2; omega, fun ha hb => ?_⟩
  · exact (alpha_rows s.cfg).imp And.right And.right
  · have h8 : s.cfg.alphaLog2 = 8 := Nat.pow_right_injective (le_refl 2) (ha.trans (by norm_num : 256 = 2 ^ 8))
    have h12 : s.cfg.obufLog2 = 12 := Nat.pow_right_injective (le_refl 2) (hb.trans (by norm_num : 4096 = 2 ^ 12))
    rw [readAt_config, configWord, h8, h12]
    rfl

/-! ### STATUS -/

theorem readAt_status (s : State) : readAt s 0x0010 = some (statusWord s) := rfl

/-- The fields of STATUS at their places (R41). -/
theorem statusWord_toNat (s : State) :
    (statusWord s).toNat = s.treeState.code.toNat + 2 ^ 2 * s.codesValid.toNat + 2 ^ 3 * s.encActive.toNat
      + 2 ^ 4 * s.decActive.toNat + 2 ^ 5 * s.decAtRoot.toNat + 2 ^ 8 * s.encNbits.toNat + 2 ^ 16 * s.errCode.code.toNat
      + 2 ^ 31 * s.err.toNat := by
  simp only [statusWord, toNat_append, ofBool_toNat, BitVec.ofNat_eq_ofNat, BitVec.toNat_ofNat]
  omega

theorem decAtRoot_toNat (s : State) : s.decAtRoot.toNat = if s.decCursor = s.root then 1 else 0 := by
  unfold State.decAtRoot; split <;> simp_all

theorem err_toNat (s : State) : s.err.toNat = if s.errCode = .none then 0 else 1 := by
  unfold State.err; split <;> simp_all

/-- Settles O15: the word is the sum of its fields, two of which are views of other state (R46, R48). -/
theorem statusReadsItsFields : Obligations.StatusReadsItsFields :=
  ⟨fun s => ⟨_, readAt_status s, by rw [statusWord_toNat, decAtRoot_toNat, err_toNat]⟩, by decide, by decide⟩

/-! ### The scalar registers and FREQ -/

theorem readAt_freq (s : State) {k : Nat} (hk : k < s.cfg.alphaSize) :
    readAt s (0x0400 + 4 * k) = some (freqAt s.freq k) :=
  readAt_of (by omega) (addressMap_freq _ hk)

/-- A field narrower than the port reads with zeros above it. -/
theorem readAt_field {s : State} {off n : Nat} {x : BitVec n} (h : readAt s off = some (x.setWidth 32)) :
    readAt s off = some (BitVec.ofNat 32 x.toNat) := by
  rw [h, setWidth_eq_ofNat]

theorem readAt_nnodes {s : State} (h : s.arena.length < 2 ^ 10) :
    readAt s 0x001C = some (BitVec.ofNat 32 s.arena.length) := by
  have hr : readAt s 0x001C = some ((BitVec.ofNat 10 s.arena.length).setWidth 32) := rfl
  rw [readAt_field hr, BitVec.toNat_ofNat, Nat.mod_eq_of_lt h]

/-- The two words of DEC_REM (R57). -/
theorem decRem_words (x : BitVec 34) :
    ((x.extractLsb' 32 2).setWidth 32).toNat < 4 ∧
      x.toNat = (x.extractLsb' 0 32).toNat + 2 ^ 32 * ((x.extractLsb' 32 2).setWidth 32).toNat := by
  have := x.isLt
  simp only [BitVec.toNat_setWidth, BitVec.extractLsb'_toNat, Nat.shiftRight_eq_div_pow]
  omega

/-- Settles O16, register by register. -/
theorem scalarRegistersRead : Obligations.ScalarRegistersRead := fun s =>
  ⟨rfl, rfl, readAt_field rfl, readAt_nnodes, readAt_field rfl, readAt_field rfl, readAt_field rfl, readAt_field rfl,
    readAt_field rfl, ⟨_, _, rfl, rfl, decRem_words s.decRem⟩, readAt_field rfl, fun _ => readAt_freq s⟩

/-! ### The NODE window -/

theorem readAt_node (s : State) {i f : Nat} (hi : i < 2 * s.cfg.alphaSize) (hf : f < 4) :
    readAt s (0x4000 + 16 * i + 4 * f) = some (nodeWindow s i f) :=
  readAt_of (by omega) (addressMap_node _ hi hf)

theorem nodeWindow_of {s : State} {i : Nat} {nd : Node} (h : s.arena[i]? = some nd) (f : Nat) :
    nodeWindow s i f = nodeWord s.cfg nd f := by
  simp [nodeWindow, h]

theorem nodeWindow_undefined {s : State} {i : Nat} (h : s.arena.length ≤ i) (f : Nat) : nodeWindow s i f = 0 := by
  simp [nodeWindow, List.getElem?_eq_none h]

/-- The low word of a weight (R53). -/
theorem nodeWord_zero (c : Config) (nd : Node) : nodeWord c nd 0 = BitVec.ofNat 32 (nd.weight % 2 ^ 32) := by
  apply BitVec.eq_of_toNat_eq; simp [nodeWord]

/-- The high word of a weight of WEIGHT_W bits (R53). -/
theorem nodeWord_one {c : Config} {nd : Node} (h : nd.weight < 2 ^ c.weightW) :
    nodeWord c nd 1 = BitVec.ofNat 32 (nd.weight / 2 ^ 32) := by
  have hw : nd.weight / 2 ^ 32 < 2 ^ (c.weightW - 32) := by
    rw [Nat.div_lt_iff_lt_mul (by norm_num), ← pow_add, Nat.sub_add_cancel (by unfold Config.weightW; omega)]
    exact h
  rw [nodeWord, Nat.shiftRight_eq_div_pow, Nat.mod_eq_of_lt hw]

/-- The leaf bit and the symbol (R53). -/
theorem nodeWord_two_leaf (c : Config) (sym : Byte) (w : Nat) :
    nodeWord c (.leaf sym w) 2 = BitVec.ofNat 32 (1 + 2 ^ 8 * sym.toNat) := by
  apply BitVec.eq_of_toNat_eq
  have := sym.isLt
  simp only [nodeWord, toNat_append, BitVec.ofNat_eq_ofNat, BitVec.toNat_ofNat]
  omega

/-- The child indices (R53). -/
theorem nodeWord_three_internal (c : Config) (w : Nat) {left right : Nat} (hl : left < 2 ^ 9) (hr : right < 2 ^ 9) :
    nodeWord c (.internal w left right) 3 = BitVec.ofNat 32 (left + 2 ^ 16 * right) := by
  apply BitVec.eq_of_toNat_eq
  simp only [nodeWord, toNat_append, BitVec.ofNat_eq_ofNat, BitVec.toNat_ofNat]
  omega

/-- Settles O17: the words of a defined entry by `nodeWord`, and none beyond NNODES. -/
theorem nodeWindowReadsTheArena : Obligations.NodeWindowReadsTheArena := by
  intro s i hi
  have hread : ∀ {nd : Node}, s.arena[i]? = some nd → ∀ f, f < 4 →
      readAt s (0x4000 + 16 * i + 4 * f) = some (nodeWord s.cfg nd f) := fun h f hf => by
    rw [readAt_node s hi hf, nodeWindow_of h]
  refine ⟨fun sym w h hw => ?_, fun w left right h hw hl hr => ?_, fun h f hf => ?_⟩
  · exact ⟨(hread h 0 (by omega)).trans (congrArg some (nodeWord_zero _ _)),
      (hread h 1 (by omega)).trans (congrArg some (nodeWord_one hw)),
      (hread h 2 (by omega)).trans (congrArg some (nodeWord_two_leaf _ _ _)), hread h 3 (by omega)⟩
  · exact ⟨(hread h 0 (by omega)).trans (congrArg some (nodeWord_zero _ _)),
      (hread h 1 (by omega)).trans (congrArg some (nodeWord_one hw)), hread h 2 (by omega),
      (hread h 3 (by omega)).trans (congrArg some (nodeWord_three_internal _ _ hl hr))⟩
  · rw [readAt_node s hi hf, nodeWindow_undefined h]

/-! ### The code windows -/

theorem readAt_codeLen (s : State) {x : Nat} (hx : x < s.cfg.alphaSize) :
    readAt s (0x0800 + 4 * x) = some (codeLenWindow s x) :=
  readAt_of (by omega) (addressMap_codeLen _ hx)

theorem readAt_codeBits (s : State) {x w : Nat} (hx : x < s.cfg.alphaSize) (hw : w < 8) :
    readAt s (0x1000 + 32 * x + 4 * w) = some (codeBitsWindow s x w) :=
  readAt_of (by omega) (addressMap_codeBits _ hx hw)

theorem codeLenWindow_valid {s : State} (h : s.codesValid = true) (x : Nat) :
    codeLenWindow s x = BitVec.ofNat 32 (codeAt s.codes x).len.toNat := by
  rw [codeLenWindow, if_pos h, setWidth_eq_ofNat]

theorem codeBitsWindow_valid {s : State} (h : s.codesValid = true) (x w : Nat) :
    codeBitsWindow s x w = (codeAt s.codes x).bits.extractLsb' (32 * w) 32 := by
  rw [codeBitsWindow, if_pos h]

theorem codeLenWindow_hidden {s : State} (h : s.codesValid = false) (x : Nat) : codeLenWindow s x = 0 := by
  simp [codeLenWindow, h]

theorem codeBitsWindow_hidden {s : State} (h : s.codesValid = false) (x w : Nat) : codeBitsWindow s x w = 0 := by
  simp [codeBitsWindow, h]

theorem extractLsb'_eq_ofNat (b : BitVec 256) (w : Nat) :
    b.extractLsb' (32 * w) 32 = BitVec.ofNat 32 (b.toNat / 2 ^ (32 * w) % 2 ^ 32) := by
  apply BitVec.eq_of_toNat_eq
  simp [BitVec.extractLsb'_toNat, Nat.shiftRight_eq_div_pow]

/-- Bit i of a code of length L is bit L − 1 − i of its pattern (R60). -/
theorem Code.getElem?_bitString (c : Code) {i : Nat} (hi : i < c.len.toNat) :
    c.bitString[i]? = some (c.bits.getLsbD (c.len.toNat - 1 - i)) := by
  have h : i < c.bitString.length := by rw [length_bitString]; exact hi
  rw [List.getElem?_eq_getElem h]
  exact congrArg some (getElem_bitsOf _ _ _ h)

/-- Bit j of the pattern stands in bit j mod 32 of word j div 32 (R62). -/
theorem getLsbD_codeWord (b : BitVec 256) (j : Nat) :
    (b.extractLsb' (32 * (j / 32)) 32).getLsbD (j % 32) = b.getLsbD j := by
  rw [BitVec.getLsbD_extractLsb', Nat.div_add_mod]
  simp [Nat.mod_lt]

/-- Settles O18: the windows by CODES_VALID, and the place of a code's first and last bit by the place of any bit. -/
theorem codeWindowsReadTheTable : Obligations.CodeWindowsReadTheTable := by
  intro s x hx
  refine ⟨fun hv => ⟨?_, fun w hw => ?_, ?_⟩, fun hv => ⟨?_, fun w hw => ?_⟩⟩
  · rw [readAt_codeLen s hx, codeLenWindow_valid hv]
  · rw [readAt_codeBits s hx hw, codeBitsWindow_valid hv, extractLsb'_eq_ofNat]
  · rintro L rfl hpos hle
    refine ⟨_, _, readAt_codeBits s hx (by omega), readAt_codeBits (w := 0) s hx (by omega), ?_, ?_⟩
    · rw [codeBitsWindow_valid hv, getLsbD_codeWord, Code.getElem?_bitString _ hpos, Nat.sub_zero]
    · rw [codeBitsWindow_valid hv, Code.getElem?_bitString _ (by omega), Nat.sub_self]
      exact congrArg some (getLsbD_codeWord _ 0).symm
  · rw [readAt_codeLen s hx, codeLenWindow_hidden hv]
  · rw [readAt_codeBits s hx hw, codeBitsWindow_hidden hv]

/-! ### After a reset -/

/-- STATUS at reset: the cursor is at the root and every other field is 0 (R65). -/
theorem statusWord_resetWith (c : Config) (draw : Nat) : statusWord (State.resetWith c draw) = 0x20 := by
  apply BitVec.eq_of_toNat_eq
  rw [statusWord_toNat]
  rfl

/-- Settles O20: every field is its reset value by the definition, and the windows are those of an empty table and an
empty arena. -/
theorem resetValues : Obligations.ResetValues := by
  refine ⟨?_, fun s => ⟨s.softReset, rfl, obufByte_softReset s⟩⟩
  rintro c draw s rfl
  refine ⟨(readAt_status _).trans (congrArg some (statusWord_resetWith c draw)), rfl, rfl, rfl, rfl, rfl, rfl, rfl, rfl,
    rfl, rfl, rfl, rfl, rfl, rfl, rfl, rfl, rfl, rfl, fun k hk => ⟨?_, ?_, fun w hw => ?_⟩, fun i f hi hf => ?_⟩
  · exact readAt_freq (State.resetWith c draw) hk
  · rw [readAt_codeLen _ hk, codeLenWindow_hidden rfl]
  · rw [readAt_codeBits _ hk hw, codeBitsWindow_hidden rfl]
  · rw [readAt_node _ hi hf, nodeWindow_undefined (Nat.zero_le i)]

end Sys2Proof.Machine
end

section
/-! PROOFS. What BUILD makes from FREQ (R52, R156): a tree whose root weighs the sum of the frequencies. -/

namespace Sys2Proof.Machine

/-- The weights of an arena, summed by index and by entry. -/
theorem sum_weightAt (L : List Node) :
    ∑ k ∈ Finset.Ico 0 L.length, weightAt L k = (L.map Node.weight).sum := by
  induction L using List.reverseRecOn with
  | nil => rfl
  | append_singleton L nd ih =>
    have hold : ∀ k ∈ Finset.Ico 0 L.length, weightAt (L ++ [nd]) k = weightAt L k := fun k hk =>
      weightAt_append (Finset.mem_Ico.mp hk).2
    have hnew : weightAt (L ++ [nd]) L.length = nd.weight := weightAt_of (by simp)
    rw [List.length_append, List.length_singleton, Finset.sum_Ico_succ_top (Nat.zero_le _),
      Finset.sum_congr rfl hold, ih, hnew]
    simp

/-- The symbols with frequency 0 add nothing. -/
theorem sum_filter_pos (f : Nat → Nat) (l : List Nat) :
    ((l.filter fun x => decide (0 < f x)).map f).sum = (l.map f).sum := by
  induction l with
  | nil => rfl
  | cons x l ih =>
    by_cases hx : 0 < f x
    · simp [hx, ih]
    · rw [List.filter_cons_of_neg (by simpa using hx), ih, List.map_cons, List.sum_cons, Nat.eq_zero_of_not_pos hx,
        zero_add]

/-- The leaves weigh as much as all symbols' frequencies together (R151). -/
theorem sum_sortedLeaves (c : Config) (freq : Table Word) :
    ((sortedLeaves c freq).map Node.weight).sum
      = ((List.range c.alphaSize).map fun x => (freqAt freq x).toNat).sum := by
  have hw : Node.weight ∘ leafOf freq = fun x => (freqAt freq x).toNat := rfl
  have hp : (leafOrder c freq).Perm (presentSymbols c freq) := stableSortBy_perm _ _
  rw [sortedLeaves_eq, List.map_map, hw, (hp.map _).sum_eq, presentSymbols, sum_filter_pos]

/-- The root of the merged arena carries the whole weight (R156). -/
theorem weightAt_buildArena_root {c : Config} {freq : Table Word} (hpos : 0 < (sortedLeaves c freq).length) :
    weightAt (buildArena c freq) (rootOf (sortedLeaves c freq).length)
      = ((List.range c.alphaSize).map fun x => (freqAt freq x).toNat).sum := by
  have hr : rootOf (sortedLeaves c freq).length = 2 * (sortedLeaves c freq).length - 2 := by
    unfold rootOf; split <;> omega
  have hm := mergeInv_times (sortedLeaves_ascend c freq) ((sortedLeaves c freq).length - 1) (by omega)
  have hleaves : childrenOf (sortedLeaves c freq) = [] := childrenOf_leaves freq _
  rw [hr, ← sum_sortedLeaves, ← sum_weightAt]
  exact (hm.last hleaves (by omega)).2

theorem execBuild_idle {s : State} (he : s.encActive = false) (hd : s.decActive = false) :
    exec .build s = .next s.withTree := by
  simp [exec, execBuild, he, hd]

/-- n fits NSYM. -/
theorem withTree_nsym_toNat (s : State) : s.withTree.nsym.toNat = (sortedLeaves s.cfg s.freq).length := by
  have hn := length_sortedLeaves_le s.cfg s.freq
  have ha := alphaSize_le s.cfg
  rw [withTree_nsym, BitVec.toNat_ofNat]; exact Nat.mod_eq_of_lt (by omega)

/-- The root's index fits ROOT. -/
theorem withTree_root_toNat (s : State) : s.withTree.root.toNat = rootOf (sortedLeaves s.cfg s.freq).length := by
  have hn := length_sortedLeaves_le s.cfg s.freq
  have ha := alphaSize_le s.cfg
  rw [withTree_root, BitVec.toNat_ofNat]; exact Nat.mod_eq_of_lt (by unfold rootOf; split <;> omega)

/-- Settles O29: the shape is `buildArena_wf`, the root's weight that of the last node left unmerged. -/
theorem buildMakesATree : Obligations.BuildMakesATree := by
  intro s he hd
  refine ⟨s.withTree, execBuild_idle he hd, ?_, fun hpos => ?_⟩
  · rw [withTree_nsym_toNat]; exact buildArena_wf s.cfg s.freq
  · rw [withTree_nsym_toNat] at hpos
    rw [withTree_root_toNat]; exact weightAt_buildArena_root hpos

end Sys2Proof.Machine
end

section
/-! PROOFS. What a command writes and reads (R40, R42, R43, R52, R57 to R60, R63): its frame, field by field, and its
output, from the ways `Effect` lists; and that no command but DEC.START reads ARG and none but BUILD reads FREQ. -/

namespace Sys2Proof.Machine

variable {s t : State} {i : Instr}

/-! ### The frame of a command

Each lemma excludes the commands whose effect writes its fields; the updates of the others leave them (Laws/State). -/

theorem Effect.tree (h : Effect s i t) (hb : i ≠ .build) (hr : i ≠ .sreset) :
    t.arena = s.arena ∧ t.nsym = s.nsym ∧ t.root = s.root ∧ t.treeState = s.treeState := by
  cases h <;> simp_all

theorem Effect.codes (h : Effect s i t) (he : i ≠ .extract) (hr : i ≠ .sreset) : t.codes = s.codes := by
  cases h <;> simp_all

theorem Effect.codesValid (h : Effect s i t) (he : i ≠ .extract) (hb : i ≠ .build) (hr : i ≠ .sreset) :
    t.codesValid = s.codesValid := by
  cases h <;> simp_all

theorem Effect.freq (h : Effect s i t) (hf : i ≠ .fclr) (hr : i ≠ .sreset) : t.freq = s.freq := by
  cases h <;> simp_all

theorem Effect.arg (h : Effect s i t) (hr : i ≠ .sreset) : t.arg = s.arg := by
  cases h <;> simp_all

theorem Effect.encSession (h : Effect s i t) (hs : i ≠ .encStart) (hf : i ≠ .encFlush) (hr : i ≠ .sreset) :
    t.encActive = s.encActive ∧ t.encPad = s.encPad := by
  cases h <;> simp_all

theorem Effect.encAccumulator (h : Effect s i t) (hs : i ≠ .encStart) (hx : ∀ x, i ≠ .encSym x) (hf : i ≠ .encFlush)
    (hr : i ≠ .sreset) : t.encAcc = s.encAcc ∧ t.encNbits = s.encNbits ∧ t.encBytes = s.encBytes := by
  cases h <;> simp_all

theorem Effect.decSession (h : Effect s i t) (hs : ∀ p, i ≠ .decStart p) (hd : ∀ b, i ≠ .decByte b) (hr : i ≠ .sreset) :
    t.decActive = s.decActive ∧ t.decRem = s.decRem := by
  cases h <;> simp_all

theorem Effect.decCursor (h : Effect s i t) (hs : ∀ p, i ≠ .decStart p) (hd : ∀ b, i ≠ .decByte b) (hb : i ≠ .build)
    (hr : i ≠ .sreset) : t.decCursor = s.decCursor := by
  cases h <;> simp_all

/-- Settles O55: the frame of each group of fields, one lemma each. -/
theorem commandsWriteOnlyTheirState : Obligations.CommandsWriteOnlyTheirState := by
  intro i s t h
  have he := exec_effect h
  exact ⟨he.tree, he.codes, he.codesValid, he.freq, he.arg, he.encSession, he.encAccumulator, he.decSession,
    he.decCursor⟩

/-! ### The output buffer -/

/-- The commands that emit (R63). -/
def Emitter (i : Instr) : Prop := (∃ x, i = .encSym x) ∨ i = .encFlush ∨ ∃ b, i = .decByte b

/-- What a command does to the output buffer: nothing but perhaps to rewind OUT_PTR, or emit bytes that fit (R63). -/
theorem Effect.output (h : Effect s i t) :
    (t.obuf = s.obuf ∧ (t.outPtr = s.outPtr ∨ t.outPtr = 0)) ∨
    (Emitter i ∧ ∃ xs, t.obuf = (emitAll s xs).obuf ∧ t.outPtr = (emitAll s xs).outPtr ∧
      s.outPtr.toNat + xs.length ≤ s.cfg.obufBytes) := by
  cases h with
  | encSym x he hf => exact .inr ⟨.inl ⟨x, rfl⟩, _, rfl, rfl, by rw [length_completedBytes]; exact hf⟩
  | encFlushOdd he h0 hf => exact .inr ⟨.inr (.inl rfl), [paddedByte s], rfl, rfl, hf⟩
  | decByte b cursor out hd hp hf => exact .inr ⟨.inr (.inr ⟨b, rfl⟩), out, rfl, rfl, hf⟩
  | _ => exact .inl (by simp)

theorem Effect.obufDraw (h : Effect s i t) : t.obufDraw = s.obufDraw := by
  cases h <;> simp

/-- Settles O54: a command that emits writes from the old OUT_PTR up to the new one; the others write no byte. -/
theorem onlyEmitWritesObuf : Obligations.OnlyEmitWritesObuf := by
  intro i s t hs h
  have he := exec_effect h
  rcases he.output with ⟨hbuf, hptr⟩ | ⟨hi, xs, hbuf, hptr, hfit⟩
  · have hle : t.outPtr.toNat ≤ s.outPtr.toNat := by rcases hptr with hp | hp <;> simp [hp]
    exact ⟨fun k _ => obufByte_congr hbuf he.obufDraw k, hle.trans hs, fun hlt => absurd hlt (by omega)⟩
  · have hle := obufBytes_le s.cfg
    have hnew : t.outPtr.toNat = s.outPtr.toNat + xs.length := by rw [hptr]; exact emitAll_outPtr (by omega)
    refine ⟨fun k hk => ?_, by omega, fun _ => hi⟩
    have hcongr : obufByte t k = obufByte (emitAll s xs) k :=
      obufByte_congr hbuf (by rw [he.obufDraw, emitAll_obufDraw]) k
    rw [hcongr, obufByte_emitAll (by omega)]
    split
    · rw [List.getElem?_eq_none (by omega), Option.getD_none]
    · rfl

/-! ### ARG and FREQ as inputs of the commands -/

/-- `s` with another ARG and another FREQ file. -/
def State.withInputs (s : State) (v : Word) (f : Table Word) : State := { s with arg := v, freq := f }

theorem emitAll_withInputs (s : State) (v : Word) (f : Table Word) (xs : List Byte) :
    emitAll (s.withInputs v f) xs = (emitAll s xs).withInputs v f := by
  induction xs generalizing s with
  | nil => rfl
  | cons x xs ih => exact ih (emit s x)

theorem appendCode_withInputs (s : State) (v : Word) (f : Table Word) (c : Code) :
    (s.withInputs v f).appendCode c = (s.appendCode c).withInputs v f := by
  simp only [State.appendCode, emitAll_withInputs]
  rfl

theorem takeByte_withInputs (s : State) (v : Word) (f : Table Word) (cursor : Nat) (out : List Byte) :
    (s.withInputs v f).takeByte cursor out = (s.takeByte cursor out).withInputs v f := by
  simp only [State.takeByte, emitAll_withInputs]
  rfl

theorem andThen_ite {p : Prop} [Decidable p] (o₁ o₂ : Host.Outcome State Fault Refusal) (g : State → State) :
    andThen (if p then o₁ else o₂) g = if p then andThen o₁ g else andThen o₂ g :=
  apply_ite (andThen · g) p o₁ o₂

theorem andThen_congr {o : Host.Outcome State Fault Refusal} {g g' : State → State}
    (h : ∀ t, o = .next t → g t = g' t) : andThen o g = andThen o g' := by
  cases o with
  | next t => exact congrArg Host.Outcome.next (h t rfl)
  | fault r => rfl
  | refused r => rfl

theorem execExtract_withInputs (s : State) (v : Word) (f : Table Word) :
    execExtract (s.withInputs v f) = andThen (execExtract s) (·.withInputs v f) := by
  have hc : treeCodes (s.withInputs v f).treeState (s.withInputs v f).arena (s.withInputs v f).root.toNat
      = treeCodes s.treeState s.arena s.root.toNat := rfl
  simp only [execExtract, andThen_ite, hc]
  cases treeCodes s.treeState s.arena s.root.toNat <;> rfl

theorem execEncStart_withInputs (s : State) (v : Word) (f : Table Word) :
    execEncStart (s.withInputs v f) = andThen (execEncStart s) (·.withInputs v f) := by
  simp only [execEncStart, andThen_ite]
  rfl

theorem execEncSym_withInputs (x : Nat) (s : State) (v : Word) (f : Table Word) :
    execEncSym x (s.withInputs v f) = andThen (execEncSym x s) (·.withInputs v f) := by
  simp only [execEncSym, andThen_ite, appendCode_withInputs]
  rfl

theorem execEncFlush_withInputs (s : State) (v : Word) (f : Table Word) :
    execEncFlush (s.withInputs v f) = andThen (execEncFlush s) (·.withInputs v f) := by
  simp only [execEncFlush, andThen_ite]
  rfl

theorem execDecByte_withInputs (b : Byte) (s : State) (v : Word) (f : Table Word) :
    execDecByte b (s.withInputs v f) = andThen (execDecByte b s) (·.withInputs v f) := by
  have hp : parseBits (s.withInputs v f) (readBits (s.withInputs v f) b) = parseBits s (readBits s b) := rfl
  simp only [execDecByte, andThen_ite, hp]
  cases parseBits s (readBits s b) with
  | undefinedNode => rfl
  | badBit => rfl
  | done cursor out => simp only [takeByte_withInputs, andThen_ite]; rfl

/-- The commands that neither read nor write ARG or FREQ carry both through (R40, R59). -/
theorem exec_withInputs (hr : i ≠ .sreset) (hf : i ≠ .fclr) (hb : i ≠ .build) (hd : ∀ p, i ≠ .decStart p) (s : State)
    (v : Word) (f : Table Word) : exec i (s.withInputs v f) = andThen (exec i s) (·.withInputs v f) := by
  cases i with
  | nop => rfl
  | clrerr => rfl
  | sreset => exact absurd rfl hr
  | fclr => exact absurd rfl hf
  | outClear => rfl
  | build => exact absurd rfl hb
  | extract => exact execExtract_withInputs s v f
  | encStart => exact execEncStart_withInputs s v f
  | encSym x => exact execEncSym_withInputs x s v f
  | encFlush => exact execEncFlush_withInputs s v f
  | decStart p => exact absurd rfl (hd p)
  | decByte b => exact execDecByte_withInputs b s v f

theorem execBuild_withArg (s : State) (v : Word) :
    execBuild { s with arg := v } = andThen (execBuild s) fun t => { t with arg := v } := by
  simp only [execBuild, andThen_ite]
  rfl

theorem execDecStart_withFreq (p : Nat) (s : State) (f : Table Word) :
    execDecStart p { s with freq := f } = andThen (execDecStart p s) fun t => { t with freq := f } := by
  simp only [execDecStart, andThen_ite]
  rfl

/-- Settles O56: BUILD reads FREQ but not ARG, FCLR and SRESET read neither, and the others carry both through. -/
theorem onlyDecStartReadsArg : Obligations.OnlyDecStartReadsArg := by
  intro i s v hd
  by_cases hr : i = .sreset
  · subst hr; rfl
  by_cases hf : i = .fclr
  · subst hf; rfl
  by_cases hb : i = .build
  · subst hb; exact execBuild_withArg s v
  calc exec i { s with arg := v }
      = andThen (exec i s) (·.withInputs v s.freq) := exec_withInputs hr hf hb hd s v s.freq
    _ = andThen (exec i s) fun t => { t with arg := if i = .sreset then 0 else v } := andThen_congr fun t ht => by
        rw [if_neg hr, State.withInputs, ← (exec_effect ht).freq hf hr]

/-- Settles O57: DEC.START reads ARG but not FREQ, FCLR and SRESET read neither, and the others carry both through. -/
theorem onlyBuildReadsFreq : Obligations.OnlyBuildReadsFreq := by
  intro i s f hb
  by_cases hr : i = .sreset
  · subst hr; rfl
  by_cases hf : i = .fclr
  · subst hf; rfl
  by_cases hd : ∃ p, i = .decStart p
  · obtain ⟨p, rfl⟩ := hd; exact execDecStart_withFreq p s f
  calc exec i { s with freq := f }
      = andThen (exec i s) (·.withInputs s.arg f) := exec_withInputs hr hf hb (not_exists.mp hd) s s.arg f
    _ = andThen (exec i s) fun t => { t with freq := if i = .fclr ∨ i = .sreset then t.freq else f } :=
        andThen_congr fun t ht => by
          rw [if_neg (not_or.mpr ⟨hf, hr⟩), State.withInputs, ← (exec_effect ht).arg hr]

end Sys2Proof.Machine
end

section
/-! PROOFS. The access rules of 20_memory.md (R70 to R76, R84, R240, R244): the place of the window and of a word's
bytes, a command's step, the access errors, and a run as its accesses. -/

namespace Sys2Proof.Machine

/-! ### The window and the bytes of a word -/

/-- Settles O13: within the window the offset is the distance from the base, and every offset lies within it. -/
theorem windowStartsAtTheBase : Obligations.WindowStartsAtTheBase := by
  intro c hostAddr off
  have hoff := off.isLt
  unfold windowOffset
  split
  · rw [Option.some_inj, ← BitVec.toNat_inj, BitVec.toNat_ofNat]; omega
  · simp only [reduceCtorEq, false_iff]; omega

/-- The bytes of an OBUF word at their places (R76). -/
theorem obufWord_toNat (s : State) (k : Nat) :
    (obufWord s k).toNat = (obufByte s (4 * k)).toNat + 2 ^ 8 * (obufByte s (4 * k + 1)).toNat
      + 2 ^ 16 * (obufByte s (4 * k + 2)).toNat + 2 ^ 24 * (obufByte s (4 * k + 3)).toNat := by
  simp only [obufWord, toNat_append]
  omega

/-- Settles O19: the window holds OBUF word k there, and the word holds its four bytes in rising order. -/
theorem obufWindowIsLittleEndian : Obligations.ObufWindowIsLittleEndian := fun s k hk =>
  ⟨obufWord s k, readAt_of (by omega) (addressMap_obuf _ hk), obufWord_toNat s k⟩

/-! ### A command's step -/

/-- A full-word write to CMD runs its word; the answer follows (R240). -/
theorem performAccess_writeCmd (s : State) (w : Word) :
    performAccess { addr := 0x0008, lanes := 0xF, kind := .write w } s
      = andThen (runCommand w s) fun t =>
          t.observe { addr := 0x0008, lanes := 0xF, kind := .write w } none false :=
  performAccess_write (r := .cmd) rfl rfl

/-- The gate lets a command through when it is open, and NOP, CLRERR and SRESET always (R240). -/
theorem runCommand_passed {w : Word} {i : Instr} {s : State} (hd : decode w = .command i)
    (h : s.errCode = .none ∨ i = .nop ∨ i = .clrerr ∨ i = .sreset) : runCommand w s = exec i s := by
  rw [runCommand_command hd, if_neg]
  rintro ⟨herr, hclosed⟩
  rcases h with h | rfl | rfl | rfl
  · exact (err_eq_true s).mp herr h
  all_goals cases hclosed

/-- Settles O6: the step performs the write to CMD, and the gate lets `i` through. -/
theorem stepRunsDecodedCommand : Obligations.StepRunsDecodedCommand := by
  intro s rest w i hp hd hgate
  rw [step_of_pending_cons hp, performInput, performAccess_writeCmd,
    runCommand_passed (s := { s with pending := rest }) hd hgate]
  rfl

/-! ### Access errors -/

theorem performAccess_malformed {a : Access} (h : a.addr.toNat % 4 ≠ 0 ∨ a.lanes ≠ 0xF) (s : State) :
    performAccess a s = .next (refuseAccess a s) := by
  have hw : a.wellFormed = false := by rw [Access.wellFormed, decide_eq_false_iff_not]; tauto
  rw [performAccess, if_pos hw]

/-- Every register but CMD, ARG and FREQ is read-only (R34, R74). -/
theorem writeReg_readOnly {r : Reg} (hc : r ≠ .cmd) (ha : r ≠ .arg) (hf : ∀ k, r ≠ .freq k) (a : Access) (v : Word)
    (s : State) : writeReg a r v s = .next (refuseAccess a s) := by
  cases r
  case cmd => exact absurd rfl hc
  case arg => exact absurd rfl ha
  case freq k => exact absurd rfl (hf k)
  all_goals rfl

theorem performAccess_readOnly {s : State} {a : Access} {v : Word} {r : Reg} (hk : a.kind = .write v)
    (hm : addressMap s.cfg a.addr.toNat = some r) (hc : r ≠ .cmd) (ha : r ≠ .arg) (hf : ∀ k, r ≠ .freq k) :
    performAccess a s = .next (refuseAccess a s) := by
  unfold performAccess
  split
  · rfl
  · simp only [hm, hk]; exact writeReg_readOnly hc ha hf a v s

/-- The three kinds of access error (R74). -/
theorem performAccess_refused {s : State} {a : Access}
    (h : a.addr.toNat % 4 ≠ 0 ∨ a.lanes ≠ 0xF ∨ addressMap s.cfg a.addr.toNat = none ∨
      ((∃ v, a.kind = .write v) ∧
        ∃ r, addressMap s.cfg a.addr.toNat = some r ∧ r ≠ .cmd ∧ r ≠ .arg ∧ ∀ k, r ≠ .freq k)) :
    performAccess a s = .next (refuseAccess a s) := by
  rcases h with h | h | h | ⟨⟨v, hk⟩, r, hm, hc, ha, hf⟩
  · exact performAccess_malformed (.inl h) s
  · exact performAccess_malformed (.inr h) s
  · exact performAccess_unmapped h
  · exact performAccess_readOnly hk hm hc ha hf

/-- Settles O9: each access error is refused, and what a refusal does is `refuseAccess_eq`; CMD reads 0 (R39). -/
theorem accessErrorsAreRecorded : Obligations.AccessErrorsAreRecorded := by
  refine ⟨fun s a h => ?_, fun s => performAccess_read (r := .cmd) rfl rfl⟩
  rw [performAccess_refused h, refuseAccess_eq]
  cases hk : a.kind <;> simp [Access.isWrite, hk]

/-! ### A run -/

/-- A run goes on from what its first step leaves. -/
theorem core_run_next {M : Host.Core} {s t : M.State} (h : M.step s = .next t) (k : Nat) :
    M.run (k + 1) s = M.run k t := by
  rw [Host.Core.run, h]

theorem core_run_fault {M : Host.Core} {s : M.State} {r : M.Fault} (h : M.step s = .fault r) (k : Nat) :
    M.run (k + 1) s = .fault r := by
  rw [Host.Core.run, h]

theorem core_run_refused {M : Host.Core} {s : M.State} {r : M.Refusal} (h : M.step s = .refused r) (k : Nat) :
    M.run (k + 1) s = .refused r := by
  rw [Host.Core.run, h]

/-- Settles O58, by induction on the accesses: a step performs the first of them, and the inputs that wait neither
change what it does (`performAccess_pending`) nor are changed by it (`performAccess_answered`). -/
theorem runIsItsAccesses : Obligations.RunIsItsAccesses := by
  intro s accesses rest
  induction accesses generalizing s with
  | nil => rintro rfl; rfl
  | cons a accesses ih =>
    intro hp
    have hstep : step s = performAccess a { s with pending := accesses.map .access ++ rest } := step_of_pending_cons hp
    have hfirst : performAccess a { s with pending := rest }
        = andThen (step s) fun t => { t with pending := rest } := by
      rw [hstep]; exact performAccess_pending a { s with pending := accesses.map .access ++ rest } rest
    rw [runAccesses, hfirst]
    cases ht : step s with
    | next t => exact (core_run_next ht _).trans (ih t (performAccess_answered (hstep ▸ ht)).pending)
    | fault r => exact core_run_fault ht _
    | refused r => exact core_run_refused ht _

end Sys2Proof.Machine
end

section
/-! PROOFS. The persisted file (R91 to R94): where its header and its records lie, and that it reads back. -/

namespace Sys2Proof.Machine

/-! ### The header -/

/-- `int32[ALPHA] frequency_table`, in symbol order (R92). -/
def tableBytes (c : Config) (freq : Table Word) : List Byte :=
  ((List.range c.alphaSize).map fun x => int32Bytes c.fileOrder (freqAt freq x)).flatten

/-- The chunk records, one after another (R92). -/
def recordBytes (o : ByteOrder) (chunks : List ChunkRecord) : List Byte :=
  (chunks.map (ChunkRecord.bytes o)).flatten

theorem PersistedFile.bytes_eq (c : Config) (f : PersistedFile) : f.bytes c =
    int32Bytes c.fileOrder (BitVec.ofNat 32 f.chunks.length)
      ++ (tableBytes c f.freq ++ recordBytes c.fileOrder f.chunks) :=
  List.append_assoc _ _ _

theorem length_tableBytes (c : Config) (freq : Table Word) : (tableBytes c freq).length = 4 * c.alphaSize := by
  simp [tableBytes, List.length_flatten, Function.comp_def, length_int32Bytes, Nat.mul_comm]

/-- The x-th entry of the frequency table. -/
theorem int32_of_table (c : Config) (freq : Table Word) {x : Nat} (hx : x < c.alphaSize) (ys : List Byte) :
    int32OfBytes c.fileOrder (((tableBytes c freq ++ ys).drop (4 * x)).take 4) = freqAt freq x := by
  have h := int32_of_row c.fileOrder ((List.range c.alphaSize).map (freqAt freq)) (x := x) (by simpa using hx) ys
  rw [List.map_map] at h
  simpa [tableBytes, Function.comp_def] using h

/-- Past the chunk count stands the table. -/
theorem PersistedFile.drop_count (c : Config) (f : PersistedFile) (n : Nat) :
    (f.bytes c).drop (4 + n) = (tableBytes c f.freq ++ recordBytes c.fileOrder f.chunks).drop n := by
  rw [PersistedFile.bytes_eq, ← List.drop_drop, List.drop_left' (length_int32Bytes _ _)]

/-- Past the table stand the records, and nothing else. -/
theorem PersistedFile.drop_header (c : Config) (f : PersistedFile) (n : Nat) :
    (f.bytes c).drop (4 + 4 * c.alphaSize + n) = (recordBytes c.fileOrder f.chunks).drop n := by
  rw [Nat.add_assoc, PersistedFile.drop_count, ← List.drop_drop, List.drop_left' (length_tableBytes _ _)]

/-! ### The records -/

theorem ChunkRecord.length_bytes (o : ByteOrder) (r : ChunkRecord) : (r.bytes o).length = 5 + r.packed.length := by
  simp [ChunkRecord.bytes, length_int32Bytes]; omega

theorem length_recordBytes (o : ByteOrder) (chunks : List ChunkRecord) :
    (recordBytes o chunks).length = (chunks.map fun r => 5 + r.packed.length).sum := by
  simp [recordBytes, List.length_flatten, Function.comp_def, ChunkRecord.length_bytes]

theorem recordBytes_append_cons (o : ByteOrder) (before after : List ChunkRecord) (r : ChunkRecord) :
    recordBytes o (before ++ r :: after) = recordBytes o before ++ (r.bytes o ++ recordBytes o after) := by
  simp [recordBytes]

/-- The three fields at the head of a record (R92). -/
theorem ChunkRecord.fields_of_bytes (o : ByteOrder) (r : ChunkRecord) (ys : List Byte) :
    int32OfBytes o ((r.bytes o ++ ys).take 4) = r.byteLength ∧ (r.bytes o ++ ys)[4]? = some r.padding ∧
      ((r.bytes o ++ ys).drop 5).take r.packed.length = r.packed := by
  have hlen := length_int32Bytes o r.byteLength
  have hbytes : r.bytes o ++ ys = int32Bytes o r.byteLength ++ r.padding :: (r.packed ++ ys) := by
    simp [ChunkRecord.bytes]
  refine ⟨?_, ?_, ?_⟩
  · rw [hbytes, List.take_left' hlen, int32OfBytes_int32Bytes]
  · rw [hbytes, List.getElem?_append_right (by omega), hlen]; rfl
  · rw [hbytes, show 5 = 4 + 1 from rfl, ← List.drop_drop, List.drop_left' hlen]
    exact List.take_left

/-- A record lies right after the records before it. -/
theorem PersistedFile.drop_to_record (c : Config) {f : PersistedFile} {before after : List ChunkRecord}
    {r : ChunkRecord} (h : f.chunks = before ++ r :: after) :
    (f.bytes c).drop (4 + 4 * c.alphaSize + (before.map fun r => 5 + r.packed.length).sum)
      = r.bytes c.fileOrder ++ recordBytes c.fileOrder after := by
  rw [PersistedFile.drop_header, h, recordBytes_append_cons, List.drop_left' (length_recordBytes _ _)]

theorem PersistedFile.record_fields (c : Config) {f : PersistedFile} {before after : List ChunkRecord} {r : ChunkRecord}
    {start : Nat} (h : f.chunks = before ++ r :: after)
    (hstart : start = 4 + 4 * c.alphaSize + (before.map fun r => 5 + r.packed.length).sum) :
    int32OfBytes c.fileOrder (((f.bytes c).drop start).take 4) = r.byteLength ∧
      (f.bytes c)[start + 4]? = some r.padding ∧
      ((f.bytes c).drop (start + 5)).take r.packed.length = r.packed := by
  rw [← List.getElem?_drop, ← List.drop_drop, hstart, PersistedFile.drop_to_record c h]
  exact r.fields_of_bytes c.fileOrder _

/-! ### The file as a whole -/

theorem PersistedFile.length_bytes (c : Config) (f : PersistedFile) :
    (f.bytes c).length = 4 + 4 * c.alphaSize + (f.chunks.map fun r => 5 + r.packed.length).sum := by
  rw [PersistedFile.bytes_eq, List.length_append, List.length_append, length_int32Bytes, length_tableBytes,
    length_recordBytes, Nat.add_assoc]

theorem PersistedFile.count_of_bytes (c : Config) (f : PersistedFile) :
    int32OfBytes c.fileOrder ((f.bytes c).take 4) = BitVec.ofNat 32 f.chunks.length := by
  rw [PersistedFile.bytes_eq, List.take_left' (length_int32Bytes _ _), int32OfBytes_int32Bytes]

theorem PersistedFile.wellFormed_iff (f : PersistedFile) :
    f.wellFormed = true ↔ (∀ r ∈ f.chunks, r.wellFormed = true) ∧ f.chunks.length < 2 ^ 32 := by
  simp [PersistedFile.wellFormed]

/-- The length fields of well-formed records give the records' lengths (R92). -/
theorem sum_byteLength {chunks : List ChunkRecord} (h : ∀ r ∈ chunks, r.wellFormed = true) :
    (chunks.map fun r => 5 + r.byteLength.toNat).sum = (chunks.map fun r => 5 + r.packed.length).sum :=
  congrArg List.sum <| List.map_congr_left fun r hr => by rw [(r.wellFormed_iff.mp (h r hr)).1]

/-- A well-formed file reads back: its chunks, and the frequencies of the table (R92, R94). -/
theorem readFile_bytes (c : Config) {f : PersistedFile} (h : f.wellFormed = true) :
    readFile c (f.bytes c) = some { freq := readFreq c (tableBytes c f.freq), chunks := f.chunks } := by
  obtain ⟨hchunks, hcount⟩ := f.wellFormed_iff.mp h
  have hn : (BitVec.ofNat 32 f.chunks.length).toNat = f.chunks.length := by
    rw [BitVec.toNat_ofNat, Nat.mod_eq_of_lt hcount]
  have hread : readChunks c.fileOrder f.chunks.length (recordBytes c.fileOrder f.chunks) = some (f.chunks, []) := by
    simpa [recordBytes] using readChunks_bytes c.fileOrder hchunks []
  rw [readFile, PersistedFile.bytes_eq, splitBytes_append (length_int32Bytes _ _)]
  simp only [splitBytes_append (length_tableBytes _ _), int32OfBytes_int32Bytes, hn, hread]

theorem freqAt_readFreq_tableBytes (c : Config) (freq : Table Word) {x : Nat} (hx : x < c.alphaSize) :
    freqAt (readFreq c (tableBytes c freq)) x = freqAt freq x := by
  simpa [tableBytes] using freqAt_readFreq c freq hx []

/-- Settles O60: each part of the file lies after the lengths of the parts before it; in a well-formed file those are
the lengths the fields give, so that `readFile` finds the parts. -/
theorem persistedFileLayout : Obligations.PersistedFileLayout := by
  refine ⟨fun o w => ⟨length_int32Bytes o w, int32OfBytes_int32Bytes o w⟩, fun c f => ⟨f.length_bytes c,
    f.count_of_bytes c, fun x hx => ?_, fun _ _ _ _ => PersistedFile.record_fields c, f.drop_header c 0, fun hf => ?_,
    fun s _ => wellFormed_chunkRecord s⟩⟩
  · rw [f.drop_count, int32_of_table c f.freq hx]
  · obtain ⟨hchunks, -⟩ := f.wellFormed_iff.mp hf
    refine ⟨fun before after r start h hstart => ?_, by rw [f.length_bytes, sum_byteLength hchunks],
      _, readFile_bytes c hf, rfl, fun x => freqAt_readFreq_tableBytes c f.freq⟩
    obtain ⟨hlen, hmax, hpad⟩ := r.wellFormed_iff.mp (hchunks r (by simp [h]))
    rw [sum_byteLength fun x hx => hchunks x (by simp [h, hx])] at hstart
    obtain ⟨hlength, hpadding, hpacked⟩ := PersistedFile.record_fields c h hstart
    exact ⟨hlength, hpadding, hpad, hlen ▸ hpacked, hlen, hmax⟩

end Sys2Proof.Machine
end

section
/-! PROOFS. The command word (R100 to R104, R113): the decoder field by field, the encoder as its inverse on the
well-formed commands, and the rows of the opcode map as the words the decoder accepts. -/

namespace Sys2Proof

open Laws.WordShape (hasOperand)

/-! ### The decoder by its fields -/

/-- The checks after the opcode's (R102). -/
theorem decode_of_opcodeMap {w : Word} {f : Format} {i : Instr}
    (h : opcodeMap (opcField w) (immField w) = some (f, i)) :
    decode w = if rsvField w ≠ 0 then .illegal .reservedBits
      else if f = .n ∧ immField w ≠ 0 then .illegal .operandInFormatN else .command i := by
  simp only [decode, h]

/-- The decoder gives a command exactly when the fields pass its checks (R102). -/
theorem decode_eq_command_iff {w : Word} {i : Instr} :
    decode w = .command i ↔
      ∃ f, opcodeMap (opcField w) (immField w) = some (f, i) ∧ rsvField w = 0 ∧ (f = .n → immField w = 0) := by
  refine ⟨decode_command, fun ⟨f, hmap, hrsv, himm⟩ => ?_⟩
  rw [decode_of_opcodeMap hmap, if_neg (not_not_intro hrsv), if_neg fun h => h.2 (himm h.1)]

/-- The format of a command (R104). -/
def formatOf (i : Instr) : Format := if hasOperand i then .i else .n

theorem formatOf_eq_n_iff {i : Instr} : formatOf i = .n ↔ hasOperand i = false := by
  cases h : hasOperand i <;> simp [formatOf, h]

/-- The row of a command's opcode: its format, and a command of the same name, whatever the immediate (R104). -/
theorem opcodeMap_opcode (i : Instr) (imm : BitVec 8) :
    ∃ j, opcodeMap i.opcode imm = some (formatOf i, j) ∧ j.mnemonic = i.mnemonic := by
  cases i <;> exact ⟨_, rfl, rfl⟩

/-- With the command's own immediate the row gives the command back (R103). -/
theorem opcodeMap_opcode_immediate {i : Instr} (h : i.wellFormed = true) :
    opcodeMap i.opcode i.immediate = some (formatOf i, i) := by
  cases i
  case encSym s | decStart s =>
    have hs : s < 256 := of_decide_eq_true h
    have hval : (BitVec.ofNat 8 s).toNat = s := by rw [BitVec.toNat_ofNat, Nat.mod_eq_of_lt hs]
    simp [opcodeMap, Instr.opcode, Instr.immediate, formatOf, hasOperand, hval]
  all_goals rfl

/-! ### Encoding and decoding -/

/-- A command that decodes has the opcode and the immediate of its word (R100 to R103). -/
theorem fields_of_decode {w : Word} {i : Instr} (h : decode w = .command i) :
    i.wellFormed = true ∧ opcField w = i.opcode ∧ rsvField w = 0 ∧ immField w = i.immediate := by
  obtain ⟨f, hmap, hrsv, himm⟩ := decode_command h
  obtain ⟨hopc, hwf, hi, hn⟩ := opcodeMap_some hmap
  refine ⟨hwf, hopc.symm, hrsv, ?_⟩
  cases f with
  | n => rw [himm rfl, hn rfl]
  | i => exact (hi rfl).symm

/-- Only a format-I command has an immediate that is not 0 (R101). -/
theorem immediate_eq_zero {i : Instr} (h : hasOperand i = false) : i.immediate = 0 := by
  cases i
  case encSym | decStart | decByte => cases h
  all_goals rfl

theorem decode_encode {i : Instr} (h : i.wellFormed = true) : decode (encode i) = .command i := by
  obtain ⟨hopc, hrsv, himm⟩ := Laws.WordShape.fields i
  refine decode_eq_command_iff.mpr ⟨formatOf i, ?_, hrsv, fun hf => ?_⟩
  · rw [hopc, himm, opcodeMap_opcode_immediate h]
  · rw [himm, immediate_eq_zero (formatOf_eq_n_iff.mp hf)]

theorem encode_of_decode {w : Word} {i : Instr} (h : decode w = .command i) : encode i = w := by
  obtain ⟨-, hopc, hrsv, himm⟩ := fields_of_decode h
  rw [encode, ← hopc, ← himm, wordOf_fields hrsv]

/-- On the 32 bits of a word the reader of table rows is the decoder (R100). -/
theorem decodeTableWord_of_decode {w : Word} {i : Instr} (h : decode w = .command i) :
    decodeTableWord 32 w.toNat = some i := by
  have hmod : w.toNat % 2 ^ 32 = w.toNat := Nat.mod_eq_of_lt w.isLt
  simp only [decodeTableWord, hmod, w.isLt, if_true, BitVec.ofNat_toNat, BitVec.setWidth_eq, h]

/-- Settles O1: the fields of the word are the command's opcode and immediate, whose row gives the command back. -/
theorem decodeInvertsEncode : Obligations.DecodeInvertsEncode := fun _ h =>
  ⟨decode_encode h, decodeTableWord_of_decode (decode_encode h)⟩

/-- Settles O2: with RSV = 0 a word is its opcode and its immediate, and those are the command's. -/
theorem legalWordIsItsEncoding : Obligations.LegalWordIsItsEncoding := fun _ _ h =>
  ⟨(fields_of_decode h).1, encode_of_decode h⟩

/-! ### The opcode map -/

/-- The row of a command: its opcode over 24 zero bits, of which format I leaves the last eight open (R101, R104). -/
def rowOf (i : Instr) : OpcodeRow :=
  ⟨i.mnemonic, i.opcode ++ (0 : BitVec 24), if hasOperand i then 0xFFFFFF00 else 0xFFFFFFFF⟩

/-- The table is the rows of the commands, in its own order (R104). -/
theorem opcodeTable_eq : opcodeTable =
    [Instr.nop, .clrerr, .sreset, .fclr, .outClear, .build, .extract, .encStart, .encSym 0, .encFlush, .decStart 0,
      .decByte 0].map rowOf := rfl

theorem rowOf_mem (i : Instr) : rowOf i ∈ opcodeTable := by
  rw [opcodeTable_eq]
  cases i
  case encSym s => exact List.mem_map.mpr ⟨.encSym 0, by decide, rfl⟩
  case decStart p => exact List.mem_map.mpr ⟨.decStart 0, by decide, rfl⟩
  case decByte b => exact List.mem_map.mpr ⟨.decByte 0, by decide, rfl⟩
  all_goals exact List.mem_map_of_mem (by decide)

theorem exists_rowOf {r : OpcodeRow} (h : r ∈ opcodeTable) : ∃ i, r = rowOf i := by
  obtain ⟨i, -, rfl⟩ := List.mem_map.mp (opcodeTable_eq ▸ h)
  exact ⟨i, rfl⟩

/-- A word spells a format-N row exactly when its opcode is the row's and all other bits are 0 (R104). -/
theorem spells_formatN (w : Word) (m : String) (opc : BitVec 8) :
    (⟨m, opc ++ (0 : BitVec 24), 0xFFFFFFFF⟩ : OpcodeRow).spells w = true ↔
      opcField w = opc ∧ rsvField w = 0 ∧ immField w = 0 := by
  have hmask : w &&& 0xFFFFFFFF = w := BitVec.and_allOnes
  simp only [OpcodeRow.spells, beq_iff_eq, hmask, ← BitVec.toNat_inj, toNat_append, opcField_toNat, rsvField_toNat,
    immField_toNat]
  have := w.isLt
  simp only [BitVec.toNat_ofNat, BitVec.ofNat_eq_ofNat, Nat.zero_mod]
  omega

theorem spells_rowOf (i : Instr) (w : Word) :
    (rowOf i).spells w = true ↔
      opcField w = i.opcode ∧ rsvField w = 0 ∧ (hasOperand i = false → immField w = 0) := by
  cases h : hasOperand i
  · simpa [rowOf, h] using spells_formatN w i.mnemonic i.opcode
  · simpa [rowOf, h] using spells_formatI w i.mnemonic i.opcode

theorem rowOf_spells_of_decode {w : Word} {i : Instr} (h : decode w = .command i) : (rowOf i).spells w = true := by
  obtain ⟨-, hopc, hrsv, himm⟩ := fields_of_decode h
  exact (spells_rowOf i w).mpr ⟨hopc, hrsv, fun hi => himm.trans (immediate_eq_zero hi)⟩

theorem decode_of_spells {w : Word} {r : OpcodeRow} (hr : r ∈ opcodeTable) (h : r.spells w = true) :
    ∃ i, decode w = .command i ∧ i.mnemonic = r.mnemonic := by
  obtain ⟨i, rfl⟩ := exists_rowOf hr
  obtain ⟨hopc, hrsv, himm⟩ := (spells_rowOf i w).mp h
  obtain ⟨j, hmap, hname⟩ := opcodeMap_opcode i (immField w)
  exact ⟨j, decode_eq_command_iff.mpr ⟨formatOf i, hopc ▸ hmap, hrsv, fun hf => himm (formatOf_eq_n_iff.mp hf)⟩, hname⟩

/-- No two rows name one command (R104). -/
theorem opcodeTable_mnemonics : opcodeTable.Pairwise fun r r' => r.mnemonic ≠ r'.mnemonic := by decide

/-- Settles O3: a command's word spells the command's row, the fields of a spelled row pass the decoder's checks, and a
word that spelled two rows would decode to commands of two names. -/
theorem decoderFollowsOpcodeTable : Obligations.DecoderFollowsOpcodeTable := by
  refine ⟨fun w i h => ⟨rowOf i, rowOf_mem i, rfl, rowOf_spells_of_decode h⟩, fun w r hr => decode_of_spells hr,
    opcodeTable_mnemonics.imp_of_mem fun hr hr' hne w ⟨h, h'⟩ => hne ?_⟩
  obtain ⟨i, hi, hname⟩ := decode_of_spells hr h
  obtain ⟨j, hj, hname'⟩ := decode_of_spells hr' h'
  obtain rfl : i = j := Verdict.command.inj (hi.symm.trans hj)
  exact hname.symm.trans hname'

/-! ### Decoding is total -/

/-- The opcodes of R104 by format. -/
def opcodesOf : Format → List Nat
  | .n => [0x00, 0x01, 0x02, 0x03, 0x04, 0x10, 0x11, 0x20, 0x22]
  | .i => [0x21, 0x30, 0x31]

/-- A row's opcode stands in the list of its format and in no other. -/
theorem opcode_mem_opcodesOf {opc imm : BitVec 8} {f : Format} {i : Instr} (h : opcodeMap opc imm = some (f, i)) :
    ∀ g, opc.toNat ∈ opcodesOf g ↔ g = f := by
  unfold opcodeMap at h
  split at h <;> cases h
  all_goals next hopc => rw [hopc]; exact fun g => by cases g <;> decide

/-- The opcodes without a row are those in neither list (R104, R106). -/
theorem opcodeMap_eq_none_iff {opc imm : BitVec 8} :
    opcodeMap opc imm = none ↔ opc.toNat ∉ opcodesOf .n ++ opcodesOf .i := by
  cases h : opcodeMap opc imm with
  | some row =>
    obtain ⟨f, i⟩ := row
    have hmem := (opcode_mem_opcodesOf h f).mpr rfl
    cases f <;> simp [hmem]
  | none =>
    unfold opcodeMap at h
    split at h <;> cases h
    simp_all [opcodesOf]

/-- The checks of R102 in their order. -/
theorem decode_by_fields (w : Word) :
    if (opcField w).toNat ∉ opcodesOf .n ++ opcodesOf .i then decode w = .illegal .reservedOpcode
    else if rsvField w ≠ 0 then decode w = .illegal .reservedBits
    else if (opcField w).toNat ∈ opcodesOf .n ∧ immField w ≠ 0 then decode w = .illegal .operandInFormatN
    else ∃ i, decode w = .command i ∧ i.opcode = opcField w ∧ i.immediate = immField w := by
  cases hmap : opcodeMap (opcField w) (immField w) with
  | none =>
    rw [if_pos (opcodeMap_eq_none_iff.mp hmap)]
    simp only [decode, hmap]
  | some row =>
    obtain ⟨f, i⟩ := row
    have hopc : ¬ (opcField w).toNat ∉ opcodesOf .n ++ opcodesOf .i :=
      fun h => Option.some_ne_none _ (hmap.symm.trans (opcodeMap_eq_none_iff.mpr h))
    have hn : (opcField w).toNat ∈ opcodesOf .n ↔ f = .n := by rw [opcode_mem_opcodesOf hmap, eq_comm]
    rw [if_neg hopc, decode_of_opcodeMap hmap]
    simp only [hn]
    split_ifs with hrsv himm
    · rfl
    · rfl
    · have hdec : decode w = .command i := by rw [decode_of_opcodeMap hmap, if_neg hrsv, if_neg himm]
      obtain ⟨-, hfopc, -, hfimm⟩ := fields_of_decode hdec
      exact ⟨i, rfl, hfopc.symm, hfimm.symm⟩

/-- Settles O4: the checks of `decode_by_fields`, the fields read as numbers. -/
theorem decodingIsTotal : Obligations.DecodingIsTotal := by
  intro w
  have h := decode_by_fields w
  simp only [ne_eq, ← BitVec.toNat_inj, opcField_toNat, rsvField_toNat, immField_toNat] at h
  exact h

/-- Settles O5, by running the decoder on the words of R113. -/
theorem workedEncodingsDecode : Obligations.WorkedEncodingsDecode := by
  unfold Obligations.WorkedEncodingsDecode; decide

end Sys2Proof
end

section
/-! PROOFS. The pseudo-instructions of R112: each is the lines it lists, and CHECK asks for bit 31 of STATUS. -/

namespace Sys2Proof.Machine

theorem allLines_singleton (line : Option (Access × Expect)) : allLines [line] = line.map ([·]) := by
  cases line <;> rfl

theorem expand_freq (c : Config) (x : Nat) (v : Word) :
    (HostLine.freq x v).expand c = (HostLine.wr (.reg (.freq x)) v).expand c := by
  simp only [HostLine.expand, allLines_singleton, freqLine, Option.map_map, Function.comp_def]

/-- A list of lines of one access each assembles to those accesses (R108, R286). -/
theorem assemble_map {α : Type} {c : Config} {f : α → HostLine} {g : α → Option (Access × Expect)}
    (h : ∀ a, (f a).expand c = allLines [g a]) (as : List α) :
    assemble c (as.map f) = allLines (as.map g) := by
  induction as with
  | nil => rfl
  | cons a as ih =>
    simp only [List.map_cons, assemble, ih, h, allLines_singleton]
    cases g a with
    | none => rfl
    | some x => cases h : allLines (as.map g) <;> simp [allLines, h]

/-- ARG exists with all parameters (R33). -/
theorem resolve_arg (c : Config) : (Place.reg .arg).resolve c = some (BitVec.ofNat 16 Reg.arg.offset) := rfl

theorem expand_decChunk (c : Config) (len : Word) (p : Immediate) :
    (HostLine.decChunk len p).expand c = assemble c [.wr (.reg .arg) len, .commandImm "DEC.START" p] := by
  simp only [assemble, HostLine.expand, resolve_arg, Option.map_some, allLines_singleton]
  cases h : immediateLine "DEC.START" p <;> rfl

/-- STATUS shows ERR in its last bit (R41). -/
theorem holds_errClear (w : Word) : Expect.errClear.holds (some w) = decide (w.toNat < 2 ^ 31) := by
  have hbit : w.getLsbD 31 = decide (2 ^ 31 ≤ w.toNat) := BitVec.msb_eq_decide w
  rw [Expect.holds, hbit, ← decide_not, decide_eq_decide, Nat.not_le]

/-- Settles O59: the lists line by line, the others by the accesses they stand for. -/
theorem pseudoInstructionsExpand : Obligations.PseudoInstructionsExpand := fun c =>
  ⟨expand_freq c, fun pairs => (assemble_map (fun _ => rfl) pairs).symm,
    fun syms => (assemble_map (fun _ => rfl) syms).symm, expand_decChunk c,
    fun bytes => (assemble_map (fun _ => rfl) bytes).symm, rfl, holds_errClear⟩

end Sys2Proof.Machine
end

section
/-! PROOFS. The control and frequency-file commands (R130 to R135, R240): what each does in every state, that the gate
lets NOP, CLRERR and SRESET through and drops FCLR and OUT.CLEAR, and the tree BUILD makes from an empty FREQ file. -/

namespace Sys2Proof.Machine

variable {s : State} {w : Word} {i : Instr} {c : Config} {freq : Table Word}

/-! ### The arms of the control commands -/

theorem exec_nop (s : State) : exec .nop s = .next s := rfl

theorem exec_clrerr (s : State) : exec .clrerr s = .next s.clearError := rfl

theorem exec_sreset (s : State) : exec .sreset s = .next s.softReset := rfl

theorem exec_fclr (s : State) : exec .fclr s = .next { s with freq := [] } := rfl

theorem exec_outClear (s : State) : exec .outClear s = .next { s with outPtr := 0 } := rfl

/-! ### Words and the gate -/

/-- The closed gate drops every command but NOP, CLRERR and SRESET (R240). -/
theorem runCommand_dropped (hd : decode w = .command i) (hi : passesClosedGate i = false) (he : s.errCode ≠ .none) :
    runCommand w s = .next s := by
  rw [runCommand_command hd, if_pos ⟨(err_eq_true s).mpr he, hi⟩]

theorem eq_nop_of_opcode (h : i.opcode.toNat = 0) : i = .nop := by
  cases i
  case nop => rfl
  all_goals simp [Instr.opcode] at h

/-- The one command with OPC 0x00 is NOP, whose word is 0 (R130). -/
theorem decode_illegal_of_opcode_zero (h0 : w.toNat / 2 ^ 24 = 0) (hw : w ≠ 0) : ∃ why, decode w = .illegal why := by
  cases hd : decode w with
  | illegal why => exact ⟨why, rfl⟩
  | command i =>
    obtain ⟨-, hopc, -, -⟩ := fields_of_decode hd
    obtain rfl : i = .nop := eq_nop_of_opcode (by rw [← hopc, opcField_toNat, h0])
    exact absurd (encode_of_decode hd).symm hw

/-! ### The error record -/

theorem clearError_eq_self (hc : s.errCode = .none) (hi : s.errInfo = 0) : s.clearError = s := by
  rw [State.clearError, ← hc, ← hi]

/-- Settles O23: both commands pass the gate, open or closed, and NOP is the only command with OPC 0x00. -/
theorem nopAndClrerr : Obligations.NopAndClrerr := by
  have hnop : decode 0x00000000 = .command .nop := decode_encode (i := .nop) rfl
  have hclr : decode 0x01000000 = .command .clrerr := decode_encode (i := .clrerr) rfl
  refine ⟨hnop, hclr, fun w => decode_illegal_of_opcode_zero, fun s => ⟨exec_nop s, ?_, exec_clrerr s, ?_, ?_⟩⟩
  · rw [runCommand_passed hnop (.inr (.inl rfl)), exec_nop]
  · rw [runCommand_passed hclr (.inr (.inr (.inl rfl))), exec_clrerr, State.clearError]
  · intro hc hi
    rw [exec_clrerr, clearError_eq_self hc hi]

/-! ### Reset by command -/

theorem freqAt_nil (k : Nat) : freqAt [] k = 0 := rfl

/-- No field of STATUS is among those an SRESET keeps (R132). -/
theorem statusWord_softReset (s : State) : statusWord s.softReset = 0x20 :=
  statusWord_resetWith s.cfg s.obufDraw

/-- Settles O22: SRESET passes the gate, and each field of `softReset` is its reset value or the one before. -/
theorem softResetKeepsObuf : Obligations.SoftResetKeepsObuf := by
  have hdec : decode 0x02000000 = .command .sreset := decode_encode (i := .sreset) rfl
  refine ⟨hdec, fun s => ⟨s.softReset, exec_sreset s, ?_, fun k _ => freqAt_nil k, rfl, rfl, rfl, rfl, rfl, rfl, rfl, rfl,
    rfl, rfl, rfl, rfl, rfl, rfl, rfl, rfl, rfl, ?_, obufByte_softReset s, rfl, rfl, rfl, ?_, rfl, rfl, rfl,
    softReset_afterSReset s, (softReset_afterSReset s).clean⟩⟩
  · rw [runCommand_passed hdec (.inr (.inr (.inr rfl))), exec_sreset]
  · rw [readAt_status, statusWord_softReset]
  · rw [readAt_config, readAt_config, softReset_cfg]

/-! ### The frequency file -/

/-- With no present symbol there is no leaf (R151). -/
theorem sortedLeaves_eq_nil (h : ∀ k, freqAt freq k = 0) : sortedLeaves c freq = [] := by
  have hnone : presentSymbols c freq = [] := List.eq_nil_iff_forall_not_mem.mpr fun k hk => by
    obtain ⟨-, hpos⟩ := mem_presentSymbols.mp hk
    simp [h k] at hpos
  rw [← List.length_eq_zero_iff, length_sortedLeaves, hnone, List.length_nil]

/-- A tree of no leaf has no node (R13, R52). -/
theorem buildArena_eq_nil (h : sortedLeaves c freq = []) : buildArena c freq = [] := by
  have hsize := (buildArena_wf c freq).size
  rw [h] at hsize
  exact List.length_eq_zero_iff.mp hsize

/-- BUILD over an empty FREQ file gives an EMPTY tree (R153). -/
theorem execBuild_of_freq_zero (he : s.encActive = false) (hd : s.decActive = false) (hf : ∀ k, freqAt s.freq k = 0) :
    ∃ u, exec .build s = .next u ∧ u.treeState = .empty ∧ u.arena = [] := by
  have hleaves : sortedLeaves s.cfg s.freq = [] := sortedLeaves_eq_nil hf
  refine ⟨s.withTree, execBuild_idle he hd, ?_, ?_⟩
  · rw [withTree_treeState, hleaves, List.length_nil, treeStateOf]
  · rw [withTree_arena, buildArena_eq_nil hleaves]

/-- Settles O24: FREQ alone is emptied, and the BUILD after it finds no present symbol. -/
theorem fclrEmptiesFreq : Obligations.FclrEmptiesFreq := by
  have hdec : decode 0x03000000 = .command .fclr := decode_encode (i := .fclr) rfl
  refine ⟨hdec, fun s => ⟨⟨{ s with freq := [] }, exec_fclr s, rfl, freqAt_nil, fun hopen => ?_, fun he hd => ?_⟩,
    runCommand_dropped hdec rfl⟩⟩
  · rw [runCommand_passed hdec (.inl hopen), exec_fclr]
  · exact execBuild_of_freq_zero (s := { s with freq := [] }) he hd freqAt_nil

/-! ### The output pointer -/

/-- Settles O25: OUT_PTR alone is written, and no OBUF byte reads it. -/
theorem outClearEmptiesTheBuffer : Obligations.OutClearEmptiesTheBuffer := by
  have hdec : decode 0x04000000 = .command .outClear := decode_encode (i := .outClear) rfl
  refine ⟨hdec, fun s => ⟨exec_outClear s, obufByte_congr rfl rfl, fun hopen => ?_, runCommand_dropped hdec rfl⟩⟩
  rw [runCommand_passed hdec (.inl hopen), exec_outClear]

end Sys2Proof.Machine
end

section
/-! PROOFS. BUILD (R150 to R153, R157, R158): what it writes and its one check, the sorted leaves and the merged nodes of
its arena, and that they are a function of the FREQ values alone. -/

namespace Sys2Proof.Machine

variable {c : Config} {freq freq' : Table Word} {n : Nat} {arena : List Node} {s : State}

/-! ### The present symbols and the check -/

/-- The present symbols are those whose FREQ entry is not 0 (R151). -/
theorem presentSymbols_eq (c : Config) (freq : Table Word) :
    presentSymbols c freq = (List.range c.alphaSize).filter fun x => decide (freqAt freq x ≠ 0) := by
  refine List.filter_congr fun x _ => decide_eq_decide.mpr ?_
  exact Nat.pos_iff_ne_zero.trans (BitVec.toNat_ne (y := 0)).symm

theorem symbol_toNat {x : Nat} (hx : x < c.alphaSize) : (BitVec.ofNat 8 x).toNat = x := by
  rw [BitVec.toNat_ofNat]; exact Nat.mod_eq_of_lt (hx.trans_le (alphaSize_le c))

theorem decode_build : decode 0x10000000 = .command .build := decode_encode (i := .build) rfl

/-- The one check of BUILD (R150). -/
theorem execBuild_of_session (h : s.encActive = true ∨ s.decActive = true) :
    exec .build s = .next { s with errCode := .sessionOpen, errInfo := 0x10000000 } :=
  (if_pos h).trans rfl

/-! ### What BUILD writes -/

theorem treeStateOf_eq (n : Nat) : treeStateOf n = if n = 0 then .empty else if n = 1 then .single else .multi := by
  match n with
  | 0 => rfl
  | 1 => rfl
  | n + 2 => rfl

theorem length_buildArena (c : Config) (freq : Table Word) :
    (buildArena c freq).length
      = if (sortedLeaves c freq).length = 0 then 0 else 2 * (sortedLeaves c freq).length - 1 := by
  rw [(buildArena_wf c freq).size]; split <;> omega

/-- The example of R153: 'a' with frequency 3 and 'b' with 1. -/
theorem sortedLeaves_example :
    sortedLeaves Config.examples [(0x61, 3), (0x62, 1)] = [.leaf 0x62 1, .leaf 0x61 3] := by decide

theorem buildArena_example :
    buildArena Config.examples [(0x61, 3), (0x62, 1)] = [.leaf 0x62 1, .leaf 0x61 3, .internal 4 0 1] := by
  rw [buildArena, sortedLeaves_example]; decide

/-- Settles O26: with the sessions closed the state written is `withTree`, field by field; within a session the check
fails; the example by its leaves and its one merge. -/
theorem buildWritesTheTree : Obligations.BuildWritesTheTree := by
  refine ⟨fun s he hd => ?_, fun s h => execBuild_of_session h, fun s hc hf he hd => ?_⟩
  · refine ⟨s.withTree, (sortedLeaves s.cfg s.freq).length, execBuild_idle he hd, ?_, rfl, rfl,
      length_buildArena s.cfg s.freq, withTree_nsym_toNat s, treeStateOf_eq _, withTree_root_toNat s, ?_⟩
    · rw [length_sortedLeaves, presentSymbols_eq]
    · exact decide_eq_true rfl
  · rw [execBuild_idle he hd, State.withTree, hc, hf, sortedLeaves_example, buildArena_example]
    rfl

/-! ### The leaves -/

/-- In an arena of n leaves, a leaf's index is below n (R52). -/
theorem TreeWf.leaf_lt (h : TreeWf c n arena) {k w : Nat} {sym : Byte} (hk : arena[k]? = some (.leaf sym w)) : k < n := by
  by_contra hge
  obtain ⟨l, r, hint, -, -⟩ := h.internals k (by omega) (List.getElem?_eq_some_iff.mp hk).1
  rw [hint] at hk; cases hk

/-- The first n + t entries of BUILD's arena are the merge's arena after t iterations (R152). -/
theorem take_buildArena {t : Nat} (ht : t < (sortedLeaves c freq).length) :
    (buildArena c freq).take ((sortedLeaves c freq).length + t)
      = (mergeTimes (sortedLeaves c freq).length t
          { arena := sortedLeaves c freq, i := 0, j := (sortedLeaves c freq).length }).arena :=
  take_mergeTimes (sortedLeaves_ascend c freq) (by omega) (by omega)

/-- The merge leaves the sorted leaves where they are (R152). -/
theorem getElem?_buildArena {k : Nat} (hk : k < (sortedLeaves c freq).length) :
    (buildArena c freq)[k]? = (sortedLeaves c freq)[k]? := by
  have htake : (buildArena c freq).take (sortedLeaves c freq).length = sortedLeaves c freq :=
    take_buildArena (t := 0) (by omega)
  rw [← List.getElem?_take_of_lt hk, htake]

/-- Entry k of the arena, for k < n, is the leaf of the k-th symbol in leaf order (R151). -/
theorem getElem?_buildArena_leaf {k : Nat} (hk : k < (sortedLeaves c freq).length) :
    ∃ x, (leafOrder c freq)[k]? = some x ∧ (buildArena c freq)[k]? = some (leafOf freq x) ∧
      x < c.alphaSize ∧ 0 < (freqAt freq x).toNat := by
  rw [getElem?_buildArena hk]; exact getElem?_sortedLeaves hk

/-- A leaf of the arena is that of its place in leaf order, with its symbol's frequency as weight (R151). -/
theorem leafOrder_of_buildArena_leaf {k w : Nat} {sym : Byte} (hk : (buildArena c freq)[k]? = some (.leaf sym w)) :
    (leafOrder c freq)[k]? = some sym.toNat ∧ w = (freqAt freq sym.toNat).toNat := by
  obtain ⟨x, hx, hleaf, hlt, -⟩ := getElem?_buildArena_leaf ((buildArena_wf c freq).leaf_lt hk)
  rw [hk, leafOf] at hleaf
  cases hleaf
  rw [symbol_toNat hlt]
  exact ⟨hx, rfl⟩

/-- Settles O27: the first n entries are the leaves in leaf order, which is sorted and holds the present symbols. -/
theorem buildSortsTheLeaves : Obligations.BuildSortsTheLeaves := by
  intro s he hd
  refine ⟨s.withTree, execBuild_idle he hd, ?_⟩
  rw [withTree_nsym_toNat, withTree_arena]
  refine ⟨fun k hk => ?_, fun k k' sym sym' w w' hkk hleaf hleaf' => ?_, fun x hx hpos => ?_,
    fun k sym w hk => (buildArena_wf s.cfg s.freq).leaf_lt hk⟩
  · obtain ⟨x, -, hleaf, hx, hpos⟩ := getElem?_buildArena_leaf hk
    refine ⟨BitVec.ofNat 8 x, ?_⟩
    rw [symbol_toNat hx]
    exact ⟨hleaf, hx, hpos⟩
  · obtain ⟨horder, rfl⟩ := leafOrder_of_buildArena_leaf hleaf
    obtain ⟨horder', rfl⟩ := leafOrder_of_buildArena_leaf hleaf'
    obtain ⟨hk, hsym⟩ := List.getElem?_eq_some_iff.mp horder
    obtain ⟨hk', hsym'⟩ := List.getElem?_eq_some_iff.mp horder'
    have hprec := List.pairwise_iff_getElem.mp (leafOrder_sorted s.cfg s.freq) k k' hk hk' hkk
    rwa [hsym, hsym'] at hprec
  · obtain ⟨k, hk, hget⟩ := List.getElem_of_mem (mem_leafOrder.mpr ⟨hx, hpos⟩)
    rw [length_leafOrder] at hk
    obtain ⟨y, hy, hleaf, -, -⟩ := getElem?_buildArena_leaf hk
    obtain rfl : x = y := hget.symm.trans (List.getElem?_eq_some_iff.mp hy).2
    exact ⟨k, hk, hleaf⟩

/-! ### The merged nodes -/

theorem weightAt_take {k x : Nat} (hx : x < k) : weightAt (arena.take k) x = weightAt arena x := by
  rw [weightAt, weightAt, List.getElem?_take_of_lt hx]

/-- Being the least by (weight, index) depends on the entries compared alone. -/
theorem IsLeastIn.of_take {k a : Nat} {l : List Nat} (h : IsLeastIn (arena.take k) l a) (hl : ∀ x ∈ l, x < k) :
    IsLeastIn arena l a := by
  refine ⟨h.1, fun x hx => ?_⟩
  rw [← weightAt_take (hl a h.1), ← weightAt_take (hl x hx)]
  exact h.2 x hx

theorem lt_of_mem_unmergedIn_take {k x : Nat} (h : x ∈ unmergedIn (arena.take k)) : x < k :=
  (mem_unmergedIn.mp h).1.trans_le (List.length_take_le k arena)

theorem childrenOf_sortedLeaves (c : Config) (freq : Table Word) : childrenOf (sortedLeaves c freq) = [] :=
  childrenOf_leaves freq _

/-- Each internal node's children are the least unmerged node and the least of the rest (R152, R158). -/
theorem buildArena_node {k : Nat} (hn : (sortedLeaves c freq).length ≤ k) (hk : k < (buildArena c freq).length) :
    ∃ l r, (buildArena c freq)[k]?
        = some (.internal (weightAt (buildArena c freq) l + weightAt (buildArena c freq) r) l r) ∧
      IsLeastIn (buildArena c freq) (unmergedIn ((buildArena c freq).take k)) l ∧
      IsLeastIn (buildArena c freq) ((unmergedIn ((buildArena c freq).take k)).filter fun x => decide (x ≠ l)) r := by
  obtain ⟨t, rfl⟩ := Nat.exists_eq_add_of_le hn
  have hsize := (buildArena_wf c freq).size
  obtain ⟨l, r, hnode, hl, hr⟩ :=
    mergeTimes_node (sortedLeaves_ascend c freq) (childrenOf_sortedLeaves c freq) (t := t) (by omega)
  rw [← take_buildArena (by omega), ← take_buildArena (by omega), List.getElem?_take_of_lt (by omega)] at hnode
  rw [← take_buildArena (by omega)] at hl hr
  have hlt : ∀ x ∈ unmergedIn ((buildArena c freq).take ((sortedLeaves c freq).length + t)),
      x < (sortedLeaves c freq).length + t := fun _ => lt_of_mem_unmergedIn_take
  rw [weightAt_take (hlt l hl.1), weightAt_take (hlt r (List.mem_of_mem_filter hr.1))] at hnode
  exact ⟨l, r, hnode, hl.of_take hlt, hr.of_take fun x hx => hlt x (List.mem_of_mem_filter hx)⟩

/-- When entry k is made, 2n − k nodes are unmerged (R157). -/
theorem length_unmergedIn_buildArena {k : Nat} (hn : (sortedLeaves c freq).length ≤ k)
    (hk : k < (buildArena c freq).length) :
    (unmergedIn ((buildArena c freq).take k)).length = 2 * (sortedLeaves c freq).length - k := by
  obtain ⟨t, rfl⟩ := Nat.exists_eq_add_of_le hn
  have hsize := (buildArena_wf c freq).size
  have ht : t < (sortedLeaves c freq).length := by omega
  rw [take_buildArena ht, (mergeInv_times (sortedLeaves_ascend c freq) t ht).length_unmerged
    (childrenOf_sortedLeaves c freq) ht]
  omega

/-- At the end the root alone is unmerged (R157). -/
theorem unmergedIn_buildArena (hpos : 0 < (sortedLeaves c freq).length) :
    unmergedIn (buildArena c freq) = [2 * (sortedLeaves c freq).length - 2] :=
  ((mergeInv_times (sortedLeaves_ascend c freq) ((sortedLeaves c freq).length - 1) (by omega)).last
    (childrenOf_sortedLeaves c freq) (by omega)).1

/-- Internal weights do not fall in order of creation (R158). -/
theorem weightAt_buildArena_mono {k k' : Nat} (hn : (sortedLeaves c freq).length ≤ k) (hkk : k ≤ k')
    (hk' : k' < (buildArena c freq).length) : weightAt (buildArena c freq) k ≤ weightAt (buildArena c freq) k' := by
  have hsize := (buildArena_wf c freq).size
  exact (mergeInv_times (sortedLeaves_ascend c freq) ((sortedLeaves c freq).length - 1) (by omega)).grown k k' hn hkk hk'

/-- Settles O28: the node made in iteration k − n, the nodes then unmerged, and the order of the merge's weights. -/
theorem buildMergesTheTwoLightest : Obligations.BuildMergesTheTwoLightest := by
  intro s he hd
  refine ⟨s.withTree, execBuild_idle he hd, ?_⟩
  rw [withTree_nsym_toNat, withTree_arena]
  refine ⟨fun k hn hk => ?_, fun k k' => weightAt_buildArena_mono, fun h2 => unmergedIn_buildArena (by omega)⟩
  obtain ⟨l, r, hnode, hl, hr⟩ := buildArena_node hn hk
  have hsize := (buildArena_wf s.cfg s.freq).size
  exact ⟨l, r, hnode, hl, hr, length_unmergedIn_buildArena hn hk, by omega⟩

/-! ### A function of the FREQ values -/

theorem insertByKey_congr {key key' : Nat → Nat} {x : Nat} {l : List Nat} (hx : key x = key' x)
    (hl : ∀ y ∈ l, key y = key' y) : insertByKey key x l = insertByKey key' x l := by
  induction l with
  | nil => rfl
  | cons y rest ih =>
    rw [List.forall_mem_cons] at hl
    rw [insertByKey, insertByKey, hx, hl.1, ih hl.2]

theorem stableSortBy_congr {key key' : Nat → Nat} {l : List Nat} (hl : ∀ y ∈ l, key y = key' y) :
    stableSortBy key l = stableSortBy key' l := by
  induction l with
  | nil => rfl
  | cons x rest ih =>
    rw [List.forall_mem_cons] at hl
    rw [stableSortBy, stableSortBy, ← ih hl.2]
    exact insertByKey_congr hl.1 fun y hy => hl.2 y ((stableSortBy_perm key rest).mem_iff.mp hy)

/-- The sorted leaves read no more of FREQ than its ALPHA values (R151). -/
theorem sortedLeaves_congr (h : ∀ x, x < c.alphaSize → freqAt freq x = freqAt freq' x) :
    sortedLeaves c freq = sortedLeaves c freq' := by
  have hpresent : presentSymbols c freq = presentSymbols c freq' :=
    List.filter_congr fun x hx => by rw [h x (List.mem_range.mp hx)]
  have horder : leafOrder c freq = leafOrder c freq' := by
    rw [leafOrder, leafOrder, hpresent]
    exact stableSortBy_congr fun x hx => by rw [h x (mem_presentSymbols.mp hx).1]
  rw [sortedLeaves_eq, sortedLeaves_eq, horder]
  exact List.map_congr_left fun x hx => by rw [leafOf, leafOf, h x (mem_leafOrder.mp hx).1]

/-- The merge starts from the sorted leaves and reads nothing else (R152). -/
theorem buildArena_congr (h : sortedLeaves c freq = sortedLeaves c freq') : buildArena c freq = buildArena c freq' := by
  rw [buildArena, buildArena, h]

/-- Settles O30: the check, and that every field BUILD writes comes from the sorted leaves. -/
theorem buildDependsOnFreqAlone : Obligations.BuildDependsOnFreqAlone := by
  refine ⟨decode_build, fun s h => execBuild_of_session h, fun s u hcfg hse hsd hue hud hfreq => ?_⟩
  have hleaves : sortedLeaves s.cfg s.freq = sortedLeaves u.cfg u.freq := by rw [← hcfg]; exact sortedLeaves_congr hfreq
  have harena : buildArena s.cfg s.freq = buildArena u.cfg u.freq := by
    rw [← hcfg] at hleaves ⊢; exact buildArena_congr hleaves
  refine ⟨s.withTree, u.withTree, execBuild_idle hse hsd, execBuild_idle hue hud, rfl, rfl, harena, ?_, ?_, ?_, ?_⟩
  · rw [State.nnodes, State.nnodes, withTree_arena, withTree_arena, harena]
  · rw [withTree_nsym, withTree_nsym, hleaves]
  · rw [withTree_root, withTree_root, hleaves]
  · rw [withTree_treeState, withTree_treeState, hleaves]

end Sys2Proof.Machine
end

section
/-! PROOFS. BUILD then EXTRACT (R159, R171): the code table exists for every FREQ contents, and its codes' total length is
the cost of the arena's tree, which the greedy merge makes least. -/

namespace Sys2Proof.Machine

variable {c : Config} {freq : Table Word} {n : Nat} {arena : List Node} {s : State} {t : Table Code}

/-! ### EXTRACT after BUILD -/

/-- The tree of any number of leaves has a code table (R171, R172). -/
theorem TreeWf.treeCodes_some (h : TreeWf c n arena) : ∃ t, treeCodes (treeStateOf n) arena (rootOf n) = some t := by
  match n with
  | 0 => exact ⟨[], rfl⟩
  | 1 => obtain ⟨-, -, t, -, ht, -⟩ := treeCodes_single h; exact ⟨t, ht⟩
  | n + 2 =>
    obtain ⟨t, ht, -⟩ := treeCodes_multi h (by omega)
    exact ⟨t, by rw [rootOf, if_pos (by omega)]; exact ht⟩

theorem execExtract_of_treeCodes (ht : s.treeState ≠ .none) (he : s.encActive = false)
    (hc : treeCodes s.treeState s.arena s.root.toNat = some t) :
    exec .extract s = .next { s with codes := t, codesValid := true } := by
  simp [exec, execExtract, ht, he, hc]

theorem treeStateOf_ne_none (n : Nat) : treeStateOf n ≠ .none := by
  rw [treeStateOf_eq]; split_ifs <;> decide

/-- With the sessions closed BUILD then EXTRACT completes, and writes the codes of the tree made (R150, R170). -/
theorem execAll_build_extract (he : s.encActive = false) (hd : s.decActive = false) :
    ∃ t, treeCodes (treeStateOf (sortedLeaves s.cfg s.freq).length) (buildArena s.cfg s.freq)
        (rootOf (sortedLeaves s.cfg s.freq).length) = some t ∧
      execAll [.build, .extract] s = .next { s.withTree with codes := t, codesValid := true } := by
  obtain ⟨t, ht⟩ := (buildArena_wf s.cfg s.freq).treeCodes_some
  refine ⟨t, ht, ?_⟩
  have hextract : exec .extract s.withTree = .next { s.withTree with codes := t, codesValid := true } :=
    execExtract_of_treeCodes (treeStateOf_ne_none _) he (by rw [withTree_root_toNat]; exact ht)
  simp only [execAll, execBuild_idle he hd, hextract]

/-! ### The cost of the codes -/

theorem sum_map_le_of_subset {l l' : List Nat} (f : Nat → Nat) (hn : l.Nodup) (hs : l ⊆ l') :
    (l.map f).sum ≤ (l'.map f).sum := by
  obtain ⟨u, hp, hsub⟩ := List.subperm_of_subset hn hs
  rw [← (hp.map f).sum_eq]
  exact (hsub.map f).sum_le_sum fun _ _ => Nat.zero_le _

/-- The codes of a tree of two or more leaves cost no more than its walk: a symbol with a code is a leaf of the walk, and
its code is no longer than the path there (R171). -/
theorem TreeWf.codes_cost_le (h : TreeWf c n arena) (hn : 2 ≤ n) (ht : treeCodes .multi arena (2 * n - 2) = some t)
    {g : Nat → Nat} (hg : ∀ (k : Nat) (sym : Byte) (w : Nat), arena[k]? = some (.leaf sym w) → g sym.toNat = w) (m : Nat) :
    ((List.range m).map fun x => g x * (codeAt t x).len.toNat).sum
      ≤ subCost arena arena.length (arena.length - 1) := by
  have hsize := h.size
  obtain ⟨t', ht', -, hpath, hcode⟩ := treeCodes_multi h hn
  obtain rfl : t = t' := Option.some.inj (ht.symm.trans ht')
  obtain ⟨es, hes⟩ := h.walk_some (fuel := arena.length) (i := 2 * n - 2) (by omega) (by omega) []
  have hmem := mem_walk hes
  simp only [List.nil_append] at hmem
  have hsub : (List.range m).filter (fun x => decide (0 < g x * (codeAt t x).len.toNat)) ⊆ es.map Prod.fst := by
    intro x hx
    have hpos : 0 < g x * (codeAt t x).len.toNat := by simpa using (List.mem_filter.mp hx).2
    have hne : codeAt t x ≠ noCode := by
      intro hc
      rw [hc] at hpos
      simp [noCode] at hpos
    obtain ⟨p, sym, hp, rfl⟩ := hcode x hne
    exact List.mem_map.mpr ⟨(sym.toNat, p), (hmem _).mpr ⟨p, sym, hp, rfl⟩, rfl⟩
  have hlen : ∀ e ∈ es, g e.1 * (codeAt t e.1).len.toNat ≤ g e.1 * e.2.length := by
    intro e he
    obtain ⟨p, sym, hp, rfl⟩ := (hmem e).mp he
    rw [hpath p sym hp, codeOfPath, BitVec.toNat_ofNat]
    exact Nat.mul_le_mul_left _ (Nat.mod_le _ _)
  calc ((List.range m).map fun x => g x * (codeAt t x).len.toNat).sum
      = (((List.range m).filter fun x => decide (0 < g x * (codeAt t x).len.toNat)).map
          fun x => g x * (codeAt t x).len.toNat).sum := (sum_filter_pos _ _).symm
    _ ≤ ((es.map Prod.fst).map fun x => g x * (codeAt t x).len.toNat).sum :=
        sum_map_le_of_subset _ (List.nodup_range.filter _) hsub
    _ ≤ (es.map fun e => g e.1 * e.2.length).sum := by rw [List.map_map]; exact List.sum_le_sum hlen
    _ = subCost arena arena.length (arena.length - 1) := by
        rw [(h.walk_cost g hg hes).2, List.length_nil, Nat.zero_mul, Nat.add_zero, hsize]; rfl

/-! ### The least cost -/

/-- The leaves' weights are the frequencies in leaf order (R151). -/
theorem map_weightAt_buildArena (c : Config) (freq : Table Word) :
    (List.range (sortedLeaves c freq).length).map (weightAt (buildArena c freq))
      = (leafOrder c freq).map fun x => (freqAt freq x).toNat := by
  refine List.ext_getElem (by simp [length_leafOrder]) fun k hk hk' => ?_
  rw [List.length_map, List.length_range] at hk
  obtain ⟨x, hx, hleaf, -, -⟩ := getElem?_buildArena_leaf hk
  rw [List.getElem_map, List.getElem_map, List.getElem_range, weightAt_of hleaf, (List.getElem?_eq_some_iff.mp hx).2]
  rfl

/-- No strict binary tree over the present symbols costs less than BUILD's (R159). -/
theorem subCost_buildArena_le (hpos : 0 < (sortedLeaves c freq).length) {τ : BinTree}
    (hτ : τ.symbols.Perm (presentSymbols c freq)) :
    subCost (buildArena c freq) (buildArena c freq).length ((buildArena c freq).length - 1)
      ≤ τ.costFrom (fun x => (freqAt freq x).toNat) 0 := by
  have hwf := buildArena_wf c freq
  have hsize := hwf.size
  obtain ⟨ds, hshape, hlen, hcost⟩ := τ.shape fun x => (freqAt freq x).toNat
  have horder : (leafOrder c freq).Perm (presentSymbols c freq) := stableSortBy_perm _ _
  rw [hcost]
  refine hwf.greedy_optimal hpos (fun k => buildArena_node) ?_ hshape hlen ?_
  · rw [unmergedIn_buildArena hpos, hsize]; rfl
  · rw [map_weightAt_buildArena]; exact (hτ.trans horder.symm).map _

/-- Settles O35: the codes cost no more than the arena's tree, and that no more than any other. -/
theorem buildIsOptimal : Obligations.BuildIsOptimal := by
  intro s he hd
  obtain ⟨t, ht, hrun⟩ := execAll_build_extract he hd
  refine ⟨_, hrun, fun h2 τ hτ => ?_⟩
  have hn : 2 ≤ (sortedLeaves s.cfg s.freq).length := by rwa [← withTree_nsym_toNat s]
  rw [← presentSymbols_eq] at hτ
  rw [treeStateOf_eq, if_neg (by omega), if_neg (by omega), rootOf, if_pos hn] at ht
  calc ((List.range s.cfg.alphaSize).map fun x => (freqAt s.freq x).toNat * (codeAt t x).len.toNat).sum
      ≤ subCost (buildArena s.cfg s.freq) (buildArena s.cfg s.freq).length ((buildArena s.cfg s.freq).length - 1) :=
        (buildArena_wf s.cfg s.freq).codes_cost_le hn ht
          (fun k sym w hk => (leafOrder_of_buildArena_leaf hk).2.symm) s.cfg.alphaSize
    _ ≤ τ.costFrom (fun x => (freqAt s.freq x).toNat) 0 := subCost_buildArena_le (by omega) hτ

end Sys2Proof.Machine
end

section
/-! PROOFS. EXTRACT (R170 to R174): its checks and what it writes, the codes of each kind of tree, that after BUILD they are
those of the present symbols, and that no code begins with another one. -/

namespace Sys2Proof.Machine

variable {c : Config} {freq : Table Word} {n i : Nat} {arena : List Node} {s : State} {t : Table Code} {p q : BitString}
  {sym sym' : Byte}

/-! ### The codes of paths -/

/-- The length of a path fits CLEN (R171). -/
theorem codeOfPath_len_toNat (hp : p.length ≤ 256) : (codeOfPath p).len.toNat = p.length := by
  rw [codeOfPath, BitVec.toNat_ofNat]; exact Nat.mod_eq_of_lt (by omega)

/-- The value of a path fits CBITS (R171). -/
theorem codeOfPath_bits_toNat (hp : p.length ≤ 256) : (codeOfPath p).bits.toNat = valOf p := by
  rw [codeOfPath, BitVec.toNat_ofNat]
  exact Nat.mod_eq_of_lt ((valOf_lt p).trans_le (Nat.pow_le_pow_right (by norm_num) hp))

/-- A path to a leaf goes no further, so a leaf path that begins another one ends at the same symbol (R174). -/
theorem IsLeafPath.sym_eq_of_isPrefix (hp : IsLeafPath arena i p sym) (hq : IsLeafPath arena i q sym') (hpq : p <+: q) :
    sym = sym' := by
  obtain ⟨k, w, hdp, hk⟩ := hp
  obtain ⟨k', w', hdq, hk'⟩ := hq
  obtain ⟨r, rfl⟩ := hpq
  rw [descend_append, hdp, Option.bind_some] at hdq
  obtain ⟨-, rfl⟩ := descend_leaf hk hdq
  rw [hk] at hk'; cases hk'; rfl

/-- In a tree of two or more leaves a leaf lies below the root, and its path fits an entry of the code table (R14). -/
theorem TreeWf.leafPath_length (h : TreeWf c n arena) (hn : 2 ≤ n) (hp : IsLeafPath arena (2 * n - 2) p sym) :
    0 < p.length ∧ p.length ≤ 256 := by
  obtain ⟨k, w, hd, hk⟩ := hp
  constructor
  · refine List.length_pos_iff.mpr ?_
    rintro rfl
    cases hd
    have hlt := h.leaf_lt hk
    omega
  · have hdepth := h.depth_le hd
    have hfits := h.fits
    have halpha := alphaSize_le c
    omega

/-- Every leaf of a tree has a path from the root (R171). -/
theorem TreeWf.exists_leafPath (h : TreeWf c n arena) {k w : Nat} (hk : arena[k]? = some (.leaf sym w)) :
    ∃ p, IsLeafPath arena (2 * n - 2) p sym := by
  obtain ⟨p, hp⟩ := h.reachable (List.getElem?_eq_some_iff.mp hk).1
  have hsize := h.size
  rw [show arena.length - 1 = 2 * n - 2 by omega] at hp
  exact ⟨p, k, w, hp, hk⟩

/-! ### The code table of a tree -/

/-- The table of a tree is well formed, and the symbols with a code are those of the leaves (R171 to R173). -/
theorem TreeWf.codes_iff_leaf (h : TreeWf c n arena) (ht : treeCodes (treeStateOf n) arena (rootOf n) = some t) :
    CodesWf c t ∧ ∀ x, codeAt t x ≠ noCode ↔
      ∃ (k : Nat) (sym : Byte) (w : Nat), arena[k]? = some (.leaf sym w) ∧ sym.toNat = x := by
  match n, h, ht with
  | 0, h, ht =>
    cases ht
    refine ⟨⟨Table.wf_nil _, fun e he => absurd he List.not_mem_nil⟩, fun x => iff_of_false (fun hx => hx rfl) ?_⟩
    rintro ⟨k, sym, w, hk, -⟩
    exact absurd (h.leaf_lt hk) (Nat.not_lt_zero k)
  | 1, h, ht =>
    obtain ⟨sym, w, t', rfl, ht', hwf, hcode, hother⟩ := treeCodes_single h
    obtain rfl : t' = t := Option.some.inj (ht'.symm.trans ht)
    refine ⟨hwf, fun x => ⟨fun hx => ⟨0, sym, w, rfl, ?_⟩, ?_⟩⟩
    · by_contra hne
      exact hx (hother x (Ne.symm hne))
    · rintro ⟨k, sym', w', hk, rfl⟩
      obtain rfl : k = 0 := Nat.lt_one_iff.mp (h.leaf_lt hk)
      cases hk
      rw [hcode]; decide
  | n + 2, h, ht =>
    have hn : 2 ≤ n + 2 := by omega
    obtain ⟨t', ht', hwf, hpath, hcode⟩ := treeCodes_multi h hn
    rw [rootOf, if_pos hn] at ht
    obtain rfl : t' = t := Option.some.inj (ht'.symm.trans ht)
    refine ⟨hwf, fun x => ⟨fun hx => ?_, ?_⟩⟩
    · obtain ⟨p, sym, ⟨k, w, -, hk⟩, hsym⟩ := hcode x hx
      exact ⟨k, sym, w, hk, hsym⟩
    · rintro ⟨k, sym, w, hk, rfl⟩ hnone
      obtain ⟨p, hp⟩ := h.exists_leafPath hk
      obtain ⟨hpos, hle⟩ := h.leafPath_length hn hp
      have hlen := codeOfPath_len_toNat hle
      rw [← hpath p sym hp, hnone] at hlen
      exact absurd hlen hpos.ne

/-- The leaves BUILD makes are those of the present symbols (R151). -/
theorem buildArena_leaf_iff {x : Nat} :
    (∃ (k : Nat) (sym : Byte) (w : Nat), (buildArena c freq)[k]? = some (.leaf sym w) ∧ sym.toNat = x)
      ↔ x < c.alphaSize ∧ 0 < (freqAt freq x).toNat := by
  constructor
  · rintro ⟨k, sym, w, hk, rfl⟩
    exact mem_leafOrder.mp (List.mem_of_getElem? (leafOrder_of_buildArena_leaf hk).1)
  · intro hx
    obtain ⟨k, hk⟩ := List.getElem?_of_mem (mem_leafOrder.mpr hx)
    obtain ⟨hlt, -⟩ := List.getElem?_eq_some_iff.mp hk
    rw [length_leafOrder] at hlt
    obtain ⟨y, hy, hleaf, -, -⟩ := getElem?_buildArena_leaf hlt
    obtain rfl : x = y := Option.some.inj (hk.symm.trans hy)
    exact ⟨k, _, _, hleaf, symbol_toNat hx.1⟩

/-- The codes of a one-leaf tree in a state that meets the invariant (R172). -/
theorem Inv.codes_single (h : Inv s) (hs : s.treeState = .single)
    (ht : treeCodes s.treeState s.arena s.root.toNat = some t) :
    ∃ sym w, s.arena[(0 : Nat)]? = some (.leaf sym w) ∧ codeAt t sym.toNat = { len := 1, bits := 0 } ∧
      ∀ x, x ≠ sym.toNat → codeAt t x = noCode := by
  have htree := h.tree
  rw [h.single_one hs] at htree
  obtain ⟨sym, w, t', harena, ht', -, hcode, hother⟩ := treeCodes_single htree
  rw [hs, (h.cursorOther (by rw [hs]; decide)).2] at ht
  obtain rfl : t' = t := Option.some.inj (ht'.symm.trans ht)
  exact ⟨sym, w, by rw [harena]; rfl, hcode, hother⟩

/-- An empty tree has no codes (R172). -/
theorem codes_empty (he : s.treeState = .empty) (ht : treeCodes s.treeState s.arena s.root.toNat = some t) (x : Nat) :
    codeAt t x = noCode := by
  rw [he] at ht; cases ht; exact codeAt_nil x

/-- The codes of a tree of two or more leaves in a state that meets the invariant: length and bits of a leaf's symbol are
those of the leaf's path, and no other symbol has a code (R171). -/
theorem Inv.codes_multi (h : Inv s) (hm : s.treeState = .multi)
    (ht : treeCodes s.treeState s.arena s.root.toNat = some t) :
    (∀ p sym, IsLeafPath s.arena s.root.toNat p sym →
      (codeAt t sym.toNat).len.toNat = p.length ∧ (codeAt t sym.toNat).bits.toNat = valOf p ∧
      (codeAt t sym.toNat).bitString = p) ∧
    ∀ x, codeAt t x ≠ noCode → ∃ p sym, IsLeafPath s.arena s.root.toNat p sym ∧ sym.toNat = x := by
  have hn := h.multi_two hm
  obtain ⟨t', ht', -, hpath, hcode⟩ := treeCodes_multi h.tree hn
  rw [hm, h.rootMulti hm] at ht
  obtain rfl : t' = t := Option.some.inj (ht'.symm.trans ht)
  rw [h.rootMulti hm]
  refine ⟨fun p sym hp => ?_, hcode⟩
  obtain ⟨-, hle⟩ := h.tree.leafPath_length hn hp
  rw [hpath p sym hp]
  exact ⟨codeOfPath_len_toNat hle, codeOfPath_bits_toNat hle, bitString_codeOfPath hle⟩

theorem ne_noCode_of_len_pos {code : Code} (h : 0 < code.len.toNat) : code ≠ noCode := by
  rintro rfl; exact absurd h (lt_irrefl 0)

/-! ### The command -/

/-- With a tree and no encoder session, EXTRACT writes the tree's codes and CODES_VALID (R170). -/
theorem Inv.exec_extract (h : Inv s) (ht : s.treeState ≠ .none) (he : s.encActive = false) :
    ∃ t, treeCodes s.treeState s.arena s.root.toNat = some t ∧
      exec .extract s = .next { s with codes := t, codesValid := true } := by
  obtain ⟨t, hc, -⟩ := h.treeCodes_some ht
  exact ⟨t, hc, execExtract_of_treeCodes ht he hc⟩

/-- Settles O31: the two checks in their order; what EXTRACT writes leaves the tree it reads as it was, so a second one
writes the same. -/
theorem extractChecksAndWrites : Obligations.ExtractChecksAndWrites := by
  refine ⟨decode_encode (i := .extract) rfl, fun s hnone => (if_pos hnone).trans rfl, fun s htree he => ?_,
    fun s h htree he => ?_⟩
  · exact ((if_neg htree).trans (if_pos he)).trans rfl
  · obtain ⟨t, hc, hrun⟩ := h.exec_extract htree he
    exact ⟨_, hrun, rfl, execExtract_of_treeCodes (s := { s with codes := t, codesValid := true }) htree he hc⟩

/-- Settles O32: the codes of a one-leaf tree and of an empty one. -/
theorem extractOnDegenerateTrees : Obligations.ExtractOnDegenerateTrees := by
  refine fun s h he => ⟨fun hs => ?_, fun hempty => ?_⟩
  · obtain ⟨t, hc, hrun⟩ := h.exec_extract (by rw [hs]; decide) he
    obtain ⟨sym, w, hleaf, hcode, hother⟩ := h.codes_single hs hc
    exact ⟨_, sym, w, hrun, hleaf, rfl, hcode, hother⟩
  · obtain ⟨t, hc, hrun⟩ := h.exec_extract (by rw [hempty]; decide) he
    exact ⟨_, hrun, rfl, codes_empty hempty hc⟩

/-- Settles O33: each leaf's symbol gets its path, and a symbol with a code is a leaf's. -/
theorem extractAssignsPaths : Obligations.ExtractAssignsPaths := by
  intro s h hm he
  obtain ⟨t, hc, hrun⟩ := h.exec_extract (by rw [hm]; decide) he
  obtain ⟨hpath, hleaf⟩ := h.codes_multi hm hc
  refine ⟨_, hrun, hpath, fun x hx => ?_⟩
  by_contra hcode
  obtain ⟨p, sym, hp, hsym⟩ := hleaf x hcode
  exact hx p sym hp hsym

/-- Settles O34: the symbols with codes are those of BUILD's leaves, which are the present ones. -/
theorem codesCoverPresentSymbols : Obligations.CodesCoverPresentSymbols := by
  intro s he hd
  obtain ⟨t, ht, hrun⟩ := execAll_build_extract he hd
  obtain ⟨hwf, hleaf⟩ := (buildArena_wf s.cfg s.freq).codes_iff_leaf ht
  refine ⟨_, hrun, fun x hx => ⟨fun hpos => ?_, fun hzero => ?_⟩⟩
  · have hcode : codeAt t x ≠ noCode := (hleaf x).mpr (buildArena_leaf_iff.mpr ⟨hx, hpos⟩)
    obtain ⟨-, hlen, hmax, -⟩ := hwf.entries _ (codeAt_mem hcode)
    exact ⟨hlen, hmax⟩
  · by_contra hcode
    obtain ⟨-, hpos⟩ := buildArena_leaf_iff.mp ((hleaf x).mp hcode)
    rw [hzero] at hpos
    exact absurd hpos (lt_irrefl 0)

/-- Settles O36: under a tree of two or more leaves the codes are paths to leaves; under a smaller tree no two symbols have
codes. -/
theorem codesArePrefixFree : Obligations.CodesArePrefixFree := by
  intro s h hv x y hxy hx hy hstart
  obtain ⟨htree, hc⟩ := h.codesCurrent hv
  have hx := ne_noCode_of_len_pos hx
  have hy := ne_noCode_of_len_pos hy
  cases hts : s.treeState with
  | none => exact htree hts
  | empty => exact hx (codes_empty hts hc x)
  | single =>
    obtain ⟨sym, w, -, -, hother⟩ := h.codes_single hts hc
    have hxs : x = sym.toNat := not_imp_comm.mp (hother x) hx
    have hys : y = sym.toNat := not_imp_comm.mp (hother y) hy
    exact hxy (hxs.trans hys.symm)
  | multi =>
    obtain ⟨hpath, hleaf⟩ := h.codes_multi hts hc
    obtain ⟨p, sym, hp, rfl⟩ := hleaf x hx
    obtain ⟨q, sym', hq, rfl⟩ := hleaf y hy
    obtain ⟨-, -, hbits⟩ := hpath p sym hp
    obtain ⟨-, -, hbits'⟩ := hpath q sym' hq
    rw [hbits, hbits'] at hstart
    exact hxy (congrArg BitVec.toNat (hp.sym_eq_of_isPrefix hq hstart))

end Sys2Proof.Machine
end

section
/-! PROOFS. The encoder (R190, R191, R193, R196): the checks of its three commands and what each writes, and the bytes of a
whole session as the bits of the codes in order. -/

namespace Sys2Proof.Machine

variable {s : State} {w : Word} {i : Instr} {x q : Nat} {xs ys : List Byte} {c : Code} {B : BitString}

/-! ### Words and errors -/

/-- The word of a format-I command with a number as its operand (R101, R103). -/
theorem orForm_ofNat (opc : BitVec 8) (hx : x < 256) :
    opc ++ (0 : BitVec 16) ++ BitVec.ofNat 8 x = (opc ++ (0 : BitVec 24)) ||| BitVec.ofNat 32 x := by
  rw [← orForm, setWidth_eq_ofNat, BitVec.toNat_ofNat, Nat.mod_eq_of_lt hx]

theorem encode_encSym (hx : x < 256) : encode (.encSym x) = 0x21000000 ||| BitVec.ofNat 32 x :=
  orForm_ofNat 0x21 hx

/-- A failing command writes the error record alone, with its word (R241). -/
theorem raiseError_eq (code : ErrCode) (s : State) (h : encode i = w) :
    raiseError code i s = .next { s with errCode := code, errInfo := w } := by
  subst h; rfl

/-! ### Emitted bytes -/

/-- Emitting writes OBUF and OUT_PTR alone (R19). -/
theorem emitAll_eq (s : State) (xs : List Byte) :
    emitAll s xs = { s with obuf := (emitAll s xs).obuf, outPtr := (emitAll s xs).outPtr } := by
  induction xs generalizing s with
  | nil => rfl
  | cons x xs ih => exact ih (emit s x)

theorem obufByte_emitAll_inside (h : s.outPtr.toNat + xs.length < 2 ^ 16) (hq : q < xs.length) :
    obufByte (emitAll s xs) (s.outPtr.toNat + q) = xs[q] := by
  rw [obufByte_emitAll h, if_pos (Nat.le_add_right _ _), Nat.add_sub_cancel_left, List.getElem?_eq_getElem hq,
    Option.getD_some]

theorem obufByte_emitAll_outside (h : s.outPtr.toNat + xs.length < 2 ^ 16) {j : Nat}
    (hj : j < s.outPtr.toNat ∨ s.outPtr.toNat + xs.length ≤ j) : obufByte (emitAll s xs) j = obufByte s j := by
  rw [obufByte_emitAll h]
  split
  · rw [List.getElem?_eq_none (by omega), Option.getD_none]
  · rfl

/-- ENC_BYTES holds every count up to CHUNK_MAX (R195). -/
theorem ofNat_31_toNat {n : Nat} (h : n ≤ chunkMax) : (BitVec.ofNat 31 n).toNat = n := by
  rw [BitVec.toNat_ofNat]; exact Nat.mod_eq_of_lt (Nat.lt_succ_of_le h)

/-! ### ENC.START -/

/-- Settles O37: the two checks in their order, and the session opened. -/
theorem encStartOpensASession : Obligations.EncStartOpensASession := by
  refine ⟨decode_encode (i := .encStart) rfl, fun s hc => ?_, fun s hc he => ?_, fun s hc he => ?_⟩
  · exact (if_pos hc).trans rfl
  · exact ((if_neg (by simp [hc])).trans (if_pos he)).trans rfl
  · exact (if_neg (by simp [hc])).trans (if_neg (by simp [he]))

/-! ### ENC.SYM -/

/-- Within a session and for a symbol with a code, the two limits are left to check (R193). -/
theorem exec_encSym_of_code (he : s.encActive = true) (hx : x < s.cfg.alphaSize) (hl : (codeAt s.codes x).len.toNat ≠ 0) :
    exec (.encSym x) s =
      if s.cfg.obufBytes < s.outPtr.toNat + encTotal s (codeAt s.codes x) / 8 then raiseError .obufFull (.encSym x) s
      else if chunkMax < s.encBytes.toNat + encTotal s (codeAt s.codes x) / 8 then raiseError .chunkTooLong (.encSym x) s
      else .next (s.appendCode (codeAt s.codes x)) := by
  have hcode : ¬ (s.cfg.alphaSize ≤ x ∨ (codeAt s.codes x).len = 0) := by
    rintro (h | h)
    · omega
    · exact hl (by rw [h]; rfl)
  exact (if_neg (by simp [he])).trans (if_neg hcode)

theorem appendCode_eq (s : State) (c : Code) : s.appendCode c =
    { s with obuf := (s.appendCode c).obuf, outPtr := (s.appendCode c).outPtr, encBytes := (s.appendCode c).encBytes,
             encNbits := (s.appendCode c).encNbits, encAcc := (s.appendCode c).encAcc } := by
  conv_lhs => rw [State.appendCode, emitAll_eq]
  rfl

/-- Byte q of the completed ones is the q-th eight bits of X from the top (R193). -/
theorem completedBytes_toNat {v t : Nat} (hq : q < (completedBytes v t).length) :
    ((completedBytes v t)[q]).toNat = v / 2 ^ (t - 8 * (q + 1)) % 2 ^ 8 := by
  simp only [completedBytes, List.getElem_map, List.getElem_range, BitVec.toNat_ofNat, Nat.shiftRight_eq_div_pow]

theorem obufByte_appendCode (s : State) (c : Code) (k : Nat) :
    obufByte (s.appendCode c) k = obufByte (emitAll s (completedBytes (encValue s c) (encTotal s c))) k :=
  obufByte_congr rfl rfl k

section
variable (h : s.outPtr.toNat + encTotal s c / 8 < 2 ^ 16)
include h

theorem appendCode_outPtr_toNat : (s.appendCode c).outPtr.toNat = s.outPtr.toNat + encTotal s c / 8 := by
  rw [← length_completedBytes (encValue s c)] at h ⊢
  exact emitAll_outPtr h

/-- The completed bytes of X stand at OUT_PTR upwards (R193). -/
theorem obufByte_appendCode_inside (hq : q < encTotal s c / 8) :
    (obufByte (s.appendCode c) (s.outPtr.toNat + q)).toNat
      = encValue s c / 2 ^ (encTotal s c - 8 * (q + 1)) % 2 ^ 8 := by
  rw [← length_completedBytes (encValue s c)] at h hq
  rw [obufByte_appendCode, obufByte_emitAll_inside h hq, completedBytes_toNat]

theorem obufByte_appendCode_outside {j : Nat} (hj : j < s.outPtr.toNat ∨ s.outPtr.toNat + encTotal s c / 8 ≤ j) :
    obufByte (s.appendCode c) j = obufByte s j := by
  rw [← length_completedBytes (encValue s c)] at h hj
  rw [obufByte_appendCode, obufByte_emitAll_outside h hj]

end

/-- Settles O38: each check fails behind the ones before it; the bytes emitted are `completedBytes`, and the counters and
the accumulator lose nothing in their registers. -/
theorem encSymAppendsTheCode : Obligations.EncSymAppendsTheCode := by
  rintro s x _ _ _ _ _ hx rfl rfl rfl rfl rfl
  have hfail := fun code => raiseError_eq code s (encode_encSym hx)
  refine ⟨?_, fun he => ?_, fun he habs => ?_, fun he ha hl hfull => ?_, fun he ha hl hroom hlong => ?_,
    fun he ha hl hroom hshort => ?_⟩
  · rw [← encode_encSym hx]
    exact decode_encode (decide_eq_true hx)
  · exact (if_pos he).trans (hfail _)
  · have hcode : s.cfg.alphaSize ≤ x ∨ (codeAt s.codes x).len = 0 := habs.imp_right fun h => BitVec.eq_of_toNat_eq h
    exact ((if_neg (by simp [he])).trans (if_pos hcode)).trans (hfail _)
  · exact ((exec_encSym_of_code he ha hl).trans (if_pos hfull)).trans (hfail _)
  · exact ((exec_encSym_of_code he ha hl).trans ((if_neg hroom.not_gt).trans (if_pos hlong))).trans (hfail _)
  · have hb := obufBytes_le s.cfg
    obtain ⟨hnbits, hacc⟩ := narrow_accumulator (encValue s (codeAt s.codes x)) (encTotal s (codeAt s.codes x))
    have hfits : s.outPtr.toNat + encTotal s (codeAt s.codes x) / 8 < 2 ^ 16 := by rw [encTotal]; omega
    exact ⟨_, (exec_encSym_of_code he ha hl).trans ((if_neg hroom.not_gt).trans (if_neg hshort.not_gt)),
      appendCode_eq _ _, fun q => obufByte_appendCode_inside hfits, fun j => obufByte_appendCode_outside hfits,
      appendCode_outPtr_toNat hfits, ofNat_31_toNat hshort, hnbits, hacc⟩

/-! ### ENC.FLUSH -/

/-- Within a session and with bits pending, the two limits are left to check (R196). -/
theorem exec_encFlush_of_pending (he : s.encActive = true) (hn : s.encNbits ≠ 0) :
    exec .encFlush s =
      if s.cfg.obufBytes < s.outPtr.toNat + 1 then raiseError .obufFull .encFlush s
      else if chunkMax < s.encBytes.toNat + 1 then raiseError .chunkTooLong .encFlush s
      else .next { emit s (paddedByte s) with
        encBytes := BitVec.ofNat 31 (s.encBytes.toNat + 1)
        encPad := BitVec.ofNat 3 (8 - s.encNbits.toNat) }.closeEncoder :=
  (if_neg (by simp [he])).trans (if_neg hn)

theorem paddedByte_toNat (s : State) :
    (paddedByte s).toNat = s.encAcc.toNat * 2 ^ (8 - s.encNbits.toNat) % 2 ^ 8 := by
  rw [paddedByte, BitVec.toNat_ofNat, Nat.shiftLeft_eq]

/-- With a bit pending the padding count fits ENC_PAD (R196). -/
theorem padding_toNat (hn : s.encNbits ≠ 0) : (BitVec.ofNat 3 (8 - s.encNbits.toNat)).toNat = 8 - s.encNbits.toNat := by
  have hpos : s.encNbits.toNat ≠ 0 := BitVec.toNat_ne.mp hn
  rw [BitVec.toNat_ofNat]
  exact Nat.mod_eq_of_lt (by omega)

/-- Settles O39: each check fails behind the ones before it; the one byte emitted is `paddedByte`. -/
theorem encFlushClosesTheSession : Obligations.EncFlushClosesTheSession := by
  refine ⟨decode_encode (i := .encFlush) rfl, fun s => ⟨fun he => ?_, fun he hn => ?_, fun he hn hfull => ?_,
    fun he hn hroom hlong => ?_, fun he hn hroom hshort => ?_⟩⟩
  · exact (if_pos he).trans rfl
  · exact (if_neg (by simp [he])).trans (if_pos hn)
  · exact ((exec_encFlush_of_pending he hn).trans (if_pos hfull)).trans rfl
  · exact ((exec_encFlush_of_pending he hn).trans ((if_neg hroom.not_gt).trans (if_pos hlong))).trans rfl
  · have hb := obufBytes_le s.cfg
    refine ⟨_, (exec_encFlush_of_pending he hn).trans ((if_neg hroom.not_gt).trans (if_neg hshort.not_gt)), rfl, ?_,
      fun j hj => ?_, ?_, ofNat_31_toNat hshort, padding_toNat hn⟩
    · exact (congrArg BitVec.toNat ((obufByte_emit s _ _).trans (if_pos rfl))).trans (paddedByte_toNat s)
    · exact (obufByte_emit s _ _).trans (if_neg hj)
    · exact emitAll_outPtr (xs := [paddedByte s]) (by rw [List.length_singleton]; omega)

/-! ### A whole session -/

/-- Bits 8q to 8q + 7 of a byte sequence are those of byte q (R77). -/
theorem streamBits_getElem? {k : Nat} (hq : q < ys.length) (hk : k < 8) :
    (streamBits ys)[8 * q + k]? = (byteBits ys[q])[k]? := by
  induction ys generalizing q with
  | nil => exact absurd hq (Nat.not_lt_zero q)
  | cons y ys ih =>
    rw [streamBits_cons]
    cases q with
    | zero => rw [Nat.mul_zero, Nat.zero_add, List.getElem?_append_left (by rw [length_byteBits]; exact hk)]; rfl
    | succ q =>
      rw [List.getElem?_append_right (by rw [length_byteBits]; omega), length_byteBits,
        show 8 * (q + 1) + k - 8 = 8 * q + k by omega]
      exact ih (Nat.lt_of_succ_lt_succ hq)

/-- Zero bits after a string are the bits read beyond its end. -/
theorem getD_append_replicate (B : BitString) (pad k : Nat) :
    ((B ++ List.replicate pad false)[k]?).getD false = (B[k]?).getD false := by
  rw [List.getElem?_append]
  split
  · rfl
  · rw [List.getElem?_eq_none (l := B) (by omega), List.getElem?_replicate]
    split <;> rfl

/-- Where a byte sequence is the string B and then zero bits, byte q is bits 8q to 8q + 7 of B, with 0 beyond its end
(R191). -/
theorem toNat_eq_valOf_of_streamBits {pad : Nat} (h : streamBits ys = B ++ List.replicate pad false) (hq : q < ys.length) :
    ys[q].toNat = valOf ((List.range 8).map fun k => (B[8 * q + k]?).getD false) := by
  rw [← valOf_byteBits]
  congr 1
  refine List.ext_getElem (by simp) fun k hk _ => ?_
  rw [List.getElem_map, List.getElem_range, ← getD_append_replicate B pad, ← h,
    streamBits_getElem? hq (by simpa using hk), List.getElem?_eq_getElem hk, Option.getD_some]

/-- Settles O40: the bytes of `execAll_session` are as long and as many as the contract says. -/
theorem encodingSessionPacksTheCodes : Obligations.EncodingSessionPacksTheCodes := by
  rintro s syms B T N hv he hsyms rfl rfl rfl hroom
  have hb := obufBytes_le s.cfg
  have hshort : ((codeBitsOf s.codes syms).length + 7) / 8 ≤ chunkMax := by unfold chunkMax; omega
  obtain ⟨ys, hrun, hbits⟩ := execAll_session hv he hsyms hroom hshort
  have hlen : ys.length = ((codeBitsOf s.codes syms).length + 7) / 8 := by
    have hl := congrArg List.length hbits
    rw [length_streamBits, List.length_append, List.length_replicate] at hl
    omega
  rw [← hlen] at hroom hshort ⊢
  have hfits : s.outPtr.toNat + ys.length < 2 ^ 16 := by omega
  refine ⟨_, hrun, ?_, fun q hq => ?_, fun j hj => ?_, emitAll_outPtr hfits, ofNat_31_toNat hshort, ?_⟩
  · simp
  · rw [← toNat_eq_valOf_of_streamBits hbits hq, ← obufByte_emitAll_inside hfits hq]
    rfl
  · exact obufByte_emitAll_outside hfits hj
  · rw [BitVec.toNat_ofNat]
    exact Nat.mod_eq_of_lt (Nat.mod_lt _ (by norm_num))

end Sys2Proof.Machine
end

section
/-! PROOFS. The decoder (R211 to R218): the checks of DEC.START and DEC.BYTE and what each writes, that DEC.BYTE depends on
the useful bits alone, and that decoding a session's bytes gives back its symbols. -/

namespace Sys2Proof.Machine

variable {s u : State} {b : Byte} {p cur : Nat} {out xs ys : List Byte}

/-! ### Words -/

theorem encode_decStart (hp : p < 256) : encode (.decStart p) = 0x30000000 ||| BitVec.ofNat 32 p :=
  orForm_ofNat 0x30 hp

theorem encode_decByte (b : Byte) : encode (.decByte b) = 0x31000000 ||| b.setWidth 32 :=
  (orForm 0x31 b).symm

/-! ### DEC.START -/

/-- With a tree, no session and a length below 2^31, the padding and the empty tree are left to check (R211). -/
theorem exec_decStart_of_length (ht : s.treeState ≠ .none) (hd : s.decActive = false) (ha : s.arg.toNat < 2 ^ 31) :
    exec (.decStart p) s =
      if 7 < p ∨ (s.arg = 0 ∧ p ≠ 0) then raiseError .badPadding (.decStart p) s
      else if 0 < chunkBits s p ∧ s.treeState = .empty then raiseError .treeEmpty (.decStart p) s
      else .next (s.openDecoder (chunkBits s p)) :=
  (if_neg ht).trans ((if_neg (by simp [hd])).trans (if_neg (mt (getLsbD_31 s.arg).mp ha.not_ge)))

/-- With the padding in order too, the empty tree is left to check (R211). -/
theorem exec_decStart_of_padding (ht : s.treeState ≠ .none) (hd : s.decActive = false) (ha : s.arg.toNat < 2 ^ 31)
    (hp : p ≤ 7) (h0 : s.arg = 0 → p = 0) :
    exec (.decStart p) s =
      if 0 < chunkBits s p ∧ s.treeState = .empty then raiseError .treeEmpty (.decStart p) s
      else .next (s.openDecoder (chunkBits s p)) := by
  refine (exec_decStart_of_length ht hd ha).trans (if_neg ?_)
  rintro (h | ⟨h, hne⟩)
  · omega
  · exact hne (h0 h)

/-- DEC.START where every check passes (R211). -/
theorem exec_decStart_opens (ht : s.treeState ≠ .none) (hd : s.decActive = false) (ha : s.arg.toNat < 2 ^ 31)
    (hp : p ≤ 7) (h0 : s.arg = 0 → p = 0) (he : s.treeState = .empty → s.arg = 0) :
    exec (.decStart p) s = .next (s.openDecoder (chunkBits s p)) := by
  refine (exec_decStart_of_padding ht hd ha hp h0).trans (if_neg ?_)
  rintro ⟨hpos, h⟩
  rw [chunkBits, usefulBits, he h] at hpos
  simp at hpos

/-- DEC_REM holds every chunk's count of useful bits (R57). -/
theorem ofNat_34_toNat {n : Nat} (h : n < 2 ^ 34) : (BitVec.ofNat 34 n).toNat = n :=
  (BitVec.toNat_ofNat n 34).trans (Nat.mod_eq_of_lt h)

/-- Settles O41: each check fails behind the ones before it, and the session opened reads ARG·8 − p bits from ROOT. -/
theorem decStartOpensASession : Obligations.DecStartOpensASession := by
  intro s p hp
  have hfail := fun code => raiseError_eq code s (encode_decStart hp)
  refine ⟨?_, fun ht => ?_, fun ht hd => ?_, fun ht hd ha => ?_, fun ht hd ha hpad => ?_, fun ht hd ha hpad h0 => ?_,
    fun ht hd ha hpad h0 he => ?_⟩
  · rw [← encode_decStart hp]
    exact decode_encode (decide_eq_true hp)
  · exact (if_pos ht).trans (hfail _)
  · exact ((if_neg ht).trans (if_pos hd)).trans (hfail _)
  · exact ((if_neg ht).trans ((if_neg (by simp [hd])).trans (if_pos ((getLsbD_31 s.arg).mpr ha)))).trans (hfail _)
  · exact ((exec_decStart_of_length ht hd ha).trans (if_pos hpad)).trans (hfail _)
  · have hpos : s.arg.toNat ≠ 0 := BitVec.toNat_ne.mp h0
    have hbits : 0 < chunkBits s p := by unfold chunkBits usefulBits; omega
    exact ((exec_decStart_of_padding (by simp [ht]) hd ha hpad (absurd · h0)).trans
      (if_pos ⟨hbits, ht⟩)).trans (hfail _)
  · exact ⟨_, exec_decStart_opens ht hd ha hpad h0 he, rfl, ofNat_34_toNat (by unfold chunkBits usefulBits; omega), rfl,
      decide_eq_true rfl⟩

/-! ### The bit loop -/

theorem usefulNow_le (s : State) : usefulNow s ≤ 8 := min_le_left _ _

/-- The useful bits of a byte, the first one from bit 7 (R213). -/
theorem readBits_eq (s : State) (b : Byte) :
    readBits s b = (List.range (usefulNow s)).map fun i => b.getLsbD (7 - i) := by
  rw [readBits, byteBits, bitsOf, ← List.map_take, List.take_range, min_eq_left (usefulNow_le s)]
  rfl

/-- The cursor stays below a bound on the arena, the root and where it starts. -/
theorem parseFrom_cursor_lt {ts : TreeState} {arena : List Node} {root n c : Nat} {bits : BitString} {o o' : List Byte}
    (ha : arena.length ≤ n) (hr : root < n) (hc : cur < n)
    (h : parseFrom ts arena root bits cur o = .done c o') : c < n := by
  unfold parseFrom at h
  split at h
  · induction bits generalizing o with
    | nil => cases h; exact hc
    | cons bit bits ih =>
      rw [parseSingle] at h
      split at h
      · cases h
      · split at h
        · exact ih h
        · cases h
        · cases h
  · induction bits generalizing cur o with
    | nil => cases h; exact hc
    | cons bit bits ih =>
      rw [parseMulti] at h
      split at h
      · cases h
      · split at h
        · exact ih hr h
        · next hk => exact ih ((List.getElem?_eq_some_iff.mp hk).1.trans_le ha) h
        · cases h

theorem decLoop_readBits (s : State) (b : Byte) :
    SameParse (decLoop s b (usefulNow s)) (parseBits s (readBits s b)) :=
  decLoop_parse s b (usefulNow_le s)

/-- Where the loop as R213 writes it ends, the parse of the useful bits ends alike. -/
theorem parse_of_decLoop (h : decLoop s b (usefulNow s) = some (cur, out)) :
    parseBits s (readBits s b) = .done cur out := by
  have hsame := decLoop_readBits s b
  rw [h] at hsame
  exact hsame

/-- Within a session the loop has no end only at a 1 bit under a single-symbol tree (R214, R216). -/
theorem Inv.badBit_of_decLoop (hi : Inv s) (hd : s.decActive = true) (h : decLoop s b (usefulNow s) = none) :
    s.treeState = .single ∧ parseBits s (readBits s b) = .badBit := by
  have hsame := decLoop_readBits s b
  rw [h] at hsame
  obtain hbad | ⟨c, o, hdone, -⟩ := hi.parse hd (readBits s b)
  · exact hbad
  · rw [hdone] at hsame
    rcases hsame with hp | hp <;> cases hp

/-- Under a single-symbol tree every 0 bit gives the sole symbol, and a 1 bit ends the loop (R214). -/
theorem Inv.parse_single (hi : Inv s) (hs : s.treeState = .single) : ∃ sym w, s.arena[(0 : Nat)]? = some (.leaf sym w) ∧
    ∀ bits, parseBits s bits = if true ∈ bits then .badBit else .done s.root.toNat (List.replicate bits.length sym) := by
  have htree := hi.tree
  rw [hi.single_one hs] at htree
  obtain ⟨sym, w, -, harena, -⟩ := treeCodes_single htree
  obtain ⟨hcursor, hroot⟩ := hi.cursorOther (by rw [hs]; decide)
  refine ⟨sym, w, by rw [harena]; rfl, fun bits => ?_⟩
  rw [parseBits_eq, parseFrom, if_pos hs, harena, parseSingle_done, hcursor, hroot, List.nil_append]

/-! ### DEC.BYTE -/

theorem exec_decByte_of_badBit (hd : s.decActive = true) (hp : parseBits s (readBits s b) = .badBit) :
    exec (.decByte b) s = raiseError .decBadBit (.decByte b) s :=
  (if_neg (by simp [hd])).trans (by rw [hp])

/-- Where the loop ends, the end of the chunk and the room in OBUF are left to check (R213). -/
theorem exec_decByte_of_done (hd : s.decActive = true) (hp : parseBits s (readBits s b) = .done cur out) :
    exec (.decByte b) s =
      if s.decRem.toNat - usefulNow s = 0 ∧ cur ≠ s.root.toNat then raiseError .decIncomplete (.decByte b) s
      else if s.cfg.obufBytes < s.outPtr.toNat + out.length then raiseError .obufFull (.decByte b) s
      else .next (s.takeByte cur out) :=
  (if_neg (by simp [hd])).trans (by rw [hp])

theorem takeByte_eq (s : State) (cur : Nat) (out : List Byte) : s.takeByte cur out =
    { s with obuf := (s.takeByte cur out).obuf, outPtr := (s.takeByte cur out).outPtr,
             decCursor := (s.takeByte cur out).decCursor, decRem := (s.takeByte cur out).decRem,
             decActive := (s.takeByte cur out).decActive } := by
  conv_lhs => rw [State.takeByte, emitAll_eq]
  rfl

theorem obufByte_takeByte (s : State) (cur : Nat) (out : List Byte) (k : Nat) :
    obufByte (s.takeByte cur out) k = obufByte (emitAll s out) k :=
  obufByte_congr rfl (by simp) k

/-- DEC_REM after a byte loses nothing in its register. -/
theorem takeByte_decRem_toNat (s : State) (cur : Nat) (out : List Byte) :
    (s.takeByte cur out).decRem.toNat = s.decRem.toNat - usefulNow s :=
  ofNat_34_toNat ((Nat.sub_le _ _).trans_lt s.decRem.isLt)

/-- In a state that meets the invariant the loop's cursor fits DEC_CURSOR (R58). -/
theorem Inv.takeByte_decCursor_toNat (hi : Inv s) (hp : parseBits s (readBits s b) = .done cur out) :
    (s.takeByte cur out).decCursor.toNat = cur := by
  rw [parseBits_eq] at hp
  exact (BitVec.toNat_ofNat cur 9).trans
    (Nat.mod_eq_of_lt (parseFrom_cursor_lt hi.arena_lt.le s.root.isLt s.decCursor.isLt hp))

/-- Emitted bytes that OBUF has room for do not wrap OUT_PTR (R11). -/
theorem outPtr_room {n : Nat} (h : s.outPtr.toNat + n ≤ s.cfg.obufBytes) : s.outPtr.toNat + n < 2 ^ 16 := by
  have hb := obufBytes_le s.cfg
  omega

/-- Settles O42: the loop as the rule writes it is the parse of the useful bits (`decLoop_parse`), and each check fails
behind the ones before it. -/
theorem decByteReadsTheUsefulBits : Obligations.DecByteReadsTheUsefulBits := by
  rintro s b _ hi rfl
  have hfail := fun code => raiseError_eq code s (encode_decByte b)
  refine ⟨?_, fun hd => ?_, fun hd hl => ?_, fun c out hd hl => ?_⟩
  · rw [← encode_decByte]
    exact decode_encode rfl
  · exact (if_pos hd).trans (hfail _)
  · obtain ⟨hs, hp⟩ := hi.badBit_of_decLoop hd hl
    exact ⟨hs, (exec_decByte_of_badBit hd hp).trans (hfail _)⟩
  · have hp := parse_of_decLoop hl
    have hrun := exec_decByte_of_done hd hp
    refine ⟨fun h0 hc => ?_, fun hend hfull => ?_, fun hend hroom => ?_⟩
    · exact (hrun.trans (if_pos ⟨h0, hc⟩)).trans (hfail _)
    · exact (hrun.trans ((if_neg fun h => h.2 (hend h.1)).trans (if_pos hfull))).trans (hfail _)
    · have hfits := outPtr_room hroom
      refine ⟨_, execDecByte_done hd hp hend hroom, takeByte_eq _ _ _, fun q hq => ?_, fun j hj => ?_,
        emitAll_outPtr hfits, hi.takeByte_decCursor_toNat hp, takeByte_decRem_toNat _ _ _, rfl⟩
      · rw [obufByte_takeByte, obufByte_emitAll_inside hfits hq, List.getElem?_eq_getElem hq]
      · rw [obufByte_takeByte, obufByte_emitAll_outside hfits hj]

/-- Settles O43: the useful bits of the byte under `Inv.parse_single`. -/
theorem decoderReadsSingleSymbolTrees : Obligations.DecoderReadsSingleSymbolTrees := by
  rintro s b _ hi hs hd rfl
  obtain ⟨sym, w, hleaf, hparse⟩ := hi.parse_single hs
  have hbits : true ∈ readBits s b ↔ ∃ i, i < usefulNow s ∧ b.getLsbD (7 - i) = true := by
    simp [readBits_eq]
  refine ⟨fun hone => ?_, fun hzero hroom => ?_⟩
  · have hp : parseBits s (readBits s b) = .badBit := (hparse _).trans (if_pos (hbits.mpr hone))
    exact (exec_decByte_of_badBit hd hp).trans (raiseError_eq _ s (encode_decByte b))
  · have hnone : true ∉ readBits s b := fun h => by
      obtain ⟨i, hlt, hone⟩ := hbits.mp h
      rw [hzero i hlt] at hone
      cases hone
    have hp := (hparse (readBits s b)).trans (if_neg hnone)
    have hlen : (List.replicate (readBits s b).length sym).length = usefulNow s := by simp [readBits_eq]
    rw [show min 8 s.decRem.toNat = usefulNow s from rfl, ← hlen] at hroom ⊢
    have hfits := outPtr_room hroom
    refine ⟨_, sym, w, execDecByte_done hd hp (fun _ => rfl) hroom, hleaf, emitAll_outPtr hfits, ?_, fun q hq => ?_⟩
    · rw [takeByte_decRem_toNat, hlen]
    · rw [obufByte_takeByte, obufByte_emitAll_inside hfits hq, List.getElem_replicate]

/-! ### Padding -/

/-- Settles O44: both bytes have the same useful bits, so the same check fails or the same state follows; only a failure
shows the byte, in ERRINFO. -/
theorem paddingBitsAreIgnored : Obligations.PaddingBitsAreIgnored := by
  intro s b b' hi hagree
  have hbits : readBits s b' = readBits s b := by
    rw [readBits_eq, readBits_eq]
    exact List.map_congr_left fun i hlt => (hagree i (List.mem_range.mp hlt)).symm
  cases hd : s.decActive with
  | false => exact ⟨_, _, if_pos hd, if_pos hd, rfl⟩
  | true =>
    obtain ⟨-, hp⟩ | ⟨cur, out, hp, -⟩ := hi.parse hd (readBits s b)
    · exact ⟨_, _, exec_decByte_of_badBit hd hp, exec_decByte_of_badBit hd (hbits ▸ hp), rfl⟩
    · rw [exec_decByte_of_done hd hp, exec_decByte_of_done hd (hbits ▸ hp)]
      split
      · exact ⟨_, _, rfl, rfl, rfl⟩
      · split <;> exact ⟨_, _, rfl, rfl, rfl⟩

/-! ### A whole session -/

/-- The bytes just emitted, read back from OBUF. -/
theorem map_obufByte_emitAll (h : s.outPtr.toNat + xs.length < 2 ^ 16) :
    (List.range xs.length).map (fun q => obufByte (emitAll s xs) (s.outPtr.toNat + q)) = xs := by
  refine List.ext_getElem (by simp) fun q hq hlt => ?_
  rw [List.getElem_map, List.getElem_range, obufByte_emitAll_inside h hlt]

/-- A just opened session has emitted nothing and stands at the root (R211). -/
theorem openDecoder_eq_decoding (s : State) (bits : Nat) : s.openDecoder bits = s.decoding [] s.root.toNat bits := by
  rw [State.decoding, BitVec.ofNat_toNat, BitVec.setWidth_eq]
  rfl

theorem decoding_eq (s : State) (out : List Byte) (cur rem : Nat) : s.decoding out cur rem =
    { s with obuf := (s.decoding out cur rem).obuf, outPtr := (s.decoding out cur rem).outPtr,
             decCursor := BitVec.ofNat 9 cur, decRem := BitVec.ofNat 34 rem, decActive := decide (0 < rem) } := by
  conv_lhs => rw [State.decoding, emitAll_eq]
  rfl

theorem obufByte_decoding (s : State) (out : List Byte) (cur rem k : Nat) :
    obufByte (s.decoding out cur rem) k = obufByte (emitAll s out) k :=
  obufByte_congr rfl (by simp [State.decoding]) k

/-- Under an empty tree no symbol has a code (R172). -/
theorem Inv.nil_of_empty (hi : Inv s) (hv : s.codesValid = true) (he : s.treeState = .empty) {syms : List Nat}
    (hs : ∀ x ∈ syms, HasCode s x) : syms = [] := by
  obtain ⟨-, hc⟩ := hi.codesCurrent hv
  refine List.eq_nil_iff_forall_not_mem.mpr fun x hx => ?_
  obtain ⟨-, hlen, -⟩ := hs x hx
  exact hlen (by rw [codes_empty he hc x]; rfl)

/-- Bytes that hold the codes of `syms` and then fewer than 8 padding bits decode to `syms`, on any state with the same
tree, no session and room in OBUF (R218). -/
theorem Inv.execAll_decode (hi : Inv s) (hv : s.codesValid = true) {syms : List Nat} (hs : ∀ x ∈ syms, HasCode s x)
    {pad : Nat} (hpad : pad < 8) (h0 : codeBitsOf s.codes syms = [] → pad = 0)
    (hbits : streamBits ys = codeBitsOf s.codes syms ++ List.replicate pad false)
    (htree : u.treeState = s.treeState) (harena : u.arena = s.arena) (hroot : u.root = s.root)
    (hd : u.decActive = false) (harg : u.arg.toNat = ys.length) (hshort : ys.length ≤ 32768)
    (hroom : u.outPtr.toNat + syms.length ≤ u.cfg.obufBytes) :
    execAll (.decStart pad :: ys.map .decByte) u = .next (u.decoding (syms.map (BitVec.ofNat 8)) u.root.toNat 0) := by
  obtain ⟨ht, -⟩ := hi.codesCurrent hv
  have hlen := congrArg List.length hbits
  rw [length_streamBits, List.length_append, List.length_replicate] at hlen
  have hnil : codeBitsOf s.codes syms = [] → ys.length = 0 := fun h => by
    rw [h, h0 h, List.length_nil] at hlen
    omega
  have hopen : exec (.decStart pad) u = .next (u.openDecoder (chunkBits u pad)) := by
    refine exec_decStart_opens (htree ▸ ht) hd (by omega) (by omega) (fun ha => ?_) fun he => ?_
    · have hz : ys.length = 0 := by rw [← harg, ha]; rfl
      omega
    · obtain rfl := hi.nil_of_empty hv (htree ▸ he) hs
      exact BitVec.eq_of_toNat_eq (harg.trans (hnil rfl))
  have hrem : chunkBits u pad = (codeBitsOf s.codes syms).length := by unfold chunkBits usefulBits; omega
  have hparse : parseFrom u.treeState u.arena u.root.toNat ((streamBits ys).take (codeBitsOf s.codes syms).length)
      u.root.toNat [] = .done u.root.toNat (syms.map (BitVec.ofNat 8)) := by
    rw [hbits, List.take_left, htree, harena, hroot]
    exact hi.parse_codes hv hs []
  rw [execAll, hopen, hrem, openDecoder_eq_decoding]
  have hcursor : u.arena.length ≤ 512 := harena ▸ hi.arena_lt.le
  exact execAll_decBytes u ys [] _ _ _ (fun _ _ _ _ h => parseFrom_cursor_lt hcursor u.root.isLt u.root.isLt h)
    u.root.isLt (by omega) (by omega) (by omega) hparse (by rw [List.length_map]; exact hroom)

/-- Settles O45: the bytes that `execAll_session` emits decode as `Inv.execAll_decode` says. -/
theorem decodingInvertsEncoding : Obligations.DecodingInvertsEncoding := by
  intro s t u syms ys hi he hv hs hroom hrun hys htree harena hroot hd harg hfit
  have hb := obufBytes_le s.cfg
  obtain ⟨zs, hsession, hbits⟩ := execAll_session hv he hs hroom (by unfold chunkMax; omega)
  cases hrun.symm.trans hsession
  have hlen := congrArg List.length hbits
  rw [length_streamBits, List.length_append, List.length_replicate] at hlen
  have hcount : (BitVec.ofNat 31 zs.length).toNat = zs.length := ofNat_31_toNat (by unfold chunkMax; omega)
  have hpad : (BitVec.ofNat 3 ((8 - (codeBitsOf s.codes syms).length % 8) % 8)).toNat
      = (8 - (codeBitsOf s.codes syms).length % 8) % 8 :=
    (BitVec.toNat_ofNat _ 3).trans (Nat.mod_eq_of_lt (Nat.mod_lt _ (by norm_num)))
  obtain rfl : ys = zs := by
    rw [hys, hcount]
    exact map_obufByte_emitAll (by omega)
  have hdecode := hi.execAll_decode hv hs (Nat.mod_lt _ (by norm_num)) (fun h => by rw [h]; rfl) hbits htree harena hroot
    hd (by rw [harg, hcount]; exact Nat.mod_eq_of_lt (by omega)) (by omega) hfit
  rw [← List.length_map (BitVec.ofNat 8)] at hfit ⊢
  have hfits := outPtr_room hfit
  refine ⟨u.decoding (syms.map (BitVec.ofNat 8)) u.root.toNat 0, by rw [hpad]; exact hdecode, ?_,
    emitAll_outPtr hfits, fun q x hx => ?_, fun j hj => ?_⟩
  · rw [decoding_eq, BitVec.ofNat_toNat, BitVec.setWidth_eq]
    rfl
  · obtain ⟨hq, rfl⟩ := List.getElem?_eq_some_iff.mp hx
    obtain ⟨hx, -⟩ := hs _ (List.getElem_mem hq)
    rw [obufByte_decoding, obufByte_emitAll_inside hfits (by simpa using hq), List.getElem_map, symbol_toNat hx]
  · rw [obufByte_decoding, obufByte_emitAll_outside hfits hj]

end Sys2Proof.Machine
end

section
/-! PROOFS. Errors (R240 to R249): the gate on every word written to CMD, which errors a command can record and that a
failing one writes the record alone, and what an access can do while an error is recorded. -/

namespace Sys2Proof.Machine

variable {s t : State} {i : Instr} {w : Word} {why : IllegalReason} {a : Access}

/-! ### What a command does to the error record -/

/-- A command either fails with one of its errors, writing the record alone, or leaves ERRCODE as it was, or empties it
(R131, R132, R241). -/
theorem Effect.errCode_cases (h : Effect s i t) :
    (∃ c ∈ errorsOf i, t = s.recordError c (encode i)) ∨ t.errCode = s.errCode ∨ t.errCode = .none := by
  cases h with
  | error i c hc => exact .inl ⟨c, hc, rfl⟩
  | clrerr | sreset => exact .inr (.inr rfl)
  | encSym x => exact .inr (.inl (appendCode_errCode s _))
  | decByte b cursor out => exact .inr (.inl (takeByte_errCode s cursor out))
  | _ => exact .inr (.inl rfl)

/-- An error that a command leaves in an empty record is one of its own, and all it wrote (R241, R246). -/
theorem exec_raised (h : exec i s = .next t) (hs : s.errCode = .none) (ht : t.errCode ≠ .none) :
    ∃ c ∈ errorsOf i, t = s.recordError c (encode i) := by
  rcases (exec_effect h).errCode_cases with hraised | hkept | hcleared
  · exact hraised
  · exact absurd (hkept.trans hs) ht
  · exact absurd hcleared ht

/-- Settles O47, by `exec_raised`. -/
theorem commandsRaiseOnlyTheirErrors : Obligations.CommandsRaiseOnlyTheirErrors := by
  intro i s t h hs ht
  obtain ⟨c, hc, rfl⟩ := exec_raised h hs ht
  exact hc

/-! ### The gate -/

theorem passesClosedGate_eq_false_iff : passesClosedGate i = false ↔ i ≠ .nop ∧ i ≠ .clrerr ∧ i ≠ .sreset := by
  cases i <;> simp [passesClosedGate]

/-- The open gate records an ILLEGAL word (R240). -/
theorem runCommand_illegal_recorded (hd : decode w = .illegal why) (hs : s.errCode = .none) :
    runCommand w s = .next (s.recordError .illegalCmd w) := by
  rw [runCommand_illegal hd, if_neg fun herr => (err_eq_true s).mp herr hs]

/-- The closed gate drops an ILLEGAL word (R240). -/
theorem runCommand_illegal_dropped (hd : decode w = .illegal why) (hs : s.errCode ≠ .none) :
    runCommand w s = .next s := by
  rw [runCommand_illegal hd, if_pos ((err_eq_true s).mpr hs)]

/-- Settles O7: the gate by kind of word and by ERR, and the write to CMD by `performAccess_writeCmd`. -/
theorem commandGate : Obligations.CommandGate := fun s w =>
  ⟨fun _ hd hs => runCommand_passed hd (.inl hs),
    fun _ hd hi => runCommand_passed hd (.inr hi),
    fun _ hd hs hnop hclr hsr => runCommand_dropped hd (passesClosedGate_eq_false_iff.mpr ⟨hnop, hclr, hsr⟩) hs,
    fun _ hd hs => runCommand_illegal_recorded hd hs,
    fun _ hd hs => runCommand_illegal_dropped hd hs,
    performAccess_writeCmd s w⟩

/-- While an error is recorded only the words of CLRERR and SRESET have an effect: NOP runs without one, and the gate
drops every other word (R240). -/
theorem runCommand_of_errCode (hs : s.errCode ≠ .none) (hclr : w ≠ 0x01000000) (hsr : w ≠ 0x02000000) :
    runCommand w s = .next s := by
  cases hd : decode w with
  | illegal why => exact runCommand_illegal_dropped hd hs
  | command i =>
    have hw := encode_of_decode hd
    cases hi : passesClosedGate i with
    | false => exact runCommand_dropped hd hi hs
    | true =>
      cases i
      case nop => rw [runCommand_passed hd (.inr (.inl rfl)), exec_nop]
      case clrerr => exact absurd hw.symm hclr
      case sreset => exact absurd hw.symm hsr
      all_goals cases hi

/-- A word written with ERR = 0 that leaves an error wrote the record alone, with itself in ERRINFO (R241). -/
theorem runCommand_raised (h : runCommand w s = .next t) (hs : s.errCode = .none) (ht : t.errCode ≠ .none) :
    t = s.recordError t.errCode w := by
  cases hd : decode w with
  | illegal why =>
    rw [runCommand_illegal_recorded hd hs] at h
    cases h
    rfl
  | command i =>
    rw [runCommand_passed hd (.inl hs)] at h
    obtain ⟨c, -, rfl⟩ := exec_raised h hs ht
    rw [encode_of_decode hd, recordError_errCode]

/-- CLRERR and SRESET leave no error (R131, R132). -/
theorem errCode_of_clear_word (h : runCommand w s = .next t) (hw : w = 0x01000000 ∨ w = 0x02000000) :
    t.errCode = .none := by
  rcases hw with rfl | rfl
  · have hd : decode 0x01000000 = .command .clrerr := decode_encode (i := .clrerr) rfl
    rw [runCommand_passed hd (.inr (.inr (.inl rfl)))] at h
    cases h
    rfl
  · have hd : decode 0x02000000 = .command .sreset := decode_encode (i := .sreset) rfl
    rw [runCommand_passed hd (.inr (.inr (.inr rfl)))] at h
    cases h
    rfl

/-- Settles O46, by ERR before the word: `runCommand_raised` with the gate open, `runCommand_of_errCode` with the gate
closed. -/
theorem errorsAreAllOrNothing : Obligations.ErrorsAreAllOrNothing := by
  intro s t w h ht
  by_cases hs : s.errCode = .none
  · rw [if_pos hs]
    exact runCommand_raised h hs ht
  · have hkept : runCommand w s = .next s :=
      runCommand_of_errCode hs (fun hw => ht (errCode_of_clear_word h (.inl hw)))
        (fun hw => ht (errCode_of_clear_word h (.inr hw)))
    rw [if_neg hs]
    cases hkept.symm.trans h
    rfl

/-! ### Accesses while an error is recorded -/

/-- What an access can do: it is refused, reads a register, runs a command word, or stores into ARG or FREQ (R34, R73,
R74). -/
theorem performAccess_cases (a : Access) (s : State) :
    performAccess a s = .next (refuseAccess a s) ∨
    (∃ v, performAccess a s = .next (s.observe a (some v) false)) ∨
    (∃ w, a = { addr := 0x0008, lanes := 0xF, kind := .write w } ∧
      performAccess a s = andThen (runCommand w s) fun t => t.observe a none false) ∨
    (∃ v, performAccess a s = .next ({ s with arg := v }.observe a none false)) ∨
    ∃ k v, performAccess a s = .next ((s.writeFreq k v).observe a none false) := by
  obtain ⟨addr, lanes, kind⟩ := a
  by_cases hwf : addr.toNat % 4 ≠ 0 ∨ lanes ≠ 0xF
  · exact .inl (performAccess_malformed hwf s)
  obtain ⟨h4, rfl⟩ : addr.toNat % 4 = 0 ∧ lanes = 0xF := by tauto
  cases hm : addressMap s.cfg addr.toNat with
  | none => exact .inl (performAccess_unmapped hm)
  | some r =>
    cases kind with
    | read => exact .inr (.inl ⟨_, performAccess_read h4 hm⟩)
    | write v =>
      have hwrite := performAccess_write (v := v) h4 hm
      cases r
      case cmd =>
        obtain rfl : addr = 0x0008 := BitVec.eq_of_toNat_eq (eq_of_addressMap_cmd h4 hm)
        exact .inr (.inr (.inl ⟨v, rfl, hwrite⟩))
      case arg => exact .inr (.inr (.inr (.inl ⟨v, hwrite⟩)))
      case freq k => exact .inr (.inr (.inr (.inr ⟨k, v, hwrite⟩)))
      all_goals exact .inl hwrite

/-- A refused access leaves a recorded error alone and adds its answer (R244). -/
theorem refuseAccess_of_errCode (hs : s.errCode ≠ .none) :
    refuseAccess a s = { s with observed := (refuseAccess a s).observed } := by
  rw [refuseAccess_eq, if_neg hs, if_neg hs]

/-- Settles O49, by what the access does: only a command word could touch more than ARG, FREQ and the answers, and every
word but CLRERR and SRESET has no effect. -/
theorem firstErrorIsKept : Obligations.FirstErrorIsKept := by
  intro s t a hs h hword
  rcases performAccess_cases a s with hp | ⟨v, hp⟩ | ⟨w, rfl, hp⟩ | ⟨v, hp⟩ | ⟨k, v, hp⟩ <;> rw [hp] at h
  · cases h
    rw [refuseAccess_of_errCode hs]
  · cases h
    rfl
  · have hclr : w ≠ 0x01000000 := by rintro rfl; exact hword ⟨rfl, rfl, .inl rfl⟩
    have hsr : w ≠ 0x02000000 := by rintro rfl; exact hword ⟨rfl, rfl, .inr rfl⟩
    rw [runCommand_of_errCode hs hclr hsr] at h
    cases h
    rfl
  · cases h
    rfl
  · cases h
    rfl

end Sys2Proof.Machine
end

section
/-! PROOFS. Reset, retry and completion (R270, R279, R283, R285): what a pulse of the reset input leaves, that CLRERR takes
back a recorded error, and that from a state of the invariant every input is completed. -/

namespace Sys2Proof.Machine

variable {s : State}

/-! ### Completion -/

/-- A full-word write to CMD completes: the gate drops the word, it is ILLEGAL and at most recorded, or it runs a command,
and every command answers (R240). -/
theorem Inv.runCommand_answers (hi : Inv s) (w : Word) : ∃ t, runCommand w s = .next t := by
  cases hd : decode w with
  | illegal why =>
    by_cases hs : s.errCode = .none
    · exact ⟨_, runCommand_illegal_recorded hd hs⟩
    · exact ⟨s, runCommand_illegal_dropped hd hs⟩
  | command i =>
    rw [runCommand_command hd]
    split
    · exact ⟨s, rfl⟩
    · exact hi.exec_answers i

/-- Every access completes: only a command word could fail to, and it does not (R73, R283). -/
theorem Inv.performAccess_answers (hi : Inv s) (a : Access) : ∃ t, performAccess a s = .next t := by
  rcases performAccess_cases a s with hp | ⟨v, hp⟩ | ⟨w, -, hp⟩ | ⟨v, hp⟩ | ⟨k, v, hp⟩
  · exact ⟨_, hp⟩
  · exact ⟨_, hp⟩
  · obtain ⟨t, ht⟩ := hi.runCommand_answers w
    exact ⟨t.observe a none false, by rw [hp, ht, andThen]⟩
  · exact ⟨_, hp⟩
  · exact ⟨_, hp⟩

/-- Settles O52, by the input the step takes: none, a pulse of the reset input, or an access, which completes. -/
theorem everyStepCompletes : Obligations.EveryStepCompletes := by
  intro s hi
  cases hp : s.pending with
  | nil => exact ⟨s, step_of_pending_nil hp⟩
  | cons x rest =>
    rw [step_of_pending_cons hp]
    cases x with
    | hardReset => exact ⟨_, rfl⟩
    | access a => exact (hi.withPending rest).performAccess_answers a

/-! ### Retry after a failed command -/

/-- CLRERR passes the gate, open or closed, and clears the error record (R131, R240). -/
theorem runCommand_clrerr (s : State) : runCommand 0x01000000 s = .next s.clearError := by
  have hd : decode 0x01000000 = .command .clrerr := decode_encode (i := .clrerr) rfl
  rw [runCommand_passed hd (.inr (.inr (.inl rfl))), exec_clrerr]

/-- Clearing takes back what was recorded into an empty record. -/
theorem clearError_recordError (hc : s.errCode = .none) (hi : s.errInfo = 0) (c : ErrCode) (info : Word) :
    (s.recordError c info).clearError = s :=
  clearError_eq_self (s := s) hc hi

/-- Settles O48: the failed word wrote the error record alone (`runCommand_raised`), and CLRERR empties it again. -/
theorem failedCommandCanBeRetried : Obligations.FailedCommandCanBeRetried := by
  intro s t w hc hi h ht
  rw [runCommand_clrerr, runCommand_raised h hc ht, clearError_recordError hc hi]

/-! ### The reset input -/

/-- A pulse of the reset input leaves the state of R65, over a new draw of OBUF (R270, log 10). -/
theorem hardReset_afterReset (s : State) : AfterReset s.hardReset := rfl

/-- Settles O21: the step is the pulse, which keeps the host's side, and AfterReset implies Clean. -/
theorem hardResetGivesTheResetState : Obligations.HardResetGivesTheResetState := by
  intro s rest hp
  have hreset := hardReset_afterReset { s with pending := rest }
  exact ⟨_, step_of_pending_cons hp, hreset, hreset.clean, rfl, rfl, rfl⟩

end Sys2Proof.Machine
end
